-- ==== Sys2Proof/Word.lean ====
section
/-! DEFINITION. The word types: a byte, a block of bytes, a command word. -/

namespace Sys2Proof

/-- One byte of a buffer, a table or a block (spec/20_memory.md R60, R61). -/
abbrev Byte := BitVec 8

/-- A block: a byte sequence of length 0 to 32, byte 0 first (spec/10_state.md R33). -/
abbrev Block := List Byte

/-- The 16-bit command word `CMD[15:0]` (spec/30_encoding.md R90). -/
abbrev CmdWord := BitVec 16

/-- `BLOCK_BYTES = 32` (spec/00_scope.md R8). -/
abbrev blockBytes : Nat := 32

/-- `BLOCK_BITS = 256` (spec/00_scope.md R8). -/
abbrev blockBits : Nat := 256

end Sys2Proof
end

