-- ==== Sys2Proof/Syntax.lean ====
section
/-! DEFINITION. The commands: one constructor per row of spec/opcode_table.json. -/

namespace Sys2Proof

/-- The 34 commands of spec/30_encoding.md R95. A row with mask `0xFF00` carries its `ARG`; the other
operands travel on the ports (R93) and are no part of the command. -/
inductive Instr where
  | cmbAdd
  | cmbSub
  | cmbXor
  | rotNew (slot : BitVec 8)
  | rotUpdate (slot : BitVec 8)
  | rotApplyf (slot : BitVec 8)
  | rotApplyi (slot : BitVec 8)
  | rotSeek (slot : BitVec 8)
  | rotIndex (slot : BitVec 8)
  | prmNew (slot : BitVec 8)
  | prmUpdate (slot : BitVec 8)
  | prmApplyf (slot : BitVec 8)
  | prmApplyi (slot : BitVec 8)
  | prmSeek (slot : BitVec 8)
  | prmIndex (slot : BitVec 8)
  | ctrNew (slot : BitVec 8)
  | ctrUpdate (slot : BitVec 8)
  | ctrApplyf (slot : BitVec 8)
  | ctrApplyi (slot : BitVec 8)
  | ctrSeek (slot : BitVec 8)
  | ctrIndex (slot : BitVec 8)
  | casInit
  | casLoad
  | casSetmode (code : BitVec 8)
  | casBuild
  | casSeek
  | casIndex
  | casClose
  | casPush
  | casPull
  | rngSeed
  | rngRead
  | rngUniform
  | rngPerm
  deriving DecidableEq, Repr

end Sys2Proof
end

