-- ==== Sys2Proof/Decode.lean ====
section
/-! DEFINITION. Decoding a command word, total on every word and refusing by name, and after it the
encoder (spec/30_encoding.md R90 to R98). The command word is a 16-bit port value: it is never stored
as bytes, so there is no byte order to choose. -/

namespace Sys2Proof

/-- Why a word is no command word, whatever the layout (spec/30_encoding.md R98). -/
inductive DecodeError where
  /-- `UNIT` is 6 to 15 -/
  | reservedUnit
  /-- `OP` is not listed for the unit -/
  | unlistedOp
  /-- the row's mask is `0xFFFF` and `ARG` is not 0 -/
  | argNotZero
  deriving DecidableEq, Repr

/-- `UNIT`, bits `[15:12]` (spec/30_encoding.md R91). -/
def unitField (w : CmdWord) : BitVec 4 := w.extractLsb' 12 4

/-- `OP`, bits `[11:8]` (spec/30_encoding.md R91). -/
def opField (w : CmdWord) : BitVec 4 := w.extractLsb' 8 4

/-- `ARG`, bits `[7:0]` (spec/30_encoding.md R91). -/
def argField (w : CmdWord) : BitVec 8 := w.extractLsb' 0 8

/-- A row with mask `0xFFFF`: `ARG` must be 0 (spec/30_encoding.md R95). -/
def plainRow (arg : BitVec 8) (i : Instr) : Except DecodeError Instr :=
  if arg = 0 then .ok i else .error .argNotZero

/-- Unit 0, `CMB` (spec/30_encoding.md R95). -/
def decodeCmb (op : BitVec 4) (arg : BitVec 8) : Except DecodeError Instr :=
  match op.toNat with
  | 0 => plainRow arg .cmbAdd
  | 1 => plainRow arg .cmbSub
  | 2 => plainRow arg .cmbXor
  | _ => .error .unlistedOp

/-- Unit 1, `ROT` (spec/30_encoding.md R92, R95). -/
def decodeRot (op : BitVec 4) (arg : BitVec 8) : Except DecodeError Instr :=
  match op.toNat with
  | 0 => .ok (.rotNew arg)
  | 1 => .ok (.rotUpdate arg)
  | 2 => .ok (.rotApplyf arg)
  | 3 => .ok (.rotApplyi arg)
  | 4 => .ok (.rotSeek arg)
  | 5 => .ok (.rotIndex arg)
  | _ => .error .unlistedOp

/-- Unit 2, `PRM` (spec/30_encoding.md R92, R95). -/
def decodePrm (op : BitVec 4) (arg : BitVec 8) : Except DecodeError Instr :=
  match op.toNat with
  | 0 => .ok (.prmNew arg)
  | 1 => .ok (.prmUpdate arg)
  | 2 => .ok (.prmApplyf arg)
  | 3 => .ok (.prmApplyi arg)
  | 4 => .ok (.prmSeek arg)
  | 5 => .ok (.prmIndex arg)
  | _ => .error .unlistedOp

/-- Unit 3, `CTR` (spec/30_encoding.md R92, R95). -/
def decodeCtr (op : BitVec 4) (arg : BitVec 8) : Except DecodeError Instr :=
  match op.toNat with
  | 0 => .ok (.ctrNew arg)
  | 1 => .ok (.ctrUpdate arg)
  | 2 => .ok (.ctrApplyf arg)
  | 3 => .ok (.ctrApplyi arg)
  | 4 => .ok (.ctrSeek arg)
  | 5 => .ok (.ctrIndex arg)
  | _ => .error .unlistedOp

/-- Unit 4, `CAS` (spec/30_encoding.md R95). -/
def decodeCas (op : BitVec 4) (arg : BitVec 8) : Except DecodeError Instr :=
  match op.toNat with
  | 0 => plainRow arg .casInit
  | 1 => plainRow arg .casLoad
  | 2 => .ok (.casSetmode arg)
  | 3 => plainRow arg .casBuild
  | 4 => plainRow arg .casSeek
  | 5 => plainRow arg .casIndex
  | 6 => plainRow arg .casClose
  | 7 => plainRow arg .casPush
  | 8 => plainRow arg .casPull
  | _ => .error .unlistedOp

/-- Unit 5, `RNG` (spec/30_encoding.md R95). -/
def decodeRng (op : BitVec 4) (arg : BitVec 8) : Except DecodeError Instr :=
  match op.toNat with
  | 0 => plainRow arg .rngSeed
  | 1 => plainRow arg .rngRead
  | 2 => plainRow arg .rngUniform
  | 3 => plainRow arg .rngPerm
  | _ => .error .unlistedOp

/-- The opcode map (spec/30_encoding.md R91, R95). Whether an `ARG` names a slot of the layout is no
matter of the word: `Instr.wf` says it, and the machine checks it where it issues the command. -/
def decode (w : CmdWord) : Except DecodeError Instr :=
  match (unitField w).toNat with
  | 0 => decodeCmb (opField w) (argField w)
  | 1 => decodeRot (opField w) (argField w)
  | 2 => decodePrm (opField w) (argField w)
  | 3 => decodeCtr (opField w) (argField w)
  | 4 => decodeCas (opField w) (argField w)
  | 5 => decodeRng (opField w) (argField w)
  | _ => .error .reservedUnit

/-- A command word from its three fields (spec/30_encoding.md R91). -/
def commandWord (unit op : BitVec 4) (arg : BitVec 8) : CmdWord := unit ++ op ++ arg

/-- The word of a command (spec/30_encoding.md R91, R92, R95). -/
def encode : Instr → CmdWord
  | .cmbAdd => commandWord 0 0 0
  | .cmbSub => commandWord 0 1 0
  | .cmbXor => commandWord 0 2 0
  | .rotNew s => commandWord 1 0 s
  | .rotUpdate s => commandWord 1 1 s
  | .rotApplyf s => commandWord 1 2 s
  | .rotApplyi s => commandWord 1 3 s
  | .rotSeek s => commandWord 1 4 s
  | .rotIndex s => commandWord 1 5 s
  | .prmNew s => commandWord 2 0 s
  | .prmUpdate s => commandWord 2 1 s
  | .prmApplyf s => commandWord 2 2 s
  | .prmApplyi s => commandWord 2 3 s
  | .prmSeek s => commandWord 2 4 s
  | .prmIndex s => commandWord 2 5 s
  | .ctrNew s => commandWord 3 0 s
  | .ctrUpdate s => commandWord 3 1 s
  | .ctrApplyf s => commandWord 3 2 s
  | .ctrApplyi s => commandWord 3 3 s
  | .ctrSeek s => commandWord 3 4 s
  | .ctrIndex s => commandWord 3 5 s
  | .casInit => commandWord 4 0 0
  | .casLoad => commandWord 4 1 0
  | .casSetmode code => commandWord 4 2 code
  | .casBuild => commandWord 4 3 0
  | .casSeek => commandWord 4 4 0
  | .casIndex => commandWord 4 5 0
  | .casClose => commandWord 4 6 0
  | .casPush => commandWord 4 7 0
  | .casPull => commandWord 4 8 0
  | .rngSeed => commandWord 5 0 0
  | .rngRead => commandWord 5 1 0
  | .rngUniform => commandWord 5 2 0
  | .rngPerm => commandWord 5 3 0

/-- The instruction the decoder reads from a table row's word of `nbits` bits: the word at the command
port, every bit at or above `nbits` zero. -/
def decodeTableWord (nbits w : Nat) : Option Instr :=
  match decode (BitVec.ofNat 16 (w % 2 ^ nbits)) with
  | .ok i => some i
  | .error _ => none

end Sys2Proof
end

