-- ==== Sys2Proof/Machine/Stage.lean ====
section
/-! DEFINITION. The stage records a slot can hold, as plain data (spec/10_state.md R21, R25, R28). -/

namespace Sys2Proof

/-- The two kinds of slot a `LAYOUT` is made of (spec/00_scope.md R9). -/
inductive Kind where
  | rotor
  | permutator
  deriving DecidableEq, Repr

namespace Machine

/-- A Rotor (spec/10_state.md R25). -/
structure Rotor where
  /-- bit-length of the active buffer -/
  size : Nat
  /-- initial offset -/
  start : Nat
  /-- advance per block -/
  step : Nat
  /-- live offset -/
  current : Nat
  /-- bit storage of `size + 256` bits, bit `i` in byte `i / 8`, least significant first -/
  buffer : List Byte
  deriving DecidableEq, Repr

/-- One cycle of a permutator (spec/10_state.md R28). -/
structure Cycle where
  start : Nat
  length : Nat
  current : Nat
  deriving DecidableEq, Repr

/-- A Permutator (spec/10_state.md R28). -/
structure Permutator where
  /-- ordinal in `[0, maximalStates)` -/
  currentState : Nat
  /-- product of the cycle lengths -/
  maximalStates : Nat
  /-- the cycles, in order -/
  cycles : List Cycle
  /-- 256 distinct byte values in some order -/
  tableSource : List Byte
  /-- the derived 256-entry permutation -/
  bitTable : List Byte
  deriving DecidableEq, Repr

/-- What a rotor or permutator slot holds once loaded (spec/10_state.md R21). The Counter of slot
`N_SLOTS` is one natural number and stands in State by itself (R30). -/
inductive Stage where
  | rotor (r : Rotor)
  | permutator (p : Permutator)
  deriving DecidableEq, Repr

end Machine

end Sys2Proof
end

