-- ==== Sys2Proof/Machine/Bits.lean ====
section
/-! DEFINITION. The Bit Utilities (spec/40_bits_and_combiner.md R120 to R122), the loops over bit
indices the rotor and the permutator are made of, and byte sequences as integers. -/

namespace Sys2Proof.Machine

/-- `ceil(n / 8)`: the bytes that hold `n` bits (spec/10_state.md R25). -/
def bytesFor (n : Nat) : Nat := (n + 7) / 8

/-- `n` zero bytes. -/
def zeroBytes (n : Nat) : List Byte := List.replicate n 0

/-- `BitGet(buf, i)`: `none` is the access outside the buffer, `BitIndexRange`
(spec/40_bits_and_combiner.md R120, spec/00_scope.md R11). -/
def bitGet (buf : List Byte) (i : Nat) : Option Bool :=
  (buf[i / 8]?).map fun b => b.getLsbD (i % 8)

/-- `BitSet(buf, i)` (spec/40_bits_and_combiner.md R121). -/
def bitSet (buf : List Byte) (i : Nat) : Option (List Byte) :=
  if i / 8 < buf.length then
    some (buf.modify (i / 8) fun b => b ||| (1#8 <<< (i % 8)))
  else none

/-- `BitClr(buf, i)` (spec/40_bits_and_combiner.md R122). -/
def bitClr (buf : List Byte) (i : Nat) : Option (List Byte) :=
  if i / 8 < buf.length then
    some (buf.modify (i / 8) fun b => b &&& ~~~(1#8 <<< (i % 8)))
  else none

/-- `for j in 0 .. n-1: out <- f j out`, ended by the first access outside a buffer. -/
def bitLoop (f : Nat → List Byte → Option (List Byte)) : Nat → List Byte → Option (List Byte)
  | 0, out => some out
  | n + 1, out => (bitLoop f n out).bind (f n)

/-- `for j in 0 .. n-1: if BitGet(src, off + j) = 1: BitSet(dst, j)`, the loop of `ROT.NEW`
(spec/41_rotor.md R141) and of `ROT.GETWIN` (R143). -/
def copyBits (src : List Byte) (off n : Nat) (dst : List Byte) : Option (List Byte) :=
  bitLoop (fun j out => (bitGet src (off + j)).bind fun b => if b then bitSet out j else some out) n dst

/-- `val_be`: a byte sequence as a big-endian unsigned integer (spec/00_scope.md R13). -/
def valBe : List Byte → Nat
  | [] => 0
  | b :: bs => b.toNat * 256 ^ bs.length + valBe bs

end Sys2Proof.Machine
end

