-- ==== Sys2Proof/Config.lean ====
section
/-! DEFINITION. What an implementation fixes: the open parameters of spec/00_scope.md R9. Those that
are data are a record (`Params`), which every State carries unchanged; those that are functions, and
the values the spec leaves open, are opaque constants without a body. -/

namespace Sys2Proof

/-- The explicit parameters of one stage, as `ROT.NEW` and `PRM.NEW` take them and as `PROFORMA` or
one decoded proforma record gives them (spec/45_keysetup_prng.md R271 step 1). -/
inductive StageParams where
  | rotor (size start step : Nat) (data : List Byte)
  | permutator (lengths : List Nat) (table : List Byte)
  deriving DecidableEq, Repr

/-- The kind of slot a record is for. -/
def StageParams.kind : StageParams → Kind
  | .rotor _ _ _ _ => .rotor
  | .permutator _ _ => .permutator

/-- The open parameters of spec/00_scope.md R9 that are data (log 1). `N_SLOTS` is the length of
`layout`; `W_IDX` has no field, indices are unbounded naturals (R10, log 10). -/
structure Params where
  /-- `LAYOUT` -/
  layout : List Kind
  /-- `MAX_ROTOR_BITS` -/
  maxRotorBits : Nat
  /-- `NCYC_MAX` -/
  ncycMax : Nat
  /-- `PRIME_TABLE` -/
  primeTable : List Nat
  /-- `CYCLE_TUPLES` -/
  cycleTuples : List (List Nat)
  /-- `PROFORMA` -/
  proforma : List StageParams
  /-- `TRACK_REF_IDX` -/
  trackRefIdx : Nat
  /-- `TK_BYTES` -/
  tkBytes : Nat
  deriving DecidableEq, Repr

/-- `N_SLOTS = len(LAYOUT)` (spec/00_scope.md R9). -/
abbrev Params.nSlots (p : Params) : Nat := p.layout.length

/-- The data of the spec's test rotor `T1`: `data[k] = (37 k + 11) mod 256`, 33 bytes
(spec/95_test_vectors.md, Fixtures). -/
def fixtureRotorData : List Byte := (List.range 33).map fun k => BitVec.ofNat 8 (37 * k + 11)

/-- The table of the spec's test permutator `T2`: `table_source[i] = (167 i + 13) mod 256`
(spec/95_test_vectors.md, Fixtures). -/
def fixtureTable : List Byte := (List.range 256).map fun i => BitVec.ofNat 8 (167 * i + 13)

/-- The parameters `State.reset` is written with: the layout `K1` of spec/95_test_vectors.md and, for
the parameters that file gives no value, small values inside the constraints of R9
(DESIGN CHOICE, log 1). No claim about every state rests on them. -/
def fixtureParams : Params where
  layout := [.rotor, .permutator]
  maxRotorBits := 8192
  ncycMax := 16
  primeTable := [257]
  cycleTuples := [[61, 63, 65, 67]]
  proforma := [.rotor 257 5 100 fixtureRotorData, .permutator [61, 63, 65, 67] fixtureTable]
  trackRefIdx := 0
  tkBytes := 32

/-- The four arguments of `KEYGEN` (spec/45_keysetup_prng.md R270). -/
structure KeygenArgs where
  secret : List Byte
  proformaSource : Option (List Byte)
  primeRot : Nat
  tupleRot : Nat
  deriving DecidableEq, Repr

namespace Config

/-- `IDX_OUT` when `TRACKED = 0`: unspecified (spec/41_rotor.md R147, spec/42_permutator.md R178,
U4). A free value, fresh for every reading of the counter it is applied to (log 5). -/
opaque freeIdxOut : Nat → Nat

/-- The contents of a stage slot after a failed `CAS.INIT`: unspecified (spec/45_keysetup_prng.md
R270, U6). A free value of the counter and the slot (log 6). -/
opaque freeSlot : Nat → Nat → Option Machine.Stage

/-- The stage parameter records a proforma source decodes to, `none` where a record does not decode.
The wire format is out of scope (spec/00_scope.md R5 (a)), so the function is open (log 8). -/
opaque decodeProforma : Params → List Byte → Option (List StageParams)

/-- The external capability `XorKeystream(bytes) -> bytes` (spec/00_scope.md R5 (b), R9). -/
opaque xorKeystream : List Byte → List Byte

/-- The external capability `KeyStream`: byte `k` of the stream derived from the key material
(spec/00_scope.md R9, spec/45_keysetup_prng.md R271 step 2). -/
opaque keyStream : List Byte → Nat → Byte

/-- The PRNG draws of `KEYGEN`, as numbers: draw `k` for the stage with number `n`, from the key stream,
the proforma source and the two rotation indices (spec/45_keysetup_prng.md R270, R271; log 7). -/
opaque keygenDraw : Params → (Nat → Byte) → Option (List Byte) → Nat → Nat → Nat → Nat → Nat

/-- The bytes `KEYGEN` hashes to make the tracking key, from the key stream, `XorKeystream` and the keyed
cascade's `Enc` at the reference index. How these are put together on the zero buffer is open
(spec/45_keysetup_prng.md R271 step 4, spec/91_not_in_source.md N14; log 7). -/
opaque keygenHashInput :
  Params → (Nat → Byte) → (List Byte → List Byte) → (Block → Block) → List Byte

/-- The external capability `Hash` (spec/00_scope.md R5 (c), R9), as byte `k` of the digest. The
digest has `TK_BYTES` bytes. -/
opaque hash : List Byte → Nat → Byte

/-- `UNIFORM_RECIPE` as an uninterpreted function of the byte stream `Z` from the present position
and the bound: a number and a count (spec/45_keysetup_prng.md R265 (a), R266; log 9). -/
opaque uniformRecipe : (Nat → Byte) → Nat → Nat × Nat

/-- `PERM_RECIPE`, the bounds of the draws of a shuffle of `n` entries (spec/45_keysetup_prng.md
R267; log 9). -/
opaque permBounds : Nat → List Nat

/-- `PERM_RECIPE`, the exchanges of a shuffle of `n` entries as its draws choose them
(spec/45_keysetup_prng.md R267; log 9). -/
opaque permSwaps : Nat → List Nat → List (Nat × Nat)

end Config

end Sys2Proof
end

