-- ==== Sys2Proof/Machine/State.lean ====
section
/-! DEFINITION. The machine's state as plain data, the reasons a step can stop, and the state after
reset (spec/10_state.md, spec/70_reset_and_hazards.md). -/

namespace Sys2Proof.Machine

/-- The four states of the cascade (spec/44_cascade.md R220). -/
inductive Fsm where
  | unkeyed
  | keyed
  | running
  | closed
  deriving DecidableEq, Repr

/-- The direction register (spec/10_state.md R24). -/
inductive Mode where
  | unset
  | encrypt
  | decrypt
  deriving DecidableEq, Repr

/-- The fields of the `PARAM` port (spec/30_encoding.md R93): `ROT.NEW` reads `size`, `start`, `step`
and `data`, `PRM.NEW` reads `cycleLengths` and `tableSource`, `CAS.INIT` reads `secret` and
`proformaSource` (log 14). -/
structure ParamPort where
  size : Nat
  start : Nat
  step : Nat
  data : List Byte
  cycleLengths : List Nat
  tableSource : List Byte
  secret : List Byte
  proformaSource : Option (List Byte)
  deriving DecidableEq, Repr

/-- A command as the host issues it: the word `CMD` and the operand ports sampled with it
(spec/30_encoding.md R90, R93). -/
structure Command where
  /-- `CMD` -/
  cmd : CmdWord
  /-- `LEN` -/
  len : BitVec 6
  /-- `DIN_A` -/
  dinA : BitVec 256
  /-- `DIN_B` -/
  dinB : BitVec 256
  /-- `IDX`, an unbounded natural (spec/00_scope.md R10) -/
  idx : Nat
  /-- `N`, two's complement -/
  n : BitVec 64
  /-- `PARAM` -/
  param : ParamPort
  deriving DecidableEq, Repr

/-- The abstract `RESULT` port (spec/30_encoding.md R93). -/
inductive Result where
  /-- the tracking key of `CAS.INIT` -/
  | trackingKey (key : List Byte)
  /-- the bytes of `RNG.READ` -/
  | bytes (bs : List Byte)
  /-- the value of `RNG.UNIFORM` -/
  | value (v : Nat)
  /-- the list of `RNG.PERM` -/
  | list (l : List Nat)
  deriving DecidableEq, Repr

/-- What the last completed command returned on the output ports (spec/30_encoding.md R93, R95;
spec/10_state.md R24: "the host sees only what a command returns"; log 4). -/
inductive Returned where
  /-- no output port but `STATUS` -/
  | nothing
  /-- `DOUT` and `LEN_OUT` -/
  | block (dout : BitVec 256) (lenOut : BitVec 6)
  /-- `TRACKED` and `IDX_OUT` -/
  | index (tracked : Bool) (idxOut : Nat)
  /-- `RESULT` -/
  | result (r : Result)
  deriving DecidableEq, Repr

/-- Who can move (spec/00_scope.md R16), and the reset line (spec/70_reset_and_hazards.md R330). -/
inductive Agent where
  /-- the host: the next of its commands, or the one in progress, runs to its end -/
  | host
  /-- the host: the next of its commands is accepted, and one that has to wait for a worker is left
  waiting (spec/10_state.md R22: "or blocks"; log 11) -/
  | issue
  /-- the worker at pipeline position `j` takes one step if it has one -/
  | worker (j : Nat)
  /-- the block is reset -/
  | reset
  deriving DecidableEq, Repr

/-- Why the machine stops with no enabled step (spec/60_exceptions.md R310). A step answers one only where
no reset is still to come; otherwise the command stays in progress until the reset (log 11). -/
inductive Fault where
  /-- `CAS.PUSH` waits for room and no worker can ever make any: every queue is full (R230, R310).
  Raised by `CAS.PUSH` and the refill of the PRNG. Safe: the spec says the command never completes. -/
  | stuckPush
  /-- `CAS.PULL` waits for a block and none can ever arrive: nothing is in flight (R231, R310).
  Raised by `CAS.PULL` and the refill of the PRNG. Safe: the spec says the command never completes. -/
  | stuckPull
  /-- `CAS.CLOSE` waits for a queue and no worker can ever move (R229). Raised by `CAS.CLOSE`, only
  from a state that breaks the machine's invariant: with nothing in flight both waits are met. Safe. -/
  | stuckClose
  deriving DecidableEq, Repr

/-- Why a command has no meaning in the present state: a model has no transition for it
(spec/60_exceptions.md R306, spec/93_implementation_defined.md U1). -/
inductive Refusal where
  /-- an instruction without a meaning yet; no arm of `exec` answers it. Safe. -/
  | notModelled (mnemonic : String)
  /-- `FATAL = 1`: every command is refused until reset (R305). Raised by every command. Safe. -/
  | fatalSet
  /-- the cascade state does not allow the command (R221). Raised by every `ROT`, `PRM`, `CTR` and
  `CAS` command and by `RNG.READ`, `RNG.UNIFORM`, `RNG.PERM`. Safe. -/
  | wrongState
  /-- `CAS.BUILD` while `mode = unset` (R221). Safe. -/
  | modeUnset
  /-- a command that needs `inflight = 0` with blocks in flight (R221). Raised by `CAS.SEEK`,
  `CAS.INDEX`, `CAS.CLOSE` and every command that draws from the PRNG. Safe. -/
  | blocksInFlight
  /-- a draw from the PRNG while the pipeline does not encrypt (R260). Raised by `RNG.READ`,
  `RNG.UNIFORM`, `RNG.PERM`, `ROT.UPDATE`, `PRM.UPDATE`. Safe. -/
  | notEncrypting
  /-- a draw from the PRNG before `RNG.SEED` (R260). Raised as `notEncrypting` is. Safe. -/
  | notSeeded
  /-- the command would read a register that holds no value, which the spec refuses (R306, R331,
  spec/95_test_vectors.md Program 4 step 7). Raised by the stage commands on an unloaded slot and by
  `CAS.LOAD` with a slot unloaded. Safe. -/
  | noValue
  /-- the parameters of the implementation break the constraints of spec/00_scope.md R9, so that the
  command has nothing to draw from. Raised by `ROT.UPDATE`, `PRM.UPDATE`, `CAS.INIT`; never with
  parameters that R9 admits (log 22). Safe. -/
  | badParameters
  deriving DecidableEq, Repr

/-- The state of the block (spec/10_state.md R20), the command port with the operands sampled, what the
last command returned, and the model's own fields (`params`, `commands`, `agenda`, `freeCount`). -/
structure State where
  /-- the open parameters of spec/00_scope.md R9; no step changes them (model's own, log 1) -/
  params : Params
  /-- the stage slots `S[0] .. S[N_SLOTS-1]`; `none` is a slot that holds no value (R21, R331) -/
  slots : List (Option Stage)
  /-- `index` of the Counter in slot `N_SLOTS` (R30) -/
  counter : Nat
  /-- `fsm` (R24) -/
  fsm : Fsm
  /-- `mode` (R24) -/
  mode : Mode
  /-- `maximal_states`, `none` is no value (R24) -/
  maximalStates : Option Nat
  /-- `tracking_key`, `none` is no value (R24) -/
  trackingKey : Option (List Byte)
  /-- `prime_rot` (R24) -/
  primeRot : Nat
  /-- `tuple_rot` (R24) -/
  tupleRot : Nat
  /-- `inflight` (R24) -/
  inflight : Nat
  /-- `STATUS` (R23) -/
  status : BitVec 4
  /-- `FATAL` (R23) -/
  fatal : Bool
  /-- the queues `q[0] .. q[N_SLOTS+1]` while Running, else none; an entry `none` is an empty queue (R31) -/
  queues : List (Option Block)
  /-- the liveness bits `alive[0] .. alive[N_SLOTS]` while Running, else none (R31) -/
  alive : List Bool
  /-- `rbuf`, `none` is no value (R32) -/
  rbuf : Option Block
  /-- `rpos` (R32) -/
  rpos : Nat
  /-- `seeded` (R32) -/
  seeded : Bool
  /-- the operands sampled with the command in progress (R93) -/
  port : Command
  /-- the command on the port was accepted and has not completed: it is blocked or stuck
  (R22, spec/60_exceptions.md R310, spec/70_reset_and_hazards.md R330; log 11) -/
  inProgress : Bool
  /-- what the last completed command returned (R93, log 4) -/
  returned : Returned
  /-- the commands the host has still to issue, in order (model's own, log 2) -/
  commands : List Command
  /-- the agents that move next; when it is empty the host moves (model's own, log 3) -/
  agenda : List Agent
  /-- numbers the free values (model's own, log 5) -/
  freeCount : Nat
  deriving DecidableEq, Repr

/-- The `PARAM` port with nothing on it (DESIGN CHOICE, log 2). -/
def ParamPort.empty : ParamPort where
  size := 0
  start := 0
  step := 0
  data := []
  cycleLengths := []
  tableSource := []
  secret := []
  proformaSource := none

/-- The input ports before any command was issued, all zero (DESIGN CHOICE, log 2). -/
def Command.empty : Command where
  cmd := 0
  len := 0
  dinA := 0
  dinB := 0
  idx := 0
  n := 0
  param := ParamPort.empty

/-- The block right after reset, with parameters `p`: every register at the value spec/10_state.md R34
lists. -/
def State.resetWith (p : Params) : State where
  params := p
  slots := List.replicate p.nSlots none
  counter := 0
  fsm := .unkeyed
  mode := .unset
  maximalStates := none
  trackingKey := none
  primeRot := 0
  tupleRot := 0
  inflight := 0
  status := 0
  fatal := false
  queues := []
  alive := []
  rbuf := none
  rpos := 32
  seeded := false
  port := Command.empty
  inProgress := false
  returned := .nothing
  commands := []
  agenda := []
  freeCount := 0

/-- The machine right after reset (spec/10_state.md R34, spec/70_reset_and_hazards.md R330), with the
parameters of the spec's own fixture (log 1). -/
def State.reset : State := State.resetWith fixtureParams

end Sys2Proof.Machine
end

