-- ==== Sys2Proof/Machine/Flags.lean ====
section
/-! DEFINITION. The two status items, `STATUS` and `FATAL` (spec/10_state.md R23). The block has no
condition codes. -/

namespace Sys2Proof.Machine

/-- The four exceptions a command can complete with (spec/60_exceptions.md R300). -/
inductive Exn where
  | invalidArgument
  | configError
  | bitIndexRange
  | illegalCommand
  deriving DecidableEq, Repr

/-- `STATUS = OK` (spec/30_encoding.md R97). -/
def statusOk : BitVec 4 := 0

/-- The code of an exception (spec/30_encoding.md R97, spec/60_exceptions.md R300). -/
def exnCode : Exn → BitVec 4
  | .invalidArgument => 1
  | .configError => 2
  | .bitIndexRange => 3
  | .illegalCommand => 4

/-- Whether an exception is fatal (spec/60_exceptions.md R300). -/
def exnFatal : Exn → Bool
  | .invalidArgument => false
  | .configError => true
  | .bitIndexRange => true
  | .illegalCommand => false

end Sys2Proof.Machine
end

