-- ==== Sys2Proof/Machine/Ops.lean ====
section
/-! DEFINITION. The shared operations: how a command's rule runs and ends, taking an exception, the
reset event, and reading and writing the stage slots and the queues. -/

namespace Sys2Proof.Machine

/-- How far the rule of a command has come: it goes on with a value, raises an exception with what is
already written kept (spec/60_exceptions.md R300: "undo nothing that the rule says is already
written"), is refused, or is stuck. -/
inductive Res (α : Type) where
  | ok (a : α) (s : State)
  | raise (x : Exn) (s : State)
  | refuse (r : Refusal)
  | stuck (f : Fault)

/-- The rest of a rule, run on what came before it. -/
def Res.bind {α β : Type} (m : Res α) (k : α → State → Res β) : Res β :=
  match m with
  | .ok a s => k a s
  | .raise x s => .raise x s
  | .refuse r => .refuse r
  | .stuck f => .stuck f

/-- TAKING AN EXCEPTION (spec/60_exceptions.md R300, R309): `STATUS` takes the code, `FATAL` is set if
the exception is fatal (it is sticky, spec/10_state.md R23), and the command completes. Nothing is
saved and nothing is vectored. There is no return instruction (R309). -/
def raiseException (x : Exn) (s : State) : State :=
  { s with status := exnCode x, fatal := s.fatal || exnFatal x, returned := .nothing }

/-- A command completes with `STATUS = OK` and returns `ret` (spec/60_exceptions.md R300). -/
def completeOk (ret : Returned) (s : State) : State :=
  { s with status := statusOk, returned := ret }

/-- The outcome of a command whose rule has run (spec/60_exceptions.md R300). -/
def complete (m : Res Returned) : Host.Outcome State Fault Refusal :=
  match m with
  | .ok ret s => .next (completeOk ret s)
  | .raise x s => .next (raiseException x s)
  | .refuse r => .refused r
  | .stuck f => .fault f

/-- A bit access that may be outside its buffer, in the state it leaves untouched if it is
(spec/60_exceptions.md R303, spec/20_memory.md R70). -/
def orBitIndexRange {α : Type} (a : Option α) (s : State) : Res α :=
  match a with
  | some v => .ok v s
  | none => .raise .bitIndexRange s

/-- THE RESET EVENT (spec/70_reset_and_hazards.md R330, spec/10_state.md R34): every register takes its
reset value, and a command in progress is abandoned without completing. The parameters are not state and
are not affected; the input ports, the host's later commands and the model's bookkeeping are outside the
block and stay (log 21). -/
def resetEvent (s : State) : State :=
  { State.resetWith s.params with
    port := s.port, commands := s.commands, agenda := s.agenda, freeCount := s.freeCount }

/-- `N_SLOTS` (spec/00_scope.md R9). -/
def numSlots (s : State) : Nat := s.params.nSlots

/-- The rotor in slot `n`, if the slot holds one (spec/41_rotor.md R140). -/
def rotorAt (n : Nat) (s : State) : Option Rotor :=
  match s.slots[n]? with
  | some (some (.rotor r)) => some r
  | _ => none

/-- The permutator in slot `n`, if the slot holds one (spec/42_permutator.md R170). -/
def permutatorAt (n : Nat) (s : State) : Option Permutator :=
  match s.slots[n]? with
  | some (some (.permutator p)) => some p
  | _ => none

/-- A register that must hold a value to be read: "A command whose rule reads such a register is refused"
(spec/70_reset_and_hazards.md R331, spec/60_exceptions.md R306, spec/10_state.md R34). -/
def orNoValue {α : Type} (a : Option α) (s : State) : Res α :=
  match a with
  | some v => .ok v s
  | none => .refuse .noValue

/-- `S[n] <- st` (spec/00_scope.md R14). -/
def writeSlot (n : Nat) (st : Stage) (s : State) : State :=
  { s with slots := s.slots.set n (some st) }

/-- The kind of a stage (spec/10_state.md R21). -/
def stageKind : Stage → Kind
  | .rotor _ => .rotor
  | .permutator _ => .permutator

/-- Every slot holds a stage of the kind the layout gives it (spec/44_cascade.md R224). -/
def everySlotLoaded (s : State) : Bool :=
  s.slots.map (Option.map stageKind) == s.params.layout.map some

/-- `q[j] <- b`, where `none` is the empty queue (spec/10_state.md R31). -/
def writeQueue (j : Nat) (b : Option Block) (s : State) : State :=
  { s with queues := s.queues.set j b }

/-- `q[j] = empty`. -/
def queueEmpty (j : Nat) (s : State) : Bool :=
  match s.queues[j]? with
  | some none => true
  | _ => false

/-- The block in `q[j]`, if there is one. -/
def queueBlock (j : Nat) (s : State) : Option Block :=
  match s.queues[j]? with
  | some (some b) => some b
  | _ => none

end Sys2Proof.Machine
end

