-- ==== Sys2Proof/WellFormed.lean ====
section
/-! DEFINITION. Well-formedness: the `ARG` of a command against the layout (spec/30_encoding.md R94,
R98), and the parameters of an implementation against the constraints of spec/00_scope.md R9. -/

namespace Sys2Proof

/-- `ARG` names a slot of kind `k`: `ARG < N_SLOTS` and `LAYOUT[ARG] = k` (spec/30_encoding.md
R94). -/
def slotHasKind (layout : List Kind) (k : Kind) (slot : BitVec 8) : Bool :=
  layout[slot.toNat]? == some k

/-- `ARG` names the Counter: `ARG = N_SLOTS` (spec/30_encoding.md R94). -/
def slotIsCounter (layout : List Kind) (slot : BitVec 8) : Bool :=
  slot.toNat == layout.length

/-- The `ARG` field of a command is one the layout admits (spec/30_encoding.md R94, R98). Mode codes
2 and 3 are well formed: they are commands that fail (R99). -/
def Instr.wf (layout : List Kind) : Instr → Bool
  | .cmbAdd => true
  | .cmbSub => true
  | .cmbXor => true
  | .rotNew s => slotHasKind layout .rotor s
  | .rotUpdate s => slotHasKind layout .rotor s
  | .rotApplyf s => slotHasKind layout .rotor s
  | .rotApplyi s => slotHasKind layout .rotor s
  | .rotSeek s => slotHasKind layout .rotor s
  | .rotIndex s => slotHasKind layout .rotor s
  | .prmNew s => slotHasKind layout .permutator s
  | .prmUpdate s => slotHasKind layout .permutator s
  | .prmApplyf s => slotHasKind layout .permutator s
  | .prmApplyi s => slotHasKind layout .permutator s
  | .prmSeek s => slotHasKind layout .permutator s
  | .prmIndex s => slotHasKind layout .permutator s
  | .ctrNew s => slotIsCounter layout s
  | .ctrUpdate s => slotIsCounter layout s
  | .ctrApplyf s => slotIsCounter layout s
  | .ctrApplyi s => slotIsCounter layout s
  | .ctrSeek s => slotIsCounter layout s
  | .ctrIndex s => slotIsCounter layout s
  | .casInit => true
  | .casLoad => true
  | .casSetmode code => code.toNat < 4
  | .casBuild => true
  | .casSeek => true
  | .casIndex => true
  | .casClose => true
  | .casPush => true
  | .casPull => true
  | .rngSeed => true
  | .rngRead => true
  | .rngUniform => true
  | .rngPerm => true

/-- Primality by trial division, a check the kernel can run. -/
def primeCheck (n : Nat) : Bool :=
  2 ≤ n && (List.range n).all fun d => d < 2 || n % d != 0

/-- Every entry of `PRIME_TABLE` is prime, at least 256 and at most `MAX_ROTOR_BITS`, and the entries
are pairwise distinct (spec/00_scope.md R9). The rotation index needs one entry at least
(spec/10_state.md R24). -/
def Params.primesWf (p : Params) : Bool :=
  !p.primeTable.isEmpty && decide p.primeTable.Nodup &&
    p.primeTable.all fun n => primeCheck n && 256 ≤ n && n ≤ p.maxRotorBits

/-- A cycle-length tuple: four entries, each at least 1, sum 256, pairwise coprime
(spec/00_scope.md R9, spec/90_conflicts.md C1). -/
def tupleWf (t : List Nat) : Bool :=
  t.length == 4 && (t.all fun n => 1 ≤ n) && t.sum == 256 &&
    decide (t.Pairwise fun a b => Nat.gcd a b = 1)

/-- Every entry of `CYCLE_TUPLES` is a tuple, and there is one at least (spec/00_scope.md R9,
spec/10_state.md R24). -/
def Params.tuplesWf (p : Params) : Bool :=
  !p.cycleTuples.isEmpty && p.cycleTuples.all tupleWf

/-- The bounds on the sizes: `1 ≤ N_SLOTS ≤ 255`, `MAX_ROTOR_BITS ≥ 256`,
`4 ≤ NCYC_MAX ≤ 256` (spec/00_scope.md R9). -/
def Params.sizesWf (p : Params) : Bool :=
  1 ≤ p.nSlots && p.nSlots ≤ 255 && 256 ≤ p.maxRotorBits && 4 ≤ p.ncycMax && p.ncycMax ≤ 256

/-- `PROFORMA` matches `LAYOUT`: one record per slot, in order, of the slot's kind
(spec/00_scope.md R9). -/
def Params.proformaWf (p : Params) : Bool :=
  p.proforma.map StageParams.kind == p.layout

/-- The constraints spec/00_scope.md R9 puts on the parameters. -/
def Params.wf (p : Params) : Bool :=
  p.sizesWf && p.primesWf && p.tuplesWf && p.proformaWf

end Sys2Proof
end

