-- ==== Sys2Proof/Machine/Operands.lean ====
section
/-! DEFINITION. The operand ports (spec/30_encoding.md R93, spec/20_memory.md R64), which encodings
are legal (R98), in which cascade state a command is legal (spec/44_cascade.md R221), and the order
the outcomes of a command are taken in (spec/60_exceptions.md R308). -/

namespace Sys2Proof.Machine

/-- Port bits to a block of `n` bytes: byte `k` is port bits `[8k+7 : 8k]`; the bits at and above `8n`
are ignored (spec/20_memory.md R64). -/
def portBlock (d : BitVec 256) (n : Nat) : Block :=
  (List.range n).map fun k => d.extractLsb' (8 * k) 8

/-- A block to port bits, zero at and above `8 · len` (spec/20_memory.md R64). -/
def blockPort : Block → BitVec 256
  | [] => 0
  | b :: bs => b.zeroExtend 256 ||| (blockPort bs <<< 8)

/-- The block operand on `DIN_A`, of `LEN` bytes (spec/30_encoding.md R93). -/
def operandA (s : State) : Block := portBlock s.port.dinA s.port.len.toNat

/-- The block operand on `DIN_B`, of `LEN` bytes (spec/30_encoding.md R93). -/
def operandB (s : State) : Block := portBlock s.port.dinB s.port.len.toNat

/-- The signed operand `N` (spec/30_encoding.md R93). -/
def operandN (s : State) : Int := s.port.n.toInt

/-- A result block on `DOUT` with its length on `LEN_OUT` (spec/30_encoding.md R93). -/
def returnBlock (b : Block) : Returned := .block (blockPort b) (BitVec.ofNat 6 b.length)

/-- `LEN` for the combiner: 0 to 32 (spec/30_encoding.md R98). -/
def lenCombiner (len : BitVec 6) : Bool := len.toNat ≤ 32

/-- `LEN` of a block that a stage or the pipeline takes: 1 to 32; the empty block is the sentinel
(spec/30_encoding.md R98). -/
def lenStage (len : BitVec 6) : Bool := 1 ≤ len.toNat && len.toNat ≤ 32

/-- `LEN` of a full block (spec/30_encoding.md R98: `RNG.SEED`). -/
def lenFull (len : BitVec 6) : Bool := len.toNat == 32

/-- `LEN` is in range for the command; a command that takes no `LEN` ignores the port
(spec/30_encoding.md R98). -/
def lenLegal (len : BitVec 6) : Instr → Bool
  | .cmbAdd => lenCombiner len
  | .cmbSub => lenCombiner len
  | .cmbXor => lenCombiner len
  | .rotNew _ => true
  | .rotUpdate _ => true
  | .rotApplyf _ => lenStage len
  | .rotApplyi _ => lenStage len
  | .rotSeek _ => true
  | .rotIndex _ => true
  | .prmNew _ => true
  | .prmUpdate _ => true
  | .prmApplyf _ => lenStage len
  | .prmApplyi _ => lenStage len
  | .prmSeek _ => true
  | .prmIndex _ => true
  | .ctrNew _ => true
  | .ctrUpdate _ => true
  | .ctrApplyf _ => lenStage len
  | .ctrApplyi _ => lenStage len
  | .ctrSeek _ => true
  | .ctrIndex _ => true
  | .casInit => true
  | .casLoad => true
  | .casSetmode _ => true
  | .casBuild => true
  | .casSeek => true
  | .casIndex => true
  | .casClose => true
  | .casPush => lenStage len
  | .casPull => true
  | .rngSeed => lenFull len
  | .rngRead => true
  | .rngUniform => true
  | .rngPerm => true

/-- The word, its `ARG` and its `LEN` are a legal encoding (spec/30_encoding.md R98). -/
def encodingLegal (i : Instr) (s : State) : Bool :=
  i.wf s.params.layout && lenLegal s.port.len i

/-- Legal in every state of the cascade (spec/44_cascade.md R221). -/
def alwaysLegal (_ : State) : Option Refusal := none

/-- Legal outside Running: the stage belongs to no worker (spec/44_cascade.md R221,
spec/70_reset_and_hazards.md R340). -/
def legalOutsideRunning (s : State) : Option Refusal :=
  if s.fsm = .running then some .wrongState else none

/-- Legal in Keyed and Closed (spec/44_cascade.md R221: `CAS.SETMODE`). -/
def legalKeyedOrClosed (s : State) : Option Refusal :=
  if s.fsm = .keyed ∨ s.fsm = .closed then none else some .wrongState

/-- Legal while Running only (spec/44_cascade.md R221: `CAS.PUSH`, `CAS.PULL`). -/
def legalRunning (s : State) : Option Refusal :=
  if s.fsm = .running then none else some .wrongState

/-- `CAS.LOAD`: outside Running, "every slot loaded", "else refused" (spec/44_cascade.md R221, R224;
spec/70_reset_and_hazards.md R331). -/
def legalLoad (s : State) : Option Refusal :=
  if s.fsm = .running then some .wrongState
  else if everySlotLoaded s then none else some .noValue

/-- `CAS.BUILD` (spec/44_cascade.md R221): Keyed or Closed, with a mode set. -/
def legalBuild (s : State) : Option Refusal :=
  if s.fsm = .keyed ∨ s.fsm = .closed then
    if s.mode = .unset then some .modeUnset else none
  else some .wrongState

/-- `CAS.SEEK` (spec/44_cascade.md R221): Keyed, or Running with nothing in flight. -/
def legalSeek (s : State) : Option Refusal :=
  match s.fsm with
  | .unkeyed => some .wrongState
  | .keyed => none
  | .running => if s.inflight = 0 then none else some .blocksInFlight
  | .closed => some .wrongState

/-- `CAS.INDEX` (spec/44_cascade.md R221): Keyed, Closed, or Running with nothing in flight. -/
def legalIndex (s : State) : Option Refusal :=
  match s.fsm with
  | .unkeyed => some .wrongState
  | .keyed => none
  | .running => if s.inflight = 0 then none else some .blocksInFlight
  | .closed => none

/-- `CAS.CLOSE` (spec/44_cascade.md R221): Running with nothing in flight. -/
def legalClose (s : State) : Option Refusal :=
  if s.fsm = .running then
    if s.inflight = 0 then none else some .blocksInFlight
  else some .wrongState

/-- The commands that draw from the PRNG (spec/45_keysetup_prng.md R260, spec/44_cascade.md R221). -/
def legalDraw (s : State) : Option Refusal :=
  if s.fsm ≠ .running then some .wrongState
  else if s.mode ≠ .encrypt then some .notEncrypting
  else if s.inflight ≠ 0 then some .blocksInFlight
  else if s.seeded = false then some .notSeeded
  else none

/-- One command, its outcomes taken in the order of spec/60_exceptions.md R308: `FATAL`, the encoding,
the state of the cascade, and then the command's own rule. -/
def runCommand (i : Instr) (legal : State → Option Refusal) (rule : State → Res Returned)
    (s : State) : Host.Outcome State Fault Refusal :=
  if s.fatal then .refused .fatalSet
  else if encodingLegal i s then
    match legal s with
    | some r => .refused r
    | none => complete (rule s)
  else .next (raiseException .illegalCommand s)

/-- A word that is no command word (spec/30_encoding.md R98, spec/60_exceptions.md R304, R308). -/
def illegalWord (s : State) : Host.Outcome State Fault Refusal :=
  if s.fatal then .refused .fatalSet else .next (raiseException .illegalCommand s)

end Sys2Proof.Machine
end

