-- ==== Sys2Proof/Machine/Combiner.lean ====
section
/-! DEFINITION. The Block Combiner and its three commands (spec/40_bits_and_combiner.md R123 to
R127). -/

namespace Sys2Proof.Machine

/-- The byte loop of `CMB.ADD`, from byte `n-1` down to byte 0: the carry out of the bytes and the
result bytes (spec/40_bits_and_combiner.md R123). -/
def addCarry : Block → Block → Nat × Block
  | a :: as, b :: bs =>
    let (carry, r) := addCarry as bs
    let t := a.toNat + b.toNat + carry
    (t / 256, BitVec.ofNat 8 (t % 256) :: r)
  | _, _ => (0, [])

/-- `add(a, b)`; the carry out of byte 0 is discarded (spec/40_bits_and_combiner.md R123). -/
def addBlock (a b : Block) : Block := (addCarry a b).2

/-- The byte loop of `CMB.SUB`, from byte `n-1` down to byte 0: the borrow out of the bytes and the
result bytes (spec/40_bits_and_combiner.md R124). -/
def subBorrow : Block → Block → Nat × Block
  | a :: as, b :: bs =>
    let (borrow, r) := subBorrow as bs
    let t : Int := (a.toNat : Int) - b.toNat - borrow
    if t < 0 then (1, BitVec.ofInt 8 (t + 256) :: r) else (0, BitVec.ofInt 8 t :: r)
  | _, _ => (0, [])

/-- `sub(a, b)`; the borrow out of byte 0 is discarded (spec/40_bits_and_combiner.md R124). -/
def subBlock (a b : Block) : Block := (subBorrow a b).2

/-- Bytewise exclusive or (spec/40_bits_and_combiner.md R125). -/
def xorBlock (a b : Block) : Block := List.zipWith (fun x y => x ^^^ y) a b

/-- A combiner command: a pure function of the two operands (spec/40_bits_and_combiner.md R123). -/
def combine (f : Block → Block → Block) (s : State) : Res Returned :=
  .ok (returnBlock (f (operandA s) (operandB s))) s

/-- `CMB.ADD` (spec/40_bits_and_combiner.md R123). -/
def execCmbAdd (s : State) : Host.Outcome State Fault Refusal :=
  runCommand .cmbAdd alwaysLegal (combine addBlock) s

/-- `CMB.SUB` (spec/40_bits_and_combiner.md R124). -/
def execCmbSub (s : State) : Host.Outcome State Fault Refusal :=
  runCommand .cmbSub alwaysLegal (combine subBlock) s

/-- `CMB.XOR` (spec/40_bits_and_combiner.md R125). -/
def execCmbXor (s : State) : Host.Outcome State Fault Refusal :=
  runCommand .cmbXor alwaysLegal (combine xorBlock) s

end Sys2Proof.Machine
end

