-- ==== Sys2Proof/Machine/Rotor.lean ====
section
/-! DEFINITION. The Rotor stage and its commands but `ROT.UPDATE` (spec/41_rotor.md). -/

namespace Sys2Proof.Machine

/-- Which of the two transforms of a stage (spec/43_counter_and_stage.md R200). -/
inductive Direction where
  | forward
  | inverse
  deriving DecidableEq, Repr

/-- The checks of `ROT.NEW` on its parameters (spec/41_rotor.md R141). -/
def rotorParamsOk (p : Params) (size start step : Nat) (data : List Byte) : Bool :=
  256 ≤ size && size ≤ p.maxRotorBits && start < size && 0 < step && step < size &&
    bytesFor size ≤ data.length

/-- `ROT.EXTEND` on a buffer of `size` active bits (spec/41_rotor.md R142). -/
def rotorExtend (size : Nat) (buf : List Byte) : Option (List Byte) :=
  bitLoop
    (fun j out => (bitGet out j).bind fun b =>
      if b then bitSet out (size + j) else bitClr out (size + j))
    256 buf

/-- The buffer of `ROT.NEW`: the first `size` bits of `data`, extended (spec/41_rotor.md R141). -/
def rotorBuffer (size : Nat) (data : List Byte) : Option (List Byte) :=
  (copyBits data 0 size (zeroBytes (bytesFor (size + 256)))).bind (rotorExtend size)

/-- The rotor `ROT.NEW` builds, at the state of index 0 (spec/41_rotor.md R141). -/
def rotorBuild (size start step : Nat) (data : List Byte) : Option Rotor :=
  (rotorBuffer size data).map fun buf =>
    { size := size, start := start, step := step, current := start, buffer := buf }

/-- `ROT.NEW` on slot `n` (spec/41_rotor.md R141). -/
def rotorNew (n size start step : Nat) (data : List Byte) (s : State) : Res Unit :=
  if rotorParamsOk s.params size start step data then
    (orBitIndexRange (rotorBuild size start step data) s).bind fun r s =>
      .ok () (writeSlot n (.rotor r) s)
  else .raise .configError s

/-- The window of `ROT.GETWIN`, `8n` bits from `current` on (spec/41_rotor.md R143). -/
def rotorWindow (r : Rotor) (n : Nat) : Option Block :=
  copyBits r.buffer r.current (8 * n) (zeroBytes n)

/-- The advance of `ROT.GETWIN` (spec/41_rotor.md R143). -/
def rotorAdvance (r : Rotor) : Rotor :=
  { r with current := (r.current + r.step) % r.size }

/-- The two transforms: `add(blk, window)` and `sub(blk, window)`, each advancing the rotor once
(spec/41_rotor.md R144, R145). -/
def rotorApply (d : Direction) (r : Rotor) (blk : Block) : Option (Block × Rotor) :=
  (rotorWindow r blk.length).map fun w =>
    match d with
    | .forward => (addBlock blk w, rotorAdvance r)
    | .inverse => (subBlock blk w, rotorAdvance r)

/-- `seek(idx)` (spec/41_rotor.md R146). -/
def rotorSeek (idx : Nat) (r : Rotor) : Rotor :=
  { r with current := (idx * r.step + r.start) % r.size }

/-- A transform on the rotor in slot `n`. -/
def rotorApplyAt (d : Direction) (n : Nat) (blk : Block) (s : State) : Res Block :=
  (orNoValue (rotorAt n s) s).bind fun r s =>
    (orBitIndexRange (rotorApply d r blk) s).bind fun o s =>
      .ok o.1 (writeSlot n (.rotor o.2) s)

/-- "Not tracked": `TRACKED = 0` and an `IDX_OUT` that is left open, a free value
(spec/41_rotor.md R147, spec/42_permutator.md R178, U4, log 5). -/
def notTracked (s : State) : Res Returned :=
  .ok (.index false (Config.freeIdxOut s.freeCount)) { s with freeCount := s.freeCount + 1 }

/-- `ROT.NEW` (spec/41_rotor.md R141). -/
def execRotNew (slot : BitVec 8) (s : State) : Host.Outcome State Fault Refusal :=
  runCommand (.rotNew slot) legalOutsideRunning
    (fun s => (rotorNew slot.toNat s.port.param.size s.port.param.start s.port.param.step
      s.port.param.data s).bind fun _ s => .ok .nothing s) s

/-- `ROT.APPLYF` (spec/41_rotor.md R144). -/
def execRotApplyf (slot : BitVec 8) (s : State) : Host.Outcome State Fault Refusal :=
  runCommand (.rotApplyf slot) legalOutsideRunning
    (fun s => (rotorApplyAt .forward slot.toNat (operandA s) s).bind fun o s => .ok (returnBlock o) s) s

/-- `ROT.APPLYI` (spec/41_rotor.md R145). -/
def execRotApplyi (slot : BitVec 8) (s : State) : Host.Outcome State Fault Refusal :=
  runCommand (.rotApplyi slot) legalOutsideRunning
    (fun s => (rotorApplyAt .inverse slot.toNat (operandA s) s).bind fun o s => .ok (returnBlock o) s) s

/-- `ROT.SEEK` (spec/41_rotor.md R146). -/
def execRotSeek (slot : BitVec 8) (s : State) : Host.Outcome State Fault Refusal :=
  runCommand (.rotSeek slot) legalOutsideRunning
    (fun s => (orNoValue (rotorAt slot.toNat s) s).bind fun r s =>
      .ok .nothing (writeSlot slot.toNat (.rotor (rotorSeek s.port.idx r)) s)) s

/-- `ROT.INDEX` (spec/41_rotor.md R147): it needs a loaded slot (R140) and reads nothing of it. -/
def execRotIndex (slot : BitVec 8) (s : State) : Host.Outcome State Fault Refusal :=
  runCommand (.rotIndex slot) legalOutsideRunning
    (fun s => (orNoValue (rotorAt slot.toNat s) s).bind fun _ s => notTracked s) s

end Sys2Proof.Machine
end

