-- ==== Sys2Proof/Machine/Permutator.lean ====
section
/-! DEFINITION. The Permutator stage and its commands but `PRM.UPDATE` (spec/42_permutator.md). -/

namespace Sys2Proof.Machine

/-- A table of 256 bytes that holds every value 0 to 255, and so each once (spec/10_state.md
R29 (e)). -/
def isBijection (t : List Byte) : Bool :=
  t.length == 256 && (List.range 256).all fun v => t.contains (BitVec.ofNat 8 v)

/-- The checks of `PRM.NEW` on its parameters (spec/42_permutator.md R171). -/
def permutatorParamsOk (p : Params) (lengths : List Nat) (table : List Byte) : Bool :=
  1 ≤ lengths.length && lengths.length ≤ p.ncycMax && (lengths.all fun n => n != 0) &&
    lengths.sum == 256 && isBijection table

/-- The cycles of `PRM.NEW`, each starting where the lengths before it end
(spec/42_permutator.md R171). -/
def cyclesFrom : Nat → List Nat → List Cycle
  | _, [] => []
  | acc, n :: ns => { start := acc, length := n, current := 0 } :: cyclesFrom (acc + n) ns

/-- The slice `[start, start + length)` of the source rotated left by `current` places
(spec/42_permutator.md R172). Of a source that ends inside the slice only the entries there are, are
rotated: DESIGN CHOICE, log 17. -/
def rotatedSlice (source : List Byte) (c : Cycle) : List Byte :=
  let slice := (source.drop c.start).take c.length
  let k := c.current % c.length
  slice.drop k ++ slice.take k

/-- One cycle of `PRM.REBUILD`: the slice `[start, start + length)` of the table becomes the rotated
slice of the source (spec/42_permutator.md R172). With a source or a table of fewer than 256 entries,
which spec/10_state.md R29 rules out, the result has fewer entries too and nothing is raised: DESIGN
CHOICE, log 17. -/
def rebuildSlice (source : List Byte) (table : List Byte) (c : Cycle) : List Byte :=
  table.take c.start ++ rotatedSlice source c ++ table.drop (c.start + c.length)

/-- `PRM.REBUILD` (spec/42_permutator.md R172). The cycles write disjoint ranges, so their order does
not matter. -/
def permutatorRebuild (p : Permutator) : Permutator :=
  { p with bitTable := p.cycles.foldl (rebuildSlice p.tableSource) p.bitTable }

/-- The permutator `PRM.NEW` builds, at the state of index 0 (spec/42_permutator.md R171). The table it
starts from is written over whole by the rebuild. -/
def permutatorBuild (lengths : List Nat) (table : List Byte) : Permutator :=
  permutatorRebuild
    { currentState := 0, maximalStates := lengths.prod, cycles := cyclesFrom 0 lengths,
      tableSource := table, bitTable := table }

/-- `PRM.NEW` on slot `n` (spec/42_permutator.md R171). -/
def permutatorNew (n : Nat) (lengths : List Nat) (table : List Byte) (s : State) : Res Unit :=
  if permutatorParamsOk s.params lengths table then
    .ok () (writeSlot n (.permutator (permutatorBuild lengths table)) s)
  else .raise .configError s

/-- `PRM.ADVANCE` (spec/42_permutator.md R173). -/
def permutatorAdvance (p : Permutator) : Permutator :=
  permutatorRebuild
    { p with
      cycles := p.cycles.map fun c => { c with current := (c.current + 1) % c.length }
      currentState := (p.currentState + 1) % p.maximalStates }

/-- The scatter of `PRM.APPLYF` on a full block: input bit `i` goes to bit `bit_table[i]`
(spec/42_permutator.md R175). -/
def scatter (table : List Byte) (blk : Block) : Option Block :=
  bitLoop
    (fun i out => (bitGet blk i).bind fun b =>
      if b then (table[i]?).bind fun v => bitSet out v.toNat else some out)
    256 (zeroBytes 32)

/-- The inverse of the scatter: output bit `i` is input bit `bit_table[i]`
(spec/42_permutator.md R176). -/
def gather (table : List Byte) (blk : Block) : Option Block :=
  bitLoop
    (fun i out => (table[i]?).bind fun v => (bitGet blk v.toNat).bind fun b =>
      if b then bitSet out i else some out)
    256 (zeroBytes 32)

/-- The two transforms: the scatter and its inverse on a full block, the block itself if it is shorter;
the permutator advances once in every case (spec/42_permutator.md R174, R175, R176). -/
def permutatorApply (d : Direction) (p : Permutator) (blk : Block) : Option (Block × Permutator) :=
  let out :=
    if blk.length = 32 then
      match d with
      | .forward => scatter p.bitTable blk
      | .inverse => gather p.bitTable blk
    else some blk
  out.map fun o => (o, permutatorAdvance p)

/-- `seek(idx)` (spec/42_permutator.md R177). -/
def permutatorSeek (idx : Nat) (p : Permutator) : Permutator :=
  let state := idx % p.maximalStates
  permutatorRebuild
    { p with
      currentState := state
      cycles := p.cycles.map fun c => { c with current := state % c.length } }

/-- A transform on the permutator in slot `n`. -/
def permutatorApplyAt (d : Direction) (n : Nat) (blk : Block) (s : State) : Res Block :=
  (orNoValue (permutatorAt n s) s).bind fun p s =>
    (orBitIndexRange (permutatorApply d p blk) s).bind fun o s =>
      .ok o.1 (writeSlot n (.permutator o.2) s)

/-- `PRM.NEW` (spec/42_permutator.md R171). -/
def execPrmNew (slot : BitVec 8) (s : State) : Host.Outcome State Fault Refusal :=
  runCommand (.prmNew slot) legalOutsideRunning
    (fun s => (permutatorNew slot.toNat s.port.param.cycleLengths s.port.param.tableSource s).bind
      fun _ s => .ok .nothing s) s

/-- `PRM.APPLYF` (spec/42_permutator.md R175). -/
def execPrmApplyf (slot : BitVec 8) (s : State) : Host.Outcome State Fault Refusal :=
  runCommand (.prmApplyf slot) legalOutsideRunning
    (fun s => (permutatorApplyAt .forward slot.toNat (operandA s) s).bind
      fun o s => .ok (returnBlock o) s) s

/-- `PRM.APPLYI` (spec/42_permutator.md R176). -/
def execPrmApplyi (slot : BitVec 8) (s : State) : Host.Outcome State Fault Refusal :=
  runCommand (.prmApplyi slot) legalOutsideRunning
    (fun s => (permutatorApplyAt .inverse slot.toNat (operandA s) s).bind
      fun o s => .ok (returnBlock o) s) s

/-- `PRM.SEEK` (spec/42_permutator.md R177). -/
def execPrmSeek (slot : BitVec 8) (s : State) : Host.Outcome State Fault Refusal :=
  runCommand (.prmSeek slot) legalOutsideRunning
    (fun s => (orNoValue (permutatorAt slot.toNat s) s).bind fun p s =>
      .ok .nothing (writeSlot slot.toNat (.permutator (permutatorSeek s.port.idx p)) s)) s

/-- `PRM.INDEX` (spec/42_permutator.md R178): it needs a loaded slot (R170) and reads nothing of it. -/
def execPrmIndex (slot : BitVec 8) (s : State) : Host.Outcome State Fault Refusal :=
  runCommand (.prmIndex slot) legalOutsideRunning
    (fun s => (orNoValue (permutatorAt slot.toNat s) s).bind fun _ s => notTracked s) s

end Sys2Proof.Machine
end

