-- ==== Sys2Proof/Machine/Counter.lean ====
section
/-! DEFINITION. The Counter stage and its commands (spec/43_counter_and_stage.md). -/

namespace Sys2Proof.Machine

/-- Both transforms of the Counter: the block passes through and the index advances by one
(spec/43_counter_and_stage.md R202, R203). -/
def counterApply (blk : Block) (s : State) : Res Block :=
  .ok blk { s with counter := s.counter + 1 }

/-- `c.index <- idx` (spec/43_counter_and_stage.md R201, R204). -/
def counterSeek (idx : Nat) (s : State) : State := { s with counter := idx }

/-- `TRACKED = 1`, `IDX_OUT = c.index` (spec/43_counter_and_stage.md R205). -/
def reportCounter (s : State) : Res Returned := .ok (.index true s.counter) s

/-- `CTR.NEW` (spec/43_counter_and_stage.md R201). -/
def execCtrNew (slot : BitVec 8) (s : State) : Host.Outcome State Fault Refusal :=
  runCommand (.ctrNew slot) legalOutsideRunning (fun s => .ok .nothing (counterSeek 0 s)) s

/-- `CTR.UPDATE` (spec/43_counter_and_stage.md R206): nothing is drawn and nothing changes. -/
def execCtrUpdate (slot : BitVec 8) (s : State) : Host.Outcome State Fault Refusal :=
  runCommand (.ctrUpdate slot) legalOutsideRunning (fun s => .ok .nothing s) s

/-- `CTR.APPLYF` (spec/43_counter_and_stage.md R202). -/
def execCtrApplyf (slot : BitVec 8) (s : State) : Host.Outcome State Fault Refusal :=
  runCommand (.ctrApplyf slot) legalOutsideRunning
    (fun s => (counterApply (operandA s) s).bind fun o s => .ok (returnBlock o) s) s

/-- `CTR.APPLYI` (spec/43_counter_and_stage.md R203). -/
def execCtrApplyi (slot : BitVec 8) (s : State) : Host.Outcome State Fault Refusal :=
  runCommand (.ctrApplyi slot) legalOutsideRunning
    (fun s => (counterApply (operandA s) s).bind fun o s => .ok (returnBlock o) s) s

/-- `CTR.SEEK` (spec/43_counter_and_stage.md R204). -/
def execCtrSeek (slot : BitVec 8) (s : State) : Host.Outcome State Fault Refusal :=
  runCommand (.ctrSeek slot) legalOutsideRunning (fun s => .ok .nothing (counterSeek s.port.idx s)) s

/-- `CTR.INDEX` (spec/43_counter_and_stage.md R205). -/
def execCtrIndex (slot : BitVec 8) (s : State) : Host.Outcome State Fault Refusal :=
  runCommand (.ctrIndex slot) legalOutsideRunning reportCounter s

end Sys2Proof.Machine
end

