-- ==== Sys2Proof/Machine/Pipeline.lean ====
section
/-! DEFINITION. The stage dispatch (spec/43_counter_and_stage.md R200), the workers and the queues of a
running pipeline (spec/44_cascade.md R226, R229 to R232), and the cascade as a function, `Enc` and
`Dec` (R222, R223). -/

namespace Sys2Proof.Machine

/-- `StageF(n, blk)` and `StageI(n, blk)` (spec/43_counter_and_stage.md R200). A slot beyond the layout,
which only a worker beyond the pipeline of a state without the invariant would apply, is an access out
of range (log 17). -/
def stageApply (d : Direction) (n : Nat) (blk : Block) (s : State) : Res Block :=
  if n = numSlots s then counterApply blk s
  else
    match s.params.layout[n]? with
    | some .rotor => rotorApplyAt d n blk s
    | some .permutator => permutatorApplyAt d n blk s
    | none => .raise .bitIndexRange s

/-- `StageSeek(n, idx)` on what the slot holds (spec/43_counter_and_stage.md R200). -/
def stageSeek (idx : Nat) : Stage → Stage
  | .rotor r => .rotor (rotorSeek idx r)
  | .permutator p => .permutator (permutatorSeek idx p)

/-- `StageMax(n)`: a rotor's `size`, a permutator's `maximal_states`
(spec/43_counter_and_stage.md R200). -/
def stageMax : Stage → Nat
  | .rotor r => r.size
  | .permutator p => p.maximalStates

/-- `StageSeek(n, idx)` for every slot and the Counter; each stage seeks by itself, so there is no order
to choose (spec/44_cascade.md R227). A seek reads each stage's parameters; a slot that holds no value, which
no keyed cascade has, is refused (spec/70_reset_and_hazards.md R331). -/
def seekAll (idx : Nat) (s : State) : Res Unit :=
  if s.slots.all Option.isSome then
    .ok () { s with slots := s.slots.map (Option.map (stageSeek idx)), counter := idx }
  else .refuse .noValue

/-- The product of every stage's own maximal-state count; the Counter contributes 1
(spec/44_cascade.md R224). -/
def cascadeMax (s : State) : Nat :=
  (s.slots.map fun st => match st with
    | some st => stageMax st
    | none => 1).prod

/-- The transform the mode asks for (spec/44_cascade.md R232). -/
def modeDirection (m : Mode) : Direction :=
  if m = .encrypt then .forward else .inverse

/-- `stage_of(j)`: the slot worker `j` owns (spec/44_cascade.md R226). -/
def stageOf (s : State) (j : Nat) : Nat :=
  if s.mode = .encrypt then j else numSlots s - j

/-- A step of worker `j` is enabled: it is alive, its input queue holds a block and its output queue is
empty (spec/44_cascade.md R232). -/
def workerEnabled (s : State) (j : Nat) : Bool :=
  s.alive[j]? == some true && (queueBlock j s).isSome && queueEmpty (j + 1) s

/-- What worker `j` does with the block `b` it took: the sentinel is handed on unchanged and the worker
ends; any other block is transformed (spec/44_cascade.md R232). -/
def workerHandle (j : Nat) (b : Block) (s : State) : Res Block :=
  if b.length = 0 then .ok b { s with alive := s.alive.set j false }
  else stageApply (modeDirection s.mode) (stageOf s j) b s

/-- One enabled step of worker `j` (spec/44_cascade.md R232). Where the step is not enabled nothing
happens. -/
def workerStep (j : Nat) (s : State) : Res Unit :=
  if workerEnabled s j then
    match queueBlock j s with
    | some b =>
      (workerHandle j b (writeQueue j none s)).bind fun b' s =>
        .ok () (writeQueue (j + 1) (some b') s)
    | none => .ok () s
  else .ok () s

/-- The enabled worker with the least position (log 3: which of the enabled ones moves while a command
waits cannot be seen, spec/44_cascade.md R233). -/
def firstEnabled (s : State) : Option Nat :=
  (List.range s.alive.length).find? (workerEnabled s)

/-- How many worker steps the blocks in the queues can still make: each block can move once for every
queue after its own. A bound for the wait below. -/
def movesLeft : List (Option Block) → Nat
  | [] => 0
  | none :: qs => movesLeft qs
  | some _ :: qs => qs.length + movesLeft qs

/-- `await cond`: the workers run until the condition holds; if no worker has an enabled step before it
does, the command is stuck (spec/00_scope.md R14, spec/60_exceptions.md R310). -/
def awaitCond (cond : State → Bool) (f : Fault) : Nat → State → Res Unit
  | 0, s => if cond s then .ok () s else .stuck f
  | fuel + 1, s =>
    if cond s then .ok () s
    else
      match firstEnabled s with
      | none => .stuck f
      | some j => (workerStep j s).bind fun _ s => awaitCond cond f fuel s

/-- `await cond`, with as many worker steps as the blocks in the queues can make. -/
def await (cond : State → Bool) (f : Fault) (s : State) : Res Unit :=
  awaitCond cond f (movesLeft s.queues) s

/-- The last queue, the output endpoint `q[N_SLOTS+1]` (spec/10_state.md R31). -/
def outQueue (s : State) : Nat := numSlots s + 1

/-- A block into the input endpoint (spec/44_cascade.md R230). -/
def enqueue (b : Block) (s : State) : State :=
  { writeQueue 0 (some b) s with inflight := s.inflight + 1 }

/-- The block out of the output endpoint (spec/44_cascade.md R231). -/
def dequeue (s : State) : State :=
  { writeQueue (outQueue s) none s with inflight := s.inflight - 1 }

/-- `CAS.PUSH` (spec/44_cascade.md R230). -/
def pushBlock (b : Block) (s : State) : Res Unit :=
  (await (queueEmpty 0) .stuckPush s).bind fun _ s => .ok () (enqueue b s)

/-- `CAS.PULL` (spec/44_cascade.md R231). With nothing in flight the wait can never be met (R310). -/
def pullBlock (s : State) : Res Block :=
  if s.inflight = 0 then .stuck .stuckPull
  else
    (await (fun s => (queueBlock (outQueue s) s).isSome) .stuckPull s).bind fun _ s =>
      match queueBlock (outQueue s) s with
      | some b => .ok b (dequeue s)
      | none => .stuck .stuckPull

/-- `CAS.CLOSE`: the sentinel goes in, every worker hands it on and ends, and it is taken out at the
output endpoint (spec/44_cascade.md R229, spec/90_conflicts.md C2). -/
def closePipeline (s : State) : Res Unit :=
  (await (queueEmpty 0) .stuckClose s).bind fun _ s =>
    (await (fun s => queueBlock (outQueue s) s == some []) .stuckClose
      (writeQueue 0 (some []) s)).bind fun _ s =>
        .ok () { s with queues := [], alive := [], fsm := .closed }

/-- `CAS.BUILD` (spec/44_cascade.md R226). -/
def buildPipeline (s : State) : State :=
  { s with
    queues := List.replicate (numSlots s + 2) none
    alive := List.replicate (numSlots s + 1) true
    inflight := 0
    fsm := .running }

/-- The stages in the order of a list, each applied once to what the one before it gave. -/
def throughStages (d : Direction) : List Nat → Block → State → Res Block
  | [], b, s => .ok b s
  | n :: ns, b, s => (stageApply d n b s).bind fun b s => throughStages d ns b s

/-- `Enc(blk)`, the forward composition (spec/44_cascade.md R222). -/
def encBlock (b : Block) (s : State) : Res Block :=
  throughStages .forward (List.range (numSlots s + 1)) b s

/-- `Dec(blk)`, the backward composition (spec/44_cascade.md R223). -/
def decBlock (b : Block) (s : State) : Res Block :=
  throughStages .inverse (List.range (numSlots s + 1)).reverse b s

end Sys2Proof.Machine
end

