-- ==== Sys2Proof/Machine/Cascade.lean ====
section
/-! DEFINITION. The commands of the Cascade Engine but `CAS.INIT` (spec/44_cascade.md R224 to R231). -/

namespace Sys2Proof.Machine

/-- The rule of `CAS.LOAD`, every slot being loaded (spec/44_cascade.md R224). -/
def loadCascade (s : State) : Res Unit :=
  (seekAll 0 { s with maximalStates := some (cascadeMax s) }).bind fun _ s =>
    .ok () { s with fsm := .keyed }

/-- The mode code of `CAS.SETMODE`, `ARG[1:0]`; codes 2 and 3 are unrecognized
(spec/30_encoding.md R94, R99). -/
def modeOfCode (code : BitVec 8) : Option Mode :=
  if code = 0 then some .encrypt else if code = 1 then some .decrypt else none

/-- The rule of `CAS.SETMODE` (spec/44_cascade.md R225). -/
def setMode (code : BitVec 8) (s : State) : Res Returned :=
  match modeOfCode code with
  | some m => .ok .nothing { s with mode := m }
  | none => .raise .configError s

/-- `CAS.LOAD` (spec/44_cascade.md R224). -/
def execCasLoad (s : State) : Host.Outcome State Fault Refusal :=
  runCommand .casLoad legalLoad (fun s => (loadCascade s).bind fun _ s => .ok .nothing s) s

/-- `CAS.SETMODE` (spec/44_cascade.md R225). -/
def execCasSetmode (code : BitVec 8) (s : State) : Host.Outcome State Fault Refusal :=
  runCommand (.casSetmode code) legalKeyedOrClosed (setMode code) s

/-- `CAS.BUILD` (spec/44_cascade.md R226). -/
def execCasBuild (s : State) : Host.Outcome State Fault Refusal :=
  runCommand .casBuild legalBuild (fun s => .ok .nothing (buildPipeline s)) s

/-- `CAS.SEEK` (spec/44_cascade.md R227). -/
def execCasSeek (s : State) : Host.Outcome State Fault Refusal :=
  runCommand .casSeek legalSeek (fun s => (seekAll s.port.idx s).bind fun _ s => .ok .nothing s) s

/-- `CAS.INDEX` (spec/44_cascade.md R228): the Counter's index. -/
def execCasIndex (s : State) : Host.Outcome State Fault Refusal :=
  runCommand .casIndex legalIndex reportCounter s

/-- `CAS.CLOSE` (spec/44_cascade.md R229). -/
def execCasClose (s : State) : Host.Outcome State Fault Refusal :=
  runCommand .casClose legalClose (fun s => (closePipeline s).bind fun _ s => .ok .nothing s) s

/-- `CAS.PUSH` (spec/44_cascade.md R230). -/
def execCasPush (s : State) : Host.Outcome State Fault Refusal :=
  runCommand .casPush legalRunning
    (fun s => (pushBlock (operandA s) s).bind fun _ s => .ok .nothing s) s

/-- `CAS.PULL` (spec/44_cascade.md R231). -/
def execCasPull (s : State) : Host.Outcome State Fault Refusal :=
  runCommand .casPull legalRunning
    (fun s => (pullBlock s).bind fun o s => .ok (returnBlock o) s) s

end Sys2Proof.Machine
end

