-- ==== Sys2Proof/Machine/Prng.lean ====
section
/-! DEFINITION. The Self-seeded PRNG (spec/45_keysetup_prng.md R260 to R267). -/

namespace Sys2Proof.Machine

/-- `RNG.SEED` on the PRNG's registers (spec/45_keysetup_prng.md R261). -/
def seedPrng (blk : Block) (s : State) : State :=
  { s with rbuf := some blk, rpos := 32, seeded := true }

/-- `RNG.REFILL`: the buffer goes through the running pipeline (spec/45_keysetup_prng.md R262). -/
def refill (s : State) : Res Unit :=
  (orNoValue s.rbuf s).bind fun blk s =>
    (pushBlock blk s).bind fun _ s =>
      (pullBlock s).bind fun out s =>
        .ok () { s with rbuf := some out, rpos := 0 }

/-- The byte at `rpos`, and on by one. The access is inside the buffer in every state that keeps
`rpos ≤ 32` and a 32-byte buffer (spec/10_state.md R32). -/
def takeByte (s : State) : Res Byte :=
  (orNoValue s.rbuf s).bind fun buf s =>
    (orBitIndexRange buf[s.rpos]? s).bind fun b s =>
      .ok b { s with rpos := s.rpos + 1 }

/-- The next byte of the stream `Z`, after a refill if the buffer is exhausted
(spec/45_keysetup_prng.md R263, R264). -/
def drawByte (s : State) : Res Byte :=
  if s.rpos = 32 then (refill s).bind fun _ s => takeByte s else takeByte s

/-- The next `n` bytes of the stream `Z` (spec/45_keysetup_prng.md R263, R264). -/
def drawBytes : Nat → State → Res (List Byte)
  | 0, s => .ok [] s
  | n + 1, s =>
    (drawByte s).bind fun b s => (drawBytes n s).bind fun bs s => .ok (b :: bs) s

/-- Byte `k` of the stream `Z` from the present position (spec/45_keysetup_prng.md R264). It is only
the argument of the open recipe: where the stream ends early, the draw itself stops. -/
def streamByte (s : State) (k : Nat) : Byte :=
  match drawBytes (k + 1) s with
  | .ok bs _ => bs.getLastD 0
  | _ => 0

/-- How many bytes a bounded draw consumes: at least one, unless the bound is 1
(spec/45_keysetup_prng.md R266, log 9). -/
def uniformCount (s : State) (n : Nat) : Nat :=
  (Config.uniformRecipe (streamByte s) n).2 + (if n = 1 then 0 else 1)

/-- `uniform_below(n)`: an uninterpreted function of the stream and the bound, in range, and a number of
bytes consumed (spec/45_keysetup_prng.md R265 (a), R266, log 9). -/
def uniformDraw (n : Nat) (s : State) : Res Nat :=
  (drawBytes (uniformCount s n) s).bind fun _ s' =>
    .ok ((Config.uniformRecipe (streamByte s) n).1 % n) s'

/-- One bounded draw after the other. -/
def uniformDraws : List Nat → State → Res (List Nat)
  | [], s => .ok [] s
  | n :: ns, s =>
    (uniformDraw n s).bind fun v s => (uniformDraws ns s).bind fun vs s => .ok (v :: vs) s

/-- Entries `i` and `j` of a list change places. -/
def exchange {α : Type} (i j : Nat) (l : List α) : List α :=
  match l[i]?, l[j]? with
  | some a, some b => (l.set i b).set j a
  | _, _ => l

/-- A list after a sequence of exchanges, the indices taken modulo its length. Every permutation of the
list is one of these and nothing else is. -/
def shuffle {α : Type} (swaps : List (Nat × Nat)) (l : List α) : List α :=
  swaps.foldl (fun l ij => exchange (ij.1 % l.length) (ij.2 % l.length) l) l

/-- `random_permutation(n)`: a shuffle of `0 .. n-1` whose random choices are bounded draws; which
shuffle it is, is open (spec/45_keysetup_prng.md R265, R267, log 9). With `n = 0` nothing is drawn. -/
def permutationDraw (n : Nat) (s : State) : Res (List Nat) :=
  if n = 0 then .ok [] s
  else
    (uniformDraws ((Config.permBounds n).map fun b => b % n + 1) s).bind fun vs s =>
      .ok (shuffle (Config.permSwaps n vs) (List.range n)) s

/-- `RNG.SEED` (spec/45_keysetup_prng.md R261). -/
def execRngSeed (s : State) : Host.Outcome State Fault Refusal :=
  runCommand .rngSeed alwaysLegal (fun s => .ok .nothing (seedPrng (operandA s) s)) s

/-- `RNG.READ` (spec/45_keysetup_prng.md R263). -/
def execRngRead (s : State) : Host.Outcome State Fault Refusal :=
  runCommand .rngRead legalDraw
    (fun s =>
      if operandN s < 0 then .raise .invalidArgument s
      else (drawBytes (operandN s).toNat s).bind fun bs s => .ok (.result (.bytes bs)) s) s

/-- `RNG.UNIFORM` (spec/45_keysetup_prng.md R266). -/
def execRngUniform (s : State) : Host.Outcome State Fault Refusal :=
  runCommand .rngUniform legalDraw
    (fun s =>
      if operandN s ≤ 0 then .raise .invalidArgument s
      else (uniformDraw (operandN s).toNat s).bind fun v s => .ok (.result (.value v)) s) s

/-- `RNG.PERM` (spec/45_keysetup_prng.md R267). -/
def execRngPerm (s : State) : Host.Outcome State Fault Refusal :=
  runCommand .rngPerm legalDraw
    (fun s =>
      if operandN s < 0 then .raise .invalidArgument s
      else (permutationDraw (operandN s).toNat s).bind fun l s => .ok (.result (.list l)) s) s

end Sys2Proof.Machine
end

