-- ==== Sys2Proof/Machine/Rekey.lean ====
section
/-! DEFINITION. Re-keying: `ROT.UPDATE` (spec/41_rotor.md R150), `PRM.UPDATE`
(spec/42_permutator.md R179) and key setup, `CAS.INIT` (spec/45_keysetup_prng.md R270 to R273). -/

namespace Sys2Proof.Machine

/-- A parameter that the constraints of spec/00_scope.md R9 say is there (log 22). -/
def orBadParameters {α : Type} (a : Option α) (s : State) : Res α :=
  match a with
  | some v => .ok v s
  | none => .refuse .badParameters

/-- The rule of `ROT.UPDATE` on slot `n` (spec/41_rotor.md R150). -/
def rotorUpdate (n : Nat) (s : State) : Res Unit :=
  (orBadParameters s.params.primeTable[s.primeRot]? s).bind fun size s =>
    (uniformDraw size { s with primeRot := (s.primeRot + 1) % s.params.primeTable.length }).bind
      fun start s =>
        (uniformDraw (size - 1) s).bind fun step s =>
          (drawBytes (bytesFor size) s).bind fun data s =>
            rotorNew n size start (1 + step) data s

/-- The entries of a list at the places another list names. -/
def pick {α : Type} (l : List α) (places : List Nat) : List α := places.filterMap fun k => l[k]?

/-- A list of naturals as table entries. -/
def tableBytes (l : List Nat) : List Byte := l.map (BitVec.ofNat 8)

/-- The rule of `PRM.UPDATE` on slot `n` (spec/42_permutator.md R179). -/
def permutatorUpdate (n : Nat) (s : State) : Res Unit :=
  (orBadParameters s.params.cycleTuples[s.tupleRot]? s).bind fun tuple s =>
    (permutationDraw 4 { s with tupleRot := (s.tupleRot + 1) % s.params.cycleTuples.length }).bind
      fun ord s =>
        (permutationDraw 256 s).bind fun table s =>
          permutatorNew n (pick tuple ord) (tableBytes table) s

/-- One record of the proforma fits its slot: the kind is the layout's and the parameters are ones the
stage can be built from (spec/45_keysetup_prng.md R271 step 1). -/
def recordFits (p : Params) (k : Kind) (rec : StageParams) : Bool :=
  match k, rec with
  | .rotor, .rotor size start step data => rotorParamsOk p size start step data
  | .permutator, .permutator lengths table => permutatorParamsOk p lengths table
  | _, _ => false

/-- Exactly one record per slot, in order, each fitting (spec/45_keysetup_prng.md R270). -/
def proformaFits (p : Params) (recs : List StageParams) : Bool :=
  recs.length == p.layout.length && (List.zipWith (recordFits p) p.layout recs).all id

/-- The proforma cascade can be built: from the hardcoded constants where no source is given, else from
what the source decodes to (spec/45_keysetup_prng.md R270, log 8). -/
def proformaBuilds (p : Params) (source : Option (List Byte)) : Bool :=
  match source with
  | none => proformaFits p p.proforma
  | some bytes =>
    match Config.decodeProforma p bytes with
    | some recs => proformaFits p recs
    | none => false

/-- Draw `k` for the stage with number `n` (spec/45_keysetup_prng.md R271, log 7). -/
def keygenDraws (p : Params) (a : KeygenArgs) (n k : Nat) : Nat :=
  Config.keygenDraw p (Config.keyStream a.secret) a.proformaSource a.primeRot a.tupleRot n k

/-- A permutation of `0 .. n-1` from draws, numbered from `first` on. -/
def keygenPermutation (draw : Nat → Nat) (first n : Nat) : List Nat :=
  shuffle ((List.range n).map fun i => (i, draw (first + i))) (List.range n)

/-- The rotor `update` makes of a size and draws (spec/45_keysetup_prng.md R271 step 3,
spec/41_rotor.md R150). -/
def keygenRotor (p : Params) (draw : Nat → Nat) (size : Nat) : Option Rotor :=
  let start := draw 0 % size
  let step := 1 + draw 1 % (size - 1)
  let data := (List.range (bytesFor size)).map fun k => BitVec.ofNat 8 (draw (2 + k))
  if rotorParamsOk p size start step data then rotorBuild size start step data else none

/-- The permutator `update` makes of a tuple and draws (spec/45_keysetup_prng.md R271 step 3,
spec/42_permutator.md R179). -/
def keygenPermutator (p : Params) (draw : Nat → Nat) (tuple : List Nat) : Option Permutator :=
  let lengths := pick tuple (keygenPermutation draw 0 4)
  let table := tableBytes (keygenPermutation draw 4 256)
  if permutatorParamsOk p lengths table then some (permutatorBuild lengths table) else none

/-- How many slots of the layout are of kind `k`. -/
def slotsOfKind (p : Params) (k : Kind) : Nat := p.layout.countP (· == k)

/-- The entry of a table `k` uses after the rotation index `first` (spec/10_state.md R24). -/
def rotating {α : Type} (table : List α) (first k : Nat) : Option α :=
  table[(first + k) % table.length]?

/-- The rotors of the updated cascade, in slot order: the sizes are taken from `PRIME_TABLE` in rotating
order (spec/45_keysetup_prng.md R271 step 3, spec/41_rotor.md R150; log 7). -/
def keygenRotors (p : Params) (a : KeygenArgs) : List (Option Rotor) :=
  (List.range (slotsOfKind p .rotor)).map fun k =>
    (rotating p.primeTable a.primeRot k).bind (keygenRotor p (keygenDraws p a (2 + k)))

/-- The permutators of the updated cascade, in slot order: the tuples are taken from `CYCLE_TUPLES` in
rotating order (spec/45_keysetup_prng.md R271 step 3, spec/42_permutator.md R179; log 7). -/
def keygenPermutators (p : Params) (a : KeygenArgs) : List (Option Permutator) :=
  (List.range (slotsOfKind p .permutator)).map fun k =>
    (rotating p.cycleTuples a.tupleRot k).bind
      (keygenPermutator p (keygenDraws p a (2 + slotsOfKind p .rotor + k)))

/-- Rotors to the rotor slots and permutators to the permutator slots, in slot order. -/
def deal : List Kind → List (Option Rotor) → List (Option Permutator) → List (Option Stage)
  | [], _, _ => []
  | .rotor :: ks, rs, ps => (rs.headD none).map Stage.rotor :: deal ks rs.tail ps
  | .permutator :: ks, rs, ps => (ps.headD none).map Stage.permutator :: deal ks rs ps.tail

/-- The updated cascade before it is reordered, which makes the tracking key
(spec/45_keysetup_prng.md R271 steps 3 and 4). -/
def keygenUpdated (p : Params) (a : KeygenArgs) : List (Option Stage) :=
  deal p.layout (keygenRotors p a) (keygenPermutators p a)

/-- The stages `KEYGEN` makes: the rotors reordered among the rotor slots and the permutators among the
permutator slots (spec/45_keysetup_prng.md R271 step 7). -/
def keygenStages (p : Params) (a : KeygenArgs) : List (Option Stage) :=
  deal p.layout
    (pick (keygenRotors p a) (keygenPermutation (keygenDraws p a 0) 0 (slotsOfKind p .rotor)))
    (pick (keygenPermutators p a) (keygenPermutation (keygenDraws p a 1) 0 (slotsOfKind p .permutator)))

/-- `Enc` of a block by a cascade of the given stages at index `idx`. It is only the argument of the open
hash input: on a block that cannot be encrypted it is empty. -/
def encAt (p : Params) (stages : List (Option Stage)) (idx : Nat) (blk : Block) : Block :=
  match (seekAll idx { State.resetWith p with slots := stages }).bind fun _ s => encBlock blk s with
  | .ok o _ => o
  | _ => []

/-- The tracking key: `TK_BYTES` bytes of `Hash` (spec/45_keysetup_prng.md R270, R271 step 4, R273). -/
def keygenTrackingKey (p : Params) (a : KeygenArgs) : List Byte :=
  (List.range p.tkBytes).map
    (Config.hash
      (Config.keygenHashInput p (Config.keyStream a.secret) Config.xorKeystream
        (encAt p (keygenUpdated p a) p.trackRefIdx)))

/-- The arguments `CAS.INIT` gives `KEYGEN` (spec/45_keysetup_prng.md R270). -/
def keygenArgs (s : State) : KeygenArgs where
  secret := s.port.param.secret
  proformaSource := s.port.param.proformaSource
  primeRot := s.primeRot
  tupleRot := s.tupleRot

/-- The slots after a failed `CAS.INIT`: unspecified, free values (spec/45_keysetup_prng.md R270, U6,
log 6). The slots are those of `LAYOUT`, `0 .. N_SLOTS-1`; that the Counter in slot `N_SLOTS` keeps its
value is the model's choice (DESIGN CHOICE, log 6). -/
def freeSlots (s : State) : State :=
  { s with
    slots := (List.range (numSlots s)).map (Config.freeSlot s.freeCount)
    freeCount := s.freeCount + 1 }

/-- The state `CAS.INIT` leaves, from the stages `KEYGEN` made (spec/45_keysetup_prng.md R270). -/
def adoptKeys (stages : List (Option Stage)) (key : List Byte) (s : State) : Res Unit :=
  (seekAll 0 { s with slots := stages }).bind fun _ s =>
    .ok ()
      { s with
        maximalStates := some (cascadeMax s)
        trackingKey := some key
        primeRot := (s.primeRot + slotsOfKind s.params .rotor) % s.params.primeTable.length
        tupleRot := (s.tupleRot + slotsOfKind s.params .permutator) % s.params.cycleTuples.length
        seeded := false
        fsm := .keyed }

/-- The rule of `CAS.INIT` (spec/45_keysetup_prng.md R270). -/
def initCascade (s : State) : Res Returned :=
  if proformaBuilds s.params s.port.param.proformaSource then
    let a := keygenArgs s
    let stages := keygenStages s.params a
    let key := keygenTrackingKey s.params a
    if stages.all Option.isSome then
      (adoptKeys stages key s).bind fun _ s => .ok (.result (.trackingKey key)) s
    else .refuse .badParameters
  else .raise .configError (freeSlots s)

/-- `ROT.UPDATE` (spec/41_rotor.md R150). -/
def execRotUpdate (slot : BitVec 8) (s : State) : Host.Outcome State Fault Refusal :=
  runCommand (.rotUpdate slot) legalDraw
    (fun s => (rotorUpdate slot.toNat s).bind fun _ s => .ok .nothing s) s

/-- `PRM.UPDATE` (spec/42_permutator.md R179). -/
def execPrmUpdate (slot : BitVec 8) (s : State) : Host.Outcome State Fault Refusal :=
  runCommand (.prmUpdate slot) legalDraw
    (fun s => (permutatorUpdate slot.toNat s).bind fun _ s => .ok .nothing s) s

/-- `CAS.INIT` (spec/45_keysetup_prng.md R270). -/
def execCasInit (s : State) : Host.Outcome State Fault Refusal :=
  runCommand .casInit legalOutsideRunning initCascade s

end Sys2Proof.Machine
end

