-- ==== Sys2Proof/Machine/Dispatch.lean ====
section
/-! DEFINITION. One arm per command: its meaning. -/

namespace Sys2Proof.Machine

def exec (i : Instr) (s : State) : Host.Outcome State Fault Refusal :=
  match i with
  | .cmbAdd => Sys2Proof.Machine.execCmbAdd s
  | .cmbSub => Sys2Proof.Machine.execCmbSub s
  | .cmbXor => Sys2Proof.Machine.execCmbXor s
  | .rotNew slot => Sys2Proof.Machine.execRotNew slot s
  | .rotUpdate slot => Sys2Proof.Machine.execRotUpdate slot s
  | .rotApplyf slot => Sys2Proof.Machine.execRotApplyf slot s
  | .rotApplyi slot => Sys2Proof.Machine.execRotApplyi slot s
  | .rotSeek slot => Sys2Proof.Machine.execRotSeek slot s
  | .rotIndex slot => Sys2Proof.Machine.execRotIndex slot s
  | .prmNew slot => Sys2Proof.Machine.execPrmNew slot s
  | .prmUpdate slot => Sys2Proof.Machine.execPrmUpdate slot s
  | .prmApplyf slot => Sys2Proof.Machine.execPrmApplyf slot s
  | .prmApplyi slot => Sys2Proof.Machine.execPrmApplyi slot s
  | .prmSeek slot => Sys2Proof.Machine.execPrmSeek slot s
  | .prmIndex slot => Sys2Proof.Machine.execPrmIndex slot s
  | .ctrNew slot => Sys2Proof.Machine.execCtrNew slot s
  | .ctrUpdate slot => Sys2Proof.Machine.execCtrUpdate slot s
  | .ctrApplyf slot => Sys2Proof.Machine.execCtrApplyf slot s
  | .ctrApplyi slot => Sys2Proof.Machine.execCtrApplyi slot s
  | .ctrSeek slot => Sys2Proof.Machine.execCtrSeek slot s
  | .ctrIndex slot => Sys2Proof.Machine.execCtrIndex slot s
  | .casInit => Sys2Proof.Machine.execCasInit s
  | .casLoad => Sys2Proof.Machine.execCasLoad s
  | .casSetmode code => Sys2Proof.Machine.execCasSetmode code s
  | .casBuild => Sys2Proof.Machine.execCasBuild s
  | .casSeek => Sys2Proof.Machine.execCasSeek s
  | .casIndex => Sys2Proof.Machine.execCasIndex s
  | .casClose => Sys2Proof.Machine.execCasClose s
  | .casPush => Sys2Proof.Machine.execCasPush s
  | .casPull => Sys2Proof.Machine.execCasPull s
  | .rngSeed => Sys2Proof.Machine.execRngSeed s
  | .rngRead => Sys2Proof.Machine.execRngRead s
  | .rngUniform => Sys2Proof.Machine.execRngUniform s
  | .rngPerm => Sys2Proof.Machine.execRngPerm s

end Sys2Proof.Machine
end

