-- ==== Sys2Proof/Machine/Issue.lean ====
section
/-! DEFINITION. How an agent moves: the host issues the next of its commands, a worker takes a step,
or the block is reset (spec/00_scope.md R16, spec/30_encoding.md R90, spec/70_reset_and_hazards.md
R330). -/

namespace Sys2Proof.Machine

/-- The operands of a command are sampled at issue (spec/30_encoding.md R90). -/
def sampleCommand (c : Command) (rest : List Command) (s : State) : State :=
  { s with port := c, commands := rest }

/-- The command on the port runs: its word is decoded, and a word that is no command is
`IllegalCommand` (spec/30_encoding.md R90, R98). -/
def runPort (s : State) : Host.Outcome State Fault Refusal :=
  match decode s.port.cmd with
  | .ok i => exec i s
  | .error _ => illegalWord s

/-- A reset is still to come. -/
def resetAhead (s : State) : Bool := s.agenda.contains .reset

/-- The command on the port is accepted and runs. One that is stuck never completes: it stays in progress
until the reset that is still to come, and where none is to come the machine has no further step
(spec/60_exceptions.md R310, spec/70_reset_and_hazards.md R330; log 11). -/
def acceptCommand (s : State) : Host.Outcome State Fault Refusal :=
  match runPort { s with inProgress := false } with
  | .fault f => if resetAhead s then .next { s with inProgress := true } else .fault f
  | .next t => .next t
  | .refused r => .refused r

/-- The block as it would be with no worker to move. -/
def haltWorkers (s : State) : State := { s with alive := s.alive.map fun _ => false }

/-- The command on the port has to wait: it does not complete as long as no worker moves
(spec/00_scope.md R14: `await`; spec/10_state.md R22). -/
def mustWait (s : State) : Bool :=
  match runPort (haltWorkers { s with inProgress := false }) with
  | .fault _ => true
  | .next _ => false
  | .refused _ => false

/-- The command on the port is accepted. If it has to wait it is left in progress, with nothing of it
done, for the agents that move next: the workers, the host, or the reset that abandons it
(spec/10_state.md R22, spec/70_reset_and_hazards.md R330; log 11). -/
def startCommand (s : State) : Host.Outcome State Fault Refusal :=
  if mustWait s then .next { s with inProgress := true } else acceptCommand s

/-- What the host does with its command. While one is in progress no later one is accepted
(spec/60_exceptions.md R310) and it is taken up again; else the next of the host's commands is sampled.
With no command left the host issues none (log 2). -/
def withCommand (act : State → Host.Outcome State Fault Refusal) (s : State) :
    Host.Outcome State Fault Refusal :=
  if s.inProgress then act s
  else
    match s.commands with
    | [] => .next s
    | c :: rest => act (sampleCommand c rest s)

/-- The host moves, and its command runs to its end. -/
def hostTurn (s : State) : Host.Outcome State Fault Refusal := withCommand acceptCommand s

/-- The host moves, and its command is left waiting if it has to wait. -/
def issueTurn (s : State) : Host.Outcome State Fault Refusal := withCommand startCommand s

/-- Worker `j` moves: one step if it has an enabled one, else nothing (spec/44_cascade.md R232). An
access outside a buffer, which no state of the machine's invariant meets, is the exception of
spec/60_exceptions.md R303 (log 17). -/
def workerTurn (j : Nat) (s : State) : Host.Outcome State Fault Refusal :=
  match workerStep j s with
  | .ok _ s' => .next s'
  | .raise x s' => .next (raiseException x s')
  | .refuse r => .refused r
  | .stuck f => .fault f

/-- Nothing is scheduled: the host moves if it has something to issue or to wait for, and else the enabled
worker of least position. So an enabled worker step is always taken in the end
(spec/44_cascade.md R232; log 3). -/
def freeTurn (s : State) : Host.Outcome State Fault Refusal :=
  if s.inProgress || !s.commands.isEmpty then hostTurn s
  else
    match firstEnabled s with
    | some j => workerTurn j s
    | none => .next s

/-- One agent moves (spec/00_scope.md R16; log 3). -/
def agentTurn (a : Agent) (s : State) : Host.Outcome State Fault Refusal :=
  match a with
  | .host => hostTurn s
  | .issue => issueTurn s
  | .worker j => workerTurn j s
  | .reset => .next (resetEvent s)

/-- A command word of a table row, with the operands that stand on the port, as the host's next
command. -/
def fetchCommand (s : State) (nbits w : Nat) : Command :=
  { s.port with cmd := BitVec.ofNat 16 (w % 2 ^ nbits) }

end Sys2Proof.Machine
end

