-- ==== Sys2Proof/Machine/Step.lean ====
section
/-! DEFINITION. One step of the machine: the next agent of the agenda moves, and where the agenda is
empty the host, or a worker once the host has nothing to issue (spec/00_scope.md R16, log 3). -/

namespace Sys2Proof.Machine

/-- One step: an agent takes its turn (spec/00_scope.md R16, spec/44_cascade.md R232, log 3). -/
def step (s : State) : Host.Outcome State Fault Refusal :=
  match s.agenda with
  | [] => freeTurn s
  | a :: rest => agentTurn a { s with agenda := rest }

/-- `s` with the given word as the host's next command, the operands being those on the port, and the
host next to move, no command being in progress. The block fetches no instruction (spec/10_state.md
R22): this stands for the host issuing the command (log 2). -/
def State.withFetchWord (s : State) (nbits w : Nat) : State :=
  { s with
    commands := fetchCommand s nbits w :: s.commands
    agenda := .host :: s.agenda
    inProgress := false }

end Sys2Proof.Machine
end

