-- ==== Sys2Proof/Safety.lean ====
section
/-! DEFINITION. The terms claims are made in: what a sound state of the block is, when a command is
legal, when a cascade is aligned, the cascade as a function of many blocks, the byte stream of the PRNG,
and a run of pushes, pulls and worker steps. Each is read from the spec and none is used by the
machine. -/

namespace Sys2Proof.Machine

/-- The rotor invariants (spec/10_state.md R25, R26): ranges, buffer length, and the extension being a
copy of the first 256 bits. -/
structure RotorOk (r : Rotor) : Prop where
  size_ge : 256 ≤ r.size
  start_lt : r.start < r.size
  step_pos : 0 < r.step
  step_lt : r.step < r.size
  current_lt : r.current < r.size
  buffer_length : r.buffer.length = bytesFor (r.size + 256)
  extended : ∀ j < 256, bitGet r.buffer (r.size + j) = bitGet r.buffer j

/-- The permutator invariants (spec/10_state.md R28, R29 (a) to (f)). -/
structure PermutatorOk (p : Permutator) : Prop where
  lengths_pos : ∀ c ∈ p.cycles, 1 ≤ c.length
  lengths_sum : (p.cycles.map Cycle.length).sum = 256
  starts : p.cycles.map (fun c => { c with current := 0 }) = cyclesFrom 0 (p.cycles.map Cycle.length)
  currents : ∀ c ∈ p.cycles, c.current = p.currentState % c.length
  maximal : p.maximalStates = (p.cycles.map Cycle.length).prod
  state_lt : p.currentState < p.maximalStates
  source : isBijection p.tableSource = true
  table : (permutatorRebuild p).bitTable = p.bitTable
  table_length : p.bitTable.length = 256

/-- The invariants of what a slot holds: those of the stage (spec/10_state.md R26, R29), and the bounds
the parameters set on its size (spec/00_scope.md R9; R28, spec/41_rotor.md R141). -/
def StageOk (p : Params) : Stage → Prop
  | .rotor r => RotorOk r ∧ r.size ≤ p.maxRotorBits
  | .permutator q => PermutatorOk q ∧ q.cycles.length ≤ p.ncycMax

/-- While Running (spec/10_state.md R24, R31, R33): a mode is set, the queues and the liveness bits
exist, every worker is alive, the queued blocks are data blocks and `inflight` counts them. -/
structure PipelineOk (s : State) : Prop where
  mode_set : s.mode ≠ .unset
  queues_length : s.queues.length = numSlots s + 2
  alive_all : s.alive = List.replicate (numSlots s + 1) true
  blocks : ∀ b, some b ∈ s.queues → 1 ≤ b.length ∧ b.length ≤ 32
  inflight_counts : s.inflight = s.queues.countP Option.isSome

/-- The invariant of the machine: the parameters meet spec/00_scope.md R9, and the registers, the slots
and the pipeline are as the rules cited above say. What the slots hold is
unspecified once `FATAL` is set (spec/45_keysetup_prng.md R270), and then no command runs (R305). -/
structure Inv (s : State) : Prop where
  params_wf : s.params.wf = true
  slots_length : s.slots.length = numSlots s
  kinds : s.fatal = false → ∀ (n : Nat) (st : Stage), s.slots[n]? = some (some st) →
    s.params.layout[n]? = some (stageKind st)
  stages : s.fatal = false → ∀ st, some st ∈ s.slots → StageOk s.params st
  loaded : s.fatal = false → s.fsm ≠ .unkeyed → none ∉ s.slots
  fatal_idle : s.fatal = true → s.fsm ≠ .running
  running : s.fsm = .running → PipelineOk s
  idle : s.fsm ≠ .running → s.queues = [] ∧ s.alive = [] ∧ s.inflight = 0
  rpos_le : s.rpos ≤ 32
  rbuf_full : ∀ b, s.rbuf = some b → b.length = 32
  seeded_rbuf : s.seeded = true → s.rbuf ≠ none
  key_bytes : ∀ key, s.trackingKey = some key → key.length = s.params.tkBytes
  prime_lt : s.primeRot < s.params.primeTable.length
  tuple_lt : s.tupleRot < s.params.cycleTuples.length
  status_lt : s.status.toNat < 5

/-- The rotor a stage is, if it is one. -/
def rotorOf : Stage → Option Rotor
  | .rotor r => some r
  | .permutator _ => none

/-- The permutator a stage is, if it is one. -/
def permutatorOf : Stage → Option Permutator
  | .rotor _ => none
  | .permutator p => some p

/-- A command that `FATAL` and the encoding let through (spec/60_exceptions.md R308 (1), (2)). -/
def Admitted (i : Instr) (s : State) : Prop := s.fatal = false ∧ encodingLegal i s = true

/-- The command `i`, issued in `u`, has the outcome `o`: it runs, and where it is stuck and a reset is still
to come it stays in progress (spec/60_exceptions.md R310, spec/70_reset_and_hazards.md R330). -/
def Issued (i : Instr) (u : State) (o : Host.Outcome State Fault Refusal) : Prop :=
  ((∀ f, exec i u ≠ .fault f) ∨ .reset ∉ u.agenda → o = exec i u) ∧
    ((∃ f, exec i u = .fault f) → .reset ∈ u.agenda → o = .next { u with inProgress := true })

/-- The PRNG can be drawn from (spec/45_keysetup_prng.md R260). -/
def CanDraw (s : State) : Prop :=
  s.fsm = .running ∧ s.mode = .encrypt ∧ s.inflight = 0 ∧ s.seeded = true

/-- The commands whose rule waits for the workers (spec/44_cascade.md R229 to R231,
spec/45_keysetup_prng.md R262). -/
def MayWait (i : Instr) : Prop :=
  i = .casPush ∨ i = .casPull ∨ i = .casClose ∨ i = .rngRead ∨ i = .rngUniform ∨ i = .rngPerm ∨
    (∃ slot, i = .rotUpdate slot) ∨ ∃ slot, i = .prmUpdate slot

/-- A push with its queue full, a pull with no block at the output endpoint, a close, whose sentinel has
to pass the workers, and a read of more bytes than the buffer still holds, whose refill has to pass them too,
block (spec/10_state.md R22, spec/44_cascade.md R229 to R231, spec/45_keysetup_prng.md R262). -/
def Blocks (i : Instr) (s : State) : Prop :=
  (i = .casPush ∧ ∃ b, s.queues[0]? = some (some b)) ∨
    (i = .casPull ∧ s.queues[s.params.layout.length + 1]? = some none) ∨
    (i = .casClose ∧ s.inflight = 0) ∨
    (i = .rngRead ∧ CanDraw s ∧ 32 < s.rpos + operandN s)

/-- A stage one position on, as either of its transforms leaves it (spec/43_counter_and_stage.md
R200). -/
def stageAdvance : Stage → Stage
  | .rotor r => .rotor (rotorAdvance r)
  | .permutator p => .permutator (permutatorAdvance p)

/-- The cascade is aligned at `i`: every stage is in the state `StageSeek` gives it and the Counter holds
`i` (spec/43_counter_and_stage.md R207). -/
def Aligned (i : Nat) (s : State) : Prop :=
  s.counter = i ∧ ∀ st, some st ∈ s.slots → st = stageSeek i st

/-- The cascade as a function, in the direction the mode names: `Enc` or `Dec`
(spec/44_cascade.md R222, R223). -/
def cipher (b : Block) (s : State) : Res Block :=
  if s.mode = .encrypt then encBlock b s else decBlock b s

/-- The next bytes of the stream `Z` and the state after them: buffer bytes in order, each once, and when
the buffer is exhausted the buffer through `Enc` (spec/45_keysetup_prng.md R262 to R264). -/
inductive Drawn : State → List Byte → State → Prop
  | none (s : State) : Drawn s [] s
  | take {s t : State} {buf : Block} {b : Byte} {bs : List Byte} :
      s.rbuf = some buf → s.rpos ≠ 32 → buf[s.rpos]? = some b →
      Drawn { s with rpos := s.rpos + 1 } bs t → Drawn s (b :: bs) t
  | refill {s u t : State} {buf out : Block} {b : Byte} {bs : List Byte} :
      s.rbuf = some buf → s.rpos = 32 → encBlock buf s = .ok out u →
      Drawn { u with rbuf := some out, rpos := 0 } (b :: bs) t → Drawn s (b :: bs) t

/-- The cascade as a function of a list of blocks, in order (spec/44_cascade.md R233). -/
def cipherAll : List Block → State → Res (List Block)
  | [], s => .ok [] s
  | b :: bs, s => (cipher b s).bind fun o s => (cipherAll bs s).bind fun os s => .ok (o :: os) s

/-- Worker steps, each enabled when it is taken, any number of them (spec/44_cascade.md R232). -/
inductive Workers : State → State → Prop
  | refl (s : State) : Workers s s
  | step {s s1 t : State} {j : Nat} : workerEnabled s j = true → workerStep j s = .ok () s1 →
      Workers s1 t → Workers s t

/-- `bit_table` is what `PRM.REBUILD` computes, entry by entry (spec/42_permutator.md R172). -/
def Rebuilt (p : Permutator) : Prop :=
  p.bitTable.length = 256 ∧
    ∀ c ∈ p.cycles, ∀ k < c.length,
      p.bitTable[c.start + k]? = p.tableSource[c.start + (c.current + k) % c.length]?

/-- A block holds the bits of the rotor's ring from `current` on (spec/41_rotor.md R143). -/
def RingWindow (r : Rotor) (w : Block) : Prop :=
  ∀ j < 8 * w.length, bitGet w j = bitGet r.buffer ((r.current + j) % r.size)

/-- What a transform makes of a block and of the rotor it passes: the window added or subtracted, and
`current` one `step` further (spec/41_rotor.md R143 to R145). -/
def RotorStep (d : Direction) (r : Rotor) (b o : Block) (r' : Rotor) : Prop :=
  (∃ w : Block, w.length = b.length ∧ RingWindow r w ∧ o.length = b.length ∧
    match d with
    | .forward => valBe o = (valBe b + valBe w) % 256 ^ b.length
    | .inverse => (valBe o : Int) = ((valBe b : Int) - valBe w) % (256 ^ b.length : Nat)) ∧
  r' = { r with current := (r.current + r.step) % r.size }

/-- What a transform makes of a block and of the permutator it passes: a full block scattered or gathered
by `bit_table`, a shorter one as it is, and every cycle and the ordinal one further
(spec/42_permutator.md R173 to R176). -/
def PermutatorStep (d : Direction) (p : Permutator) (b o : Block) (p' : Permutator) : Prop :=
  o.length = b.length ∧
  (b.length = 32 → ∀ i v, p.bitTable[i]? = some v →
    match d with
    | .forward => bitGet o v.toNat = bitGet b i
    | .inverse => bitGet o i = bitGet b v.toNat) ∧
  (b.length < 32 → o = b) ∧
  p' = { p with
    currentState := (p.currentState + 1) % p.maximalStates,
    cycles := p.cycles.map fun c => { c with current := (c.current + 1) % c.length },
    bitTable := p'.bitTable } ∧ Rebuilt p'

/-- The cases of spec/30_encoding.md R98, read off the fields of the word (R91) and the `LEN` port. -/
def IllegalEncoding (layout : List Kind) (w : CmdWord) (len : BitVec 6) : Prop :=
  let unit := (unitField w).toNat
  let op := (opField w).toNat
  let arg := (argField w).toNat
  -- `UNIT` reserved, or `OP` not listed for it
  6 ≤ unit ∨ (unit = 0 ∧ 3 ≤ op) ∨ ((unit = 1 ∨ unit = 2 ∨ unit = 3) ∧ 6 ≤ op) ∨
    (unit = 4 ∧ 9 ≤ op) ∨ (unit = 5 ∧ 4 ≤ op) ∨
    -- mask 0xFFFF and `ARG` not 0
    ((unit = 0 ∨ unit = 5 ∨ (unit = 4 ∧ op ≠ 2)) ∧ arg ≠ 0) ∨
    -- a slot of another kind, or none
    (unit = 1 ∧ layout[arg]? ≠ some .rotor) ∨ (unit = 2 ∧ layout[arg]? ≠ some .permutator) ∨
    (unit = 3 ∧ arg ≠ layout.length) ∨
    -- a mode code of more than two bits
    (unit = 4 ∧ op = 2 ∧ 4 ≤ arg) ∨
    -- `LEN` out of range
    (unit = 0 ∧ 32 < len.toNat) ∨
    (((unit = 1 ∨ unit = 2 ∨ unit = 3) ∧ (op = 2 ∨ op = 3) ∨ (unit = 4 ∧ op = 7)) ∧
      (len.toNat = 0 ∨ 32 < len.toNat)) ∨
    (unit = 5 ∧ op = 0 ∧ len.toNat ≠ 32)

/-- The rows of spec/opcode_table.json, each a match and a mask (spec/30_encoding.md R95). -/
def opcodeRows : List (CmdWord × CmdWord) :=
  ([0x0000, 0x0100, 0x0200].map fun m => (m, 0xFFFF)) ++
    ([0x1000, 0x1100, 0x1200, 0x1300, 0x1400, 0x1500].map fun m => (m, 0xFF00)) ++
    ([0x2000, 0x2100, 0x2200, 0x2300, 0x2400, 0x2500].map fun m => (m, 0xFF00)) ++
    ([0x3000, 0x3100, 0x3200, 0x3300, 0x3400, 0x3500].map fun m => (m, 0xFF00)) ++
    ([0x4000, 0x4100].map fun m => (m, 0xFFFF)) ++ [(0x4200, 0xFF00)] ++
    ([0x4300, 0x4400, 0x4500, 0x4600, 0x4700, 0x4800].map fun m => (m, 0xFFFF)) ++
    ([0x5000, 0x5100, 0x5200, 0x5300].map fun m => (m, 0xFFFF))

/-- The table of spec/44_cascade.md R221, with `FATAL = 0`: the command is legal in the present state of
the cascade. -/
def LegalIn (i : Instr) (s : State) : Prop :=
  match i with
  | .cmbAdd | .cmbSub | .cmbXor | .rngSeed => True
  | .rotNew _ | .rotApplyf _ | .rotApplyi _ | .rotSeek _ | .rotIndex _ => s.fsm ≠ .running
  | .prmNew _ | .prmApplyf _ | .prmApplyi _ | .prmSeek _ | .prmIndex _ => s.fsm ≠ .running
  | .ctrNew _ | .ctrUpdate _ | .ctrApplyf _ | .ctrApplyi _ | .ctrSeek _ | .ctrIndex _ =>
    s.fsm ≠ .running
  | .rotUpdate _ | .prmUpdate _ | .rngRead | .rngUniform | .rngPerm => CanDraw s
  | .casInit => s.fsm ≠ .running
  | .casLoad => s.fsm ≠ .running ∧ none ∉ s.slots
  | .casSetmode _ => s.fsm = .keyed ∨ s.fsm = .closed
  | .casBuild => (s.fsm = .keyed ∨ s.fsm = .closed) ∧ s.mode ≠ .unset
  | .casSeek => s.fsm = .keyed ∨ (s.fsm = .running ∧ s.inflight = 0)
  | .casIndex => s.fsm = .keyed ∨ s.fsm = .closed ∨ (s.fsm = .running ∧ s.inflight = 0)
  | .casClose => s.fsm = .running ∧ s.inflight = 0
  | .casPush | .casPull => s.fsm = .running

/-- The slot a command reads holds a value (spec/41_rotor.md R140, spec/42_permutator.md R170). -/
def ReadsValue (i : Instr) (s : State) : Prop :=
  match i with
  | .rotApplyf n | .rotApplyi n | .rotSeek n | .rotIndex n => ∃ st, s.slots[n.toNat]? = some (some st)
  | .prmApplyf n | .prmApplyi n | .prmSeek n | .prmIndex n => ∃ st, s.slots[n.toNat]? = some (some st)
  | .cmbAdd | .cmbSub | .cmbXor => True
  | .rotNew _ | .rotUpdate _ | .prmNew _ | .prmUpdate _ => True
  | .ctrNew _ | .ctrUpdate _ | .ctrApplyf _ | .ctrApplyi _ | .ctrSeek _ | .ctrIndex _ => True
  | .casInit | .casLoad | .casSetmode _ | .casBuild | .casSeek | .casIndex | .casClose => True
  | .casPush | .casPull | .rngSeed | .rngRead | .rngUniform | .rngPerm => True

/-- A move of the host or of a worker while the pipeline runs: a push of a block on the ports, a pull, a
worker's turn (spec/44_cascade.md R230 to R232). -/
inductive Move where
  | push (len : BitVec 6) (dinA : BitVec 256)
  | pull
  | worker (j : Nat)

/-- The outcome of one move. -/
def Move.play (m : Move) (s : State) : Host.Outcome State Fault Refusal :=
  match m with
  | .push len dinA => exec .casPush { s with port := { s.port with len := len, dinA := dinA } }
  | .pull => exec .casPull s
  | .worker j => workerTurn j s

/-- The block a move pushes. -/
def Move.sent : Move → List Block
  | .push len dinA => [portBlock dinA len.toNat]
  | .pull => []
  | .worker _ => []

/-- What a move returns to the host, in the state after it. -/
def Move.output (m : Move) (s : State) : List Returned :=
  match m with
  | .push _ _ => []
  | .pull => [s.returned]
  | .worker _ => []

/-- `LEN` of a push is in range (spec/30_encoding.md R98). -/
def Move.lenOk : Move → Prop
  | .push len _ => 1 ≤ len.toNat ∧ len.toNat ≤ 32
  | .pull => True
  | .worker _ => True

/-- Moves in order, with what the pulls returned; `none` if one of them gives no next state. -/
def plays : List Move → State → Option (List Returned × State)
  | [], s => some ([], s)
  | m :: ms, s =>
    match m.play s with
    | .next t => (plays ms t).map fun x => (m.output t ++ x.1, x.2)
    | .fault _ => none
    | .refused _ => none

/-- The state `n` steps on, `none` if one of them gives no next state. -/
def stepMany : Nat → State → Option State
  | 0, s => some s
  | n + 1, s =>
    match step s with
    | .next t => stepMany n t
    | .fault _ => none
    | .refused _ => none

end Sys2Proof.Machine
end

