-- ==== Sys2Proof/Certificates/Slice0/Obligations.lean ====
section
/-! DEFINITION. The statements for the provers. -/

open Sys2Proof Sys2Proof.Machine

/-! ### Encoding -/

/-- Decoding the word of any command gives the command back, with every `ARG` (spec/30_encoding.md R91,
R95). -/
def Obligations.decode_of_encode : Prop :=
  ∀ i : Instr, decode (encode i) = .ok i

/-- A word that decodes is the word of the command it decodes to: no bit of it is dropped
(spec/30_encoding.md R91, R95). -/
def Obligations.encode_of_decode : Prop :=
  ∀ (w : CmdWord) (i : Instr), decode w = .ok i → encode i = w

/-- A few words of spec/95_test_vectors.md 2.8 and spec/30_encoding.md R95 decode to the commands those
list, and three that are no commands do not. -/
def Obligations.sample_words_decode : Prop :=
  decode 0x0000 = .ok .cmbAdd ∧ decode 0x1402 = .ok (.rotSeek 2) ∧
    decode 0x2301 = .ok (.prmApplyi 1) ∧ decode 0x3402 = .ok (.ctrSeek 2) ∧
    decode 0x4201 = .ok (.casSetmode 1) ∧ decode 0x4700 = .ok .casPush ∧
    decode 0x5000 = .ok .rngSeed ∧ decode 0x0001 = .error .argNotZero ∧
    decode 0x0300 = .error .unlistedOp ∧ decode 0x6000 = .error .reservedUnit

/-- A word decodes exactly where it matches a row of the opcode table, and it matches at most one
(spec/30_encoding.md R95). -/
def Obligations.decodes_iff_row_matches : Prop :=
  ∀ w : CmdWord,
    ((∃ i, decode w = .ok i) ↔ ∃ row ∈ opcodeRows, w &&& row.2 = row.1) ∧
      (opcodeRows.filter fun row => w &&& row.2 = row.1).length ≤ 1

/-- A step of the host takes the next of its commands, puts it on the ports and runs the command its
word decodes to; `withFetchWord` gives the step such a command (spec/30_encoding.md R90). A command that
is stuck while a reset is still to come stays in progress; a turn that only issues runs a command that has
no wait in its rule all the same; and a command in progress runs when the host moves again, in the state of
then (log 11). -/
def Obligations.step_runs_decoded_command : Prop :=
  ∀ (s : State) (c : Command) (rest : List Command) (i : Instr),
    decode c.cmd = .ok i →
      (s.agenda = [] → s.inProgress = false → s.commands = c :: rest →
        step s = exec i { s with port := c, commands := rest }) ∧
      (∀ more, s.agenda = .host :: more → s.inProgress = false → s.commands = c :: rest →
        Issued i { s with agenda := more, port := c, commands := rest } (step s)) ∧
      (∀ more, s.agenda = .issue :: more → s.inProgress = false → s.commands = c :: rest →
        ¬ MayWait i → step s = exec i { s with agenda := more, port := c, commands := rest }) ∧
      (∀ more, s.agenda = .host :: more → s.inProgress = true → s.port = c →
        Issued i { s with agenda := more, inProgress := false } (step s)) ∧
      (∀ nbits, c.cmd.toNat < 2 ^ nbits →
        Issued i { s with port := { s.port with cmd := c.cmd }, inProgress := false }
          (step (s.withFetchWord nbits c.cmd.toNat)))

/-- A word, an `ARG` or a `LEN` that is no legal encoding completes at once with `IllegalCommand` and
changes no other state, whatever the state of the cascade; `returned := .nothing` is the model's record
of the output ports (log 4). -/
def Obligations.illegal_encoding_completes : Prop :=
  ∀ (s : State) (c : Command) (rest : List Command),
    s.agenda = [] → s.inProgress = false → s.commands = c :: rest → s.fatal = false →
    IllegalEncoding s.params.layout c.cmd c.len →
      step s = .next { s with port := c, commands := rest, status := 4, returned := .nothing }

/-- Every word is one of the commands with a legal `ARG` and `LEN`, or illegal, and never both
(spec/30_encoding.md R98). -/
def Obligations.illegal_or_command : Prop :=
  ∀ (s : State) (c : Command), s.port = c →
    (¬ IllegalEncoding s.params.layout c.cmd c.len ↔
      ∃ i, decode c.cmd = .ok i ∧ encodingLegal i s = true)

/-! ### Reset and outcomes -/

/-- What reset leaves (spec/10_state.md R34). -/
def Obligations.reset_values : Prop :=
  ∀ p : Params,
    let s := State.resetWith p
    s.fsm = .unkeyed ∧ s.mode = .unset ∧ s.primeRot = 0 ∧ s.tupleRot = 0 ∧ s.inflight = 0 ∧
      s.status = 0 ∧ s.fatal = false ∧ s.counter = 0 ∧ s.slots = List.replicate p.layout.length none ∧
      s.maximalStates = none ∧ s.trackingKey = none ∧ s.queues = [] ∧ s.alive = [] ∧
      s.seeded = false ∧ s.rbuf = none ∧ s.rpos = 32

/-- Reset may come in any state: it puts every register at its reset value, `FATAL` too, and leaves the
parameters. It ends a stuck command and a blocked one: either is abandoned without completing, and none of
its effects is there before the reset either. That the ports, the host's later commands and the model's
bookkeeping stay is the model's choice (log 21), and so is how a command is left in progress (log 11). -/
def Obligations.reset_event : Prop :=
  ∀ (s : State) (rest : List Agent),
    (s.agenda = .reset :: rest →
      step s = .next { State.resetWith s.params with
        port := s.port, commands := s.commands, agenda := rest, freeCount := s.freeCount }) ∧
    ∀ (c : Command) (later : List Command) (i : Instr), decode c.cmd = .ok i →
      s.inProgress = false → s.commands = c :: later →
      let u := { s with agenda := .reset :: rest, port := c, commands := later }
      (s.agenda = .host :: .reset :: rest ∧ (∃ f, exec i u = .fault f)) ∨
        (s.agenda = .issue :: .reset :: rest ∧ Inv s ∧ Admitted i u ∧ s.fsm = .running ∧ Blocks i u) →
      step s = .next { u with inProgress := true } ∧
        step { u with inProgress := true } = .next { State.resetWith s.params with
          port := c, commands := later, agenda := rest, freeCount := s.freeCount }

/-- While `FATAL = 1` every command is refused, a word that is no command too, and no step but a reset
clears it (spec/60_exceptions.md R305). -/
def Obligations.fatal_refuses_until_reset : Prop :=
  ∀ s : State, s.fatal = true →
    (∀ i, exec i s = .refused .fatalSet) ∧ runPort s = .refused .fatalSet ∧
      ∀ t, step s = .next t → t.fatal = false → ∃ rest, s.agenda = .reset :: rest

/-- A command that completes leaves one of the five codes, and `FATAL` set exactly with the two fatal
ones (spec/60_exceptions.md R300). -/
def Obligations.outcome_codes : Prop :=
  ∀ (i : Instr) (s t : State), exec i s = .next t →
    t.status ∈ [0, 1, 2, 3, 4] ∧ (t.fatal = true ↔ t.status = 2 ∨ t.status = 3)

/-- From a state that keeps the invariants no command reaches `BitIndexRange` and no worker raises an
exception (spec/60_exceptions.md R303, spec/44_cascade.md R232). -/
def Obligations.bit_index_range_unreachable : Prop :=
  ∀ s : State, Inv s →
    (∀ (i : Instr) (t : State), exec i s = .next t → t.status ≠ 3) ∧
      ∀ (j : Nat) (t : State), workerTurn j s = .next t → t.status = s.status ∧ t.fatal = s.fatal

/-! ### Bits and ports -/

/-- The bit utilities: `BitGet` reads bit `i mod 8` of byte `i div 8`; `BitSet` and `BitClr` change that
bit and no other; outside the buffer each is `BitIndexRange`, which is fatal
(spec/40_bits_and_combiner.md R120 to R122). -/
def Obligations.bit_utilities : Prop :=
  ∀ (buf : List Byte) (i : Nat),
    (∀ b, buf[i / 8]? = some b →
      bitGet buf i = some (b.getLsbD (i % 8)) ∧
      (∃ out, bitSet buf i = some out ∧ out.length = buf.length ∧
        ∀ k, bitGet out k = if k = i then some true else bitGet buf k) ∧
      ∃ out, bitClr buf i = some out ∧ out.length = buf.length ∧
        ∀ k, bitGet out k = if k = i then some false else bitGet buf k) ∧
    (buf.length ≤ i / 8 →
      bitGet buf i = none ∧ bitSet buf i = none ∧ bitClr buf i = none ∧
      ∀ (s : State) (k : Bool → State → Res Returned),
        complete ((orBitIndexRange (bitGet buf i) s).bind k) =
          .next { s with status := 3, fatal := true, returned := .nothing })

/-- A block at a port: byte `k` is port bits `[8k+7 : 8k]`, the bits above the block are ignored on input
and zero on output (spec/20_memory.md R64). -/
def Obligations.port_layout : Prop :=
  (∀ (d : BitVec 256) (n : Nat), n ≤ 32 →
    (portBlock d n).length = n ∧ ∀ i < 8 * n, bitGet (portBlock d n) i = some (d.getLsbD i)) ∧
  ∀ b : Block, b.length ≤ 32 →
    (∀ i < 256, (blockPort b).getLsbD i = (bitGet b i == some true)) ∧
      portBlock (blockPort b) b.length = b

/-! ### Block Combiner -/

/-- `CMB.ADD` returns the big-endian sum modulo `256^n` and writes no register but `STATUS`
(spec/40_bits_and_combiner.md R123). -/
def Obligations.combiner_add : Prop :=
  ∀ s : State, s.fatal = false → s.port.len.toNat ≤ 32 →
    ∃ r : Block, r.length = s.port.len.toNat ∧
      valBe r = (valBe (operandA s) + valBe (operandB s)) % 256 ^ s.port.len.toNat ∧
      exec .cmbAdd s = .next { s with status := 0, returned := returnBlock r }

/-- `CMB.SUB` returns the big-endian difference modulo `256^n`, the non-negative remainder, and writes no
register but `STATUS` (spec/40_bits_and_combiner.md R124). -/
def Obligations.combiner_sub : Prop :=
  ∀ s : State, s.fatal = false → s.port.len.toNat ≤ 32 →
    ∃ r : Block, r.length = s.port.len.toNat ∧
      (valBe r : Int) =
        ((valBe (operandA s) : Int) - valBe (operandB s)) % (256 ^ s.port.len.toNat : Nat) ∧
      exec .cmbSub s = .next { s with status := 0, returned := returnBlock r }

/-- `CMB.XOR` returns the bytewise exclusive or and writes no register but `STATUS`
(spec/40_bits_and_combiner.md R125). -/
def Obligations.combiner_xor : Prop :=
  ∀ s : State, s.fatal = false → s.port.len.toNat ≤ 32 →
    ∃ r : Block, r.length = s.port.len.toNat ∧
      (∀ k < s.port.len.toNat, ∀ a b, (operandA s)[k]? = some a → (operandB s)[k]? = some b →
        r[k]? = some (a ^^^ b)) ∧
      exec .cmbXor s = .next { s with status := 0, returned := returnBlock r }

/-- The two laws of the combiner (spec/40_bits_and_combiner.md R126). -/
def Obligations.combiner_laws : Prop :=
  ∀ a b : Block, a.length = b.length →
    subBlock (addBlock a b) b = a ∧ addBlock (subBlock a b) b = a

/-! ### Rotor -/

/-- `ROT.NEW`: with parameters in range the slot holds the rotor they describe, at `current = start`, its
active bits those of the data and its extension a copy of the first 256; with a parameter out of range
`ConfigError`, fatal, and the slot unchanged (spec/41_rotor.md R141, R142). -/
def Obligations.rotor_new : Prop :=
  ∀ (slot : BitVec 8) (s : State), Admitted (.rotNew slot) s → s.fsm ≠ .running →
    let q := s.port.param
    (256 ≤ q.size ∧ q.size ≤ s.params.maxRotorBits ∧ q.start < q.size ∧ q.step ≠ 0 ∧
        q.step < q.size ∧ (q.size + 7) / 8 ≤ q.data.length →
      ∃ buf : List Byte, buf.length = (q.size + 256 + 7) / 8 ∧
        (∀ k < q.size, bitGet buf k = bitGet q.data k) ∧
        (∀ j < 256, bitGet buf (q.size + j) = bitGet buf j) ∧
        exec (.rotNew slot) s = .next { s with
          slots := s.slots.set slot.toNat (some (.rotor ⟨q.size, q.start, q.step, q.start, buf⟩)),
          status := 0, returned := .nothing }) ∧
    (¬ (256 ≤ q.size ∧ q.size ≤ s.params.maxRotorBits ∧ q.start < q.size ∧ q.step ≠ 0 ∧
        q.step < q.size ∧ (q.size + 7) / 8 ≤ q.data.length) →
      exec (.rotNew slot) s = .next { s with status := 2, fatal := true, returned := .nothing })

/-- `ROT.APPLYF` adds the window, the ring bits from `current` on, to the block as a big-endian integer,
and advances `current` by `step` whatever the length; nothing else changes (spec/41_rotor.md R143,
R144). -/
def Obligations.rotor_apply_forward : Prop :=
  ∀ (slot : BitVec 8) (s : State) (r : Rotor), Admitted (.rotApplyf slot) s → s.fsm ≠ .running →
    s.slots[slot.toNat]? = some (some (.rotor r)) → RotorOk r →
    ∃ w out : Block, w.length = s.port.len.toNat ∧ RingWindow r w ∧
      out.length = s.port.len.toNat ∧
      valBe out = (valBe (operandA s) + valBe w) % 256 ^ s.port.len.toNat ∧
      exec (.rotApplyf slot) s = .next { s with
        slots := s.slots.set slot.toNat
          (some (.rotor { r with current := (r.current + r.step) % r.size })),
        status := 0, returned := returnBlock out }

/-- `ROT.APPLYI` subtracts the window from the block and advances `current` as `ROT.APPLYF` does; nothing
else changes (spec/41_rotor.md R143, R145). -/
def Obligations.rotor_apply_inverse : Prop :=
  ∀ (slot : BitVec 8) (s : State) (r : Rotor), Admitted (.rotApplyi slot) s → s.fsm ≠ .running →
    s.slots[slot.toNat]? = some (some (.rotor r)) → RotorOk r →
    ∃ w out : Block, w.length = s.port.len.toNat ∧ RingWindow r w ∧
      out.length = s.port.len.toNat ∧
      (valBe out : Int) = ((valBe (operandA s) : Int) - valBe w) % (256 ^ s.port.len.toNat : Nat) ∧
      exec (.rotApplyi slot) s = .next { s with
        slots := s.slots.set slot.toNat
          (some (.rotor { r with current := (r.current + r.step) % r.size })),
        status := 0, returned := returnBlock out }

/-- `ROT.SEEK` writes `current` and nothing else but `STATUS`; the index is any natural number
(spec/41_rotor.md R146). -/
def Obligations.rotor_seek : Prop :=
  ∀ (slot : BitVec 8) (s : State) (r : Rotor), Admitted (.rotSeek slot) s → s.fsm ≠ .running →
    s.slots[slot.toNat]? = some (some (.rotor r)) →
    exec (.rotSeek slot) s = .next { s with
      slots := s.slots.set slot.toNat
        (some (.rotor { r with current := (s.port.idx * r.step + r.start) % r.size })),
      status := 0, returned := .nothing }

/-- `ROT.INDEX` and `PRM.INDEX` report "not tracked" and write nothing; `IDX_OUT` is some number the spec
leaves open, and the counter of free values moves on (log 5; spec/41_rotor.md R147,
spec/42_permutator.md R178). -/
def Obligations.stage_index_not_tracked : Prop :=
  ∀ (slot : BitVec 8) (s : State), s.fsm ≠ .running →
    (∀ r, Admitted (.rotIndex slot) s → s.slots[slot.toNat]? = some (some (.rotor r)) →
      ∃ v, exec (.rotIndex slot) s = .next { s with
        status := 0, returned := .index false v, freeCount := s.freeCount + 1 }) ∧
    ∀ p, Admitted (.prmIndex slot) s → s.slots[slot.toNat]? = some (some (.permutator p)) →
      ∃ v, exec (.prmIndex slot) s = .next { s with
        status := 0, returned := .index false v, freeCount := s.freeCount + 1 }

/-- Seek equals stepping: from index 0, as many windows of any lengths as the index says leave the rotor
where the seek does (spec/41_rotor.md R148). -/
def Obligations.rotor_seek_is_stepping : Prop :=
  ∀ (r : Rotor) (d : Direction) (blocks : List Block), RotorOk r →
    (∀ b ∈ blocks, b.length ≤ 32) →
    blocks.foldlM (fun r b => (rotorApply d r b).map Prod.snd) (rotorSeek 0 r) =
      some (rotorSeek blocks.length r)

/-- The inverse transform from the same position undoes the forward one, for a rotor on any block and
for a permutator on full and partial blocks (spec/41_rotor.md R149, spec/42_permutator.md R181). -/
def Obligations.stage_round_trip : Prop :=
  ∀ b : Block, b.length ≤ 32 →
    (∀ r : Rotor, RotorOk r → ∃ o r', rotorApply .forward r b = some (o, r') ∧
      rotorApply .inverse r o = some (b, r')) ∧
    ∀ p : Permutator, PermutatorOk p → ∃ o p', permutatorApply .forward p b = some (o, p') ∧
      permutatorApply .inverse p o = some (b, p')

/-- The window at any bit offset is the shift-merge of the bytes around it: no access needs alignment
(spec/20_memory.md R65). -/
def Obligations.window_shift_merge : Prop :=
  ∀ (r : Rotor) (n : Nat) (w : Block), RotorOk r → n ≤ 32 → rotorWindow r n = some w →
    ∀ k < n, ∀ lo hi : Byte,
      (r.current % 8 = 0 → r.buffer[r.current / 8 + k]? = some lo → w[k]? = some lo) ∧
      (r.current % 8 ≠ 0 → r.buffer[r.current / 8 + k]? = some lo →
        r.buffer[r.current / 8 + k + 1]? = some hi →
        w[k]? = some ((lo >>> (r.current % 8)) ||| (hi <<< (8 - r.current % 8))))

/-! ### Permutator -/

/-- `PRM.NEW`: with parameters in range the slot holds the permutator they describe, every cycle and the
ordinal at 0, and `bit_table` the source; with a parameter out of range `ConfigError`, fatal, and the
slot unchanged. Coprimality is not asked for (spec/42_permutator.md R171). -/
def Obligations.permutator_new : Prop :=
  ∀ (slot : BitVec 8) (s : State), Admitted (.prmNew slot) s → s.fsm ≠ .running →
    let ls := s.port.param.cycleLengths
    let ts := s.port.param.tableSource
    let ok := ls ≠ [] ∧ ls.length ≤ s.params.ncycMax ∧ 0 ∉ ls ∧ ls.sum = 256 ∧ ts.length = 256 ∧
      ∀ v : Byte, v ∈ ts
    (ok → ∃ p : Permutator, p.currentState = 0 ∧ p.maximalStates = ls.prod ∧ p.tableSource = ts ∧
      p.bitTable = ts ∧ p.cycles.length = ls.length ∧
      (∀ (k : Nat) (c : Cycle), p.cycles[k]? = some c →
        c.start = (ls.take k).sum ∧ ls[k]? = some c.length ∧ c.current = 0) ∧
      exec (.prmNew slot) s = .next { s with
        slots := s.slots.set slot.toNat (some (.permutator p)), status := 0, returned := .nothing }) ∧
    (¬ ok → exec (.prmNew slot) s = .next { s with status := 2, fatal := true, returned := .nothing })

/-- `PRM.APPLYF` on a full block sends bit `i` to bit `bit_table[i]`, returns a shorter block as it is,
and in both cases advances every cycle and the ordinal by one and rebuilds the table; nothing else
changes (spec/42_permutator.md R173 to R175). -/
def Obligations.permutator_apply_forward : Prop :=
  ∀ (slot : BitVec 8) (s : State) (p : Permutator), Admitted (.prmApplyf slot) s → s.fsm ≠ .running →
    s.slots[slot.toNat]? = some (some (.permutator p)) → PermutatorOk p →
    ∃ (out : Block) (p' : Permutator), out.length = s.port.len.toNat ∧
      (s.port.len.toNat = 32 → ∀ i v, p.bitTable[i]? = some v →
        bitGet out v.toNat = bitGet (operandA s) i) ∧
      (s.port.len.toNat < 32 → out = operandA s) ∧
      p' = { p with
        currentState := (p.currentState + 1) % p.maximalStates,
        cycles := p.cycles.map fun c => { c with current := (c.current + 1) % c.length },
        bitTable := p'.bitTable } ∧ Rebuilt p' ∧
      exec (.prmApplyf slot) s = .next { s with
        slots := s.slots.set slot.toNat (some (.permutator p')),
        status := 0, returned := returnBlock out }

/-- `PRM.APPLYI` on a full block takes bit `i` from bit `bit_table[i]`, returns a shorter block as it is,
and advances exactly as `PRM.APPLYF` does; nothing else changes (spec/42_permutator.md R173, R174,
R176). -/
def Obligations.permutator_apply_inverse : Prop :=
  ∀ (slot : BitVec 8) (s : State) (p : Permutator), Admitted (.prmApplyi slot) s → s.fsm ≠ .running →
    s.slots[slot.toNat]? = some (some (.permutator p)) → PermutatorOk p →
    ∃ (out : Block) (p' : Permutator), out.length = s.port.len.toNat ∧
      (s.port.len.toNat = 32 → ∀ i v, p.bitTable[i]? = some v →
        bitGet out i = bitGet (operandA s) v.toNat) ∧
      (s.port.len.toNat < 32 → out = operandA s) ∧
      p' = { p with
        currentState := (p.currentState + 1) % p.maximalStates,
        cycles := p.cycles.map fun c => { c with current := (c.current + 1) % c.length },
        bitTable := p'.bitTable } ∧ Rebuilt p' ∧
      exec (.prmApplyi slot) s = .next { s with
        slots := s.slots.set slot.toNat (some (.permutator p')),
        status := 0, returned := returnBlock out }

/-- `PRM.SEEK` sets the ordinal, every cycle's offset and the table, and nothing else but `STATUS`; the
index is any natural number (spec/42_permutator.md R177). -/
def Obligations.permutator_seek : Prop :=
  ∀ (slot : BitVec 8) (s : State) (p : Permutator), Admitted (.prmSeek slot) s → s.fsm ≠ .running →
    s.slots[slot.toNat]? = some (some (.permutator p)) → PermutatorOk p →
    ∃ p' : Permutator,
      p' = { p with
        currentState := s.port.idx % p.maximalStates,
        cycles := p.cycles.map fun c => { c with current := s.port.idx % p.maximalStates % c.length },
        bitTable := p'.bitTable } ∧ Rebuilt p' ∧
      exec (.prmSeek slot) s = .next { s with
        slots := s.slots.set slot.toNat (some (.permutator p')), status := 0, returned := .nothing }

/-- `PRM.REBUILD` writes `table_source[c.start + ((c.current + k) mod c.length)]` to entry `c.start + k`
for every cycle and every place in it, whatever the offsets, and changes no other field
(spec/42_permutator.md R172). -/
def Obligations.permutator_rebuild : Prop :=
  ∀ (p : Permutator) (offset : Cycle → Nat), PermutatorOk p →
    let q := { p with cycles := p.cycles.map fun c => { c with current := offset c } }
    Rebuilt (permutatorRebuild q) ∧
      permutatorRebuild q = { q with bitTable := (permutatorRebuild q).bitTable }

/-- Seek equals stepping, with or without coprime lengths: from index 0, as many applications as the
index says leave the permutator where the seek does (spec/42_permutator.md R180). -/
def Obligations.permutator_seek_is_stepping : Prop :=
  ∀ (p : Permutator) (d : Direction) (blocks : List Block), PermutatorOk p →
    (∀ b ∈ blocks, b.length ≤ 32) →
    blocks.foldlM (fun p b => (permutatorApply d p b).map Prod.snd) (permutatorSeek 0 p) =
      some (permutatorSeek blocks.length p)

/-! ### Counter -/

/-- The Counter's commands but `CTR.INDEX`: `CTR.NEW` clears the index, `CTR.SEEK` sets it to any natural
number, `CTR.UPDATE` keeps it, `CTR.APPLYF` and `CTR.APPLYI` pass the block through and add one; none
writes anything else but `STATUS` (spec/43_counter_and_stage.md R201 to R204, R206). -/
def Obligations.counter_commands : Prop :=
  ∀ (slot : BitVec 8) (s : State), s.fsm ≠ .running →
    (Admitted (.ctrNew slot) s →
      exec (.ctrNew slot) s = .next { s with counter := 0, status := 0, returned := .nothing }) ∧
    (Admitted (.ctrSeek slot) s →
      exec (.ctrSeek slot) s = .next { s with counter := s.port.idx, status := 0, returned := .nothing }) ∧
    (Admitted (.ctrUpdate slot) s →
      exec (.ctrUpdate slot) s = .next { s with status := 0, returned := .nothing }) ∧
    (Admitted (.ctrApplyf slot) s →
      exec (.ctrApplyf slot) s = .next { s with
        counter := s.counter + 1, status := 0, returned := returnBlock (operandA s) }) ∧
    (Admitted (.ctrApplyi slot) s →
      exec (.ctrApplyi slot) s = .next { s with
        counter := s.counter + 1, status := 0, returned := returnBlock (operandA s) })

/-- `CTR.INDEX`, and `CAS.INDEX` where it is legal, report the Counter's index as tracked and write
nothing but `STATUS` (spec/43_counter_and_stage.md R205, spec/44_cascade.md R228). -/
def Obligations.index_reports_counter : Prop :=
  ∀ (slot : BitVec 8) (s : State),
    (Admitted (.ctrIndex slot) s → s.fsm ≠ .running →
      exec (.ctrIndex slot) s = .next { s with status := 0, returned := .index true s.counter }) ∧
    (Admitted .casIndex s →
      (s.fsm = .keyed ∨ s.fsm = .closed ∨ (s.fsm = .running ∧ s.inflight = 0)) →
      exec .casIndex s = .next { s with status := 0, returned := .index true s.counter })

/-! ### Cascade -/

/-- `CAS.LOAD` adopts the stages in the slots: the product of their maximal-state counts, every stage and
the Counter at index 0, Keyed; nothing else changes but `STATUS` (spec/44_cascade.md R224). -/
def Obligations.cascade_load : Prop :=
  ∀ (s : State) (stages : List Stage), Admitted .casLoad s → s.fsm ≠ .running →
    s.slots = stages.map some → stages.map stageKind = s.params.layout →
    exec .casLoad s = .next { s with
      slots := stages.map fun st => some (stageSeek 0 st),
      counter := 0,
      maximalStates := some (stages.map stageMax).prod,
      fsm := .keyed,
      status := 0, returned := .nothing }

/-- `CAS.SETMODE`: code 0 is encrypt, code 1 decrypt; codes 2 and 3 are `ConfigError`, fatal, with `mode`
unchanged (spec/44_cascade.md R225, spec/30_encoding.md R99). -/
def Obligations.cascade_setmode : Prop :=
  ∀ (code : BitVec 8) (s : State), Admitted (.casSetmode code) s →
    (s.fsm = .keyed ∨ s.fsm = .closed) →
    (code = 0 → exec (.casSetmode code) s =
      .next { s with mode := .encrypt, status := 0, returned := .nothing }) ∧
    (code = 1 → exec (.casSetmode code) s =
      .next { s with mode := .decrypt, status := 0, returned := .nothing }) ∧
    (code = 2 ∨ code = 3 → exec (.casSetmode code) s =
      .next { s with status := 2, fatal := true, returned := .nothing })

/-- `CAS.BUILD` makes the queues, all empty, and the workers, all alive, and changes no stage
(spec/44_cascade.md R226). -/
def Obligations.cascade_build : Prop :=
  ∀ s : State, Admitted .casBuild s → (s.fsm = .keyed ∨ s.fsm = .closed) → s.mode ≠ .unset →
    exec .casBuild s = .next { s with
      queues := List.replicate (s.params.layout.length + 2) none,
      alive := List.replicate (s.params.layout.length + 1) true,
      inflight := 0,
      fsm := .running,
      status := 0, returned := .nothing }

/-- `CAS.SEEK` seeks every stage and the Counter to any index, in Keyed and in Running with nothing in
flight; nothing else changes but `STATUS` (spec/44_cascade.md R227). -/
def Obligations.cascade_seek : Prop :=
  ∀ (s : State) (stages : List Stage), Admitted .casSeek s →
    (s.fsm = .keyed ∨ (s.fsm = .running ∧ s.inflight = 0)) → s.slots = stages.map some →
    exec .casSeek s = .next { s with
      slots := stages.map fun st => some (stageSeek s.port.idx st),
      counter := s.port.idx,
      status := 0, returned := .nothing }

/-- With nothing in flight `CAS.CLOSE` always completes: the queues and the workers are gone, the cascade
is Closed, and no stage, nor the Counter, has moved (spec/44_cascade.md R229). -/
def Obligations.cascade_close : Prop :=
  ∀ s : State, Inv s → Admitted .casClose s → s.fsm = .running → s.inflight = 0 →
    exec .casClose s = .next { s with
      queues := [], alive := [], fsm := .closed, status := 0, returned := .nothing }

/-- `CAS.PUSH` completes when a queue is free: after some worker steps the block is in `q[0]` and counted;
worker steps change stages and queues only (spec/44_cascade.md R230). -/
def Obligations.cascade_push : Prop :=
  ∀ s : State, Inv s → Admitted .casPush s → s.fsm = .running →
    s.inflight ≤ s.params.layout.length + 1 →
    ∃ u : State, Workers s u ∧
      u = { s with slots := u.slots, counter := u.counter, queues := u.queues } ∧
      u.queues[0]? = some none ∧
      exec .casPush s = .next { u with
        queues := u.queues.set 0 (some (operandA s)),
        inflight := s.inflight + 1,
        status := 0, returned := .nothing }

/-- `CAS.PULL` completes when a block is in flight: after some worker steps it takes the block at the
output endpoint; worker steps change stages and queues only (spec/44_cascade.md R231). -/
def Obligations.cascade_pull : Prop :=
  ∀ s : State, Inv s → Admitted .casPull s → s.fsm = .running → s.inflight ≠ 0 →
    ∃ (u : State) (b : Block), Workers s u ∧
      u = { s with slots := u.slots, counter := u.counter, queues := u.queues } ∧
      u.queues[s.params.layout.length + 1]? = some (some b) ∧
      exec .casPull s = .next { u with
        queues := u.queues.set (s.params.layout.length + 1) none,
        inflight := s.inflight - 1,
        status := 0, returned := returnBlock b }

/-- The stuck cases are a pull with nothing in flight and a push with every queue full, and no others
(spec/60_exceptions.md R310). -/
def Obligations.stuck_cases : Prop :=
  ∀ (i : Instr) (s : State), Inv s → Admitted i s →
    (exec i s = .fault .stuckPull ↔ i = .casPull ∧ s.fsm = .running ∧ s.inflight = 0) ∧
    (exec i s = .fault .stuckPush ↔
      i = .casPush ∧ s.fsm = .running ∧ s.inflight = s.params.layout.length + 2) ∧
    exec i s ≠ .fault .stuckClose

/-- A worker's turn. Where its step is enabled it takes the block of `q[j]`, transforms it with the stage
it owns and puts it in `q[j+1]`; the sentinel is handed on unchanged and ends the worker
(spec/44_cascade.md R226, R232). That a turn with no enabled step only moves the agenda on is the model's
choice (log 3). What the transform of a stage is, `StageF` and `StageI`, goes by what the slot holds: a rotor
adds or subtracts its window, a permutator scatters or gathers, the Counter passes the block on, each one
position further and nothing else changed (spec/43_counter_and_stage.md R200, R202, R203). No worker is
starved: from every sound state the machine stops, or comes to a state in which no worker has an enabled
step left. -/
def Obligations.worker_step : Prop :=
  (∀ (s : State) (j : Nat) (rest : List Agent), s.agenda = .worker j :: rest →
    (∀ b, s.alive[j]? = some true → s.queues[j]? = some (some b) → s.queues[j + 1]? = some none →
      (b = [] → step s = .next { s with
        agenda := rest,
        alive := s.alive.set j false,
        queues := (s.queues.set j none).set (j + 1) (some []) }) ∧
      (b ≠ [] → Inv s → s.fsm = .running → ∃ o u : _,
        stageApply (if s.mode = .encrypt then .forward else .inverse)
          (if s.mode = .encrypt then j else s.params.layout.length - j) b s = .ok o u ∧
        step s = .next { s with
          agenda := rest,
          slots := u.slots,
          counter := u.counter,
          queues := (s.queues.set j none).set (j + 1) (some o) })) ∧
    (¬ (s.alive[j]? = some true ∧ (∃ b, s.queues[j]? = some (some b)) ∧
        s.queues[j + 1]? = some none) → step s = .next { s with agenda := rest })) ∧
  (∀ (d : Direction) (b : Block) (s : State), b.length ≤ 32 →
    stageApply d s.params.layout.length b s = .ok b { s with counter := s.counter + 1 } ∧
    ∀ n : Nat,
      (∀ r, s.params.layout[n]? = some .rotor → s.slots[n]? = some (some (.rotor r)) → RotorOk r →
        ∃ o r', RotorStep d r b o r' ∧
          stageApply d n b s = .ok o { s with slots := s.slots.set n (some (.rotor r')) }) ∧
      ∀ p, s.params.layout[n]? = some .permutator → s.slots[n]? = some (some (.permutator p)) →
        PermutatorOk p → ∃ o p', PermutatorStep d p b o p' ∧
          stageApply d n b s = .ok o { s with slots := s.slots.set n (some (.permutator p')) }) ∧
  ∀ s : State, Inv s →
    ∃ n, stepMany n s = none ∨ ∃ t, stepMany n s = some t ∧ ∀ j, workerEnabled t j = false

/-- `CAS.INIT`. Where the proforma cascade can be built: sound stages of the layout's kinds, rotor sizes
out of `PRIME_TABLE`, cycle lengths a reordering of an entry of `CYCLE_TUPLES`, a key of `TK_BYTES` bytes,
and the registers as the rule says. Where it cannot: `ConfigError`, fatal, `fsm` kept, the slots unspecified
(spec/45_keysetup_prng.md R270); that the Counter keeps its value there, and that the counter of free values
moves on, is the model's choice (log 6). That the sizes and the lengths inside `KEYGEN` are the tables' in
rotating order, one for each slot in some order of the slots, is the model's reading of the outline (log 7;
spec/41_rotor.md R150, spec/42_permutator.md R179); with enough primes every rotor then has another size and a
second key setup gives another cascade. `KEYGEN` is a function: two blocks with equal parameters and rotation
indices, given the same arguments, end alike, with equal slots, tracking key and `maximal_states` where they
succeed (R270, R272). -/
def Obligations.cascade_init : Prop :=
  ∀ s : State, Inv s → Admitted .casInit s → s.fsm ≠ .running →
    let primes := s.params.primeTable
    let cycles := s.params.cycleTuples
    let rotors := s.params.layout.count .rotor
    let permutators := s.params.layout.count .permutator
    (proformaBuilds s.params s.port.param.proformaSource = true →
      ∃ (stages : List Stage) (key : List Byte),
        stages.map stageKind = s.params.layout ∧ (∀ st ∈ stages, StageOk s.params st) ∧
        (∀ r, Stage.rotor r ∈ stages → r.size ∈ primes) ∧
        (∀ p, Stage.permutator p ∈ stages →
          ∃ tuple ∈ cycles, (p.cycles.map Machine.Cycle.length).Perm tuple) ∧
        (∀ st ∈ stages, st = stageSeek 0 st) ∧ key.length = s.params.tkBytes ∧
        ((stages.filterMap rotorOf).map fun r => some r.size).Perm
          ((List.range rotors).map fun k => primes[(s.primeRot + k) % primes.length]?) ∧
        (rotors ≤ primes.length → ((stages.filterMap rotorOf).map Rotor.size).Nodup) ∧
        (∃ lens tuples : List (List Nat),
          lens.Perm ((stages.filterMap permutatorOf).map fun p => p.cycles.map Machine.Cycle.length) ∧
          tuples.map some =
            (List.range permutators).map (fun k => cycles[(s.tupleRot + k) % cycles.length]?) ∧
          List.Forall₂ List.Perm lens tuples) ∧
        exec .casInit s = .next { s with
          slots := stages.map some,
          counter := 0,
          maximalStates := some (stages.map stageMax).prod,
          trackingKey := some key,
          primeRot := (s.primeRot + rotors) % primes.length,
          tupleRot := (s.tupleRot + permutators) % cycles.length,
          seeded := false,
          fsm := .keyed,
          status := 0, returned := .result (.trackingKey key) }) ∧
    (0 < rotors → rotors < primes.length → ∀ t u : State,
      exec .casInit s = .next t → exec .casInit t = .next u → u.slots ≠ t.slots) ∧
    (∀ s' t : State, Inv s' → Admitted .casInit s' → s'.fsm ≠ .running → s'.params = s.params →
      s'.primeRot = s.primeRot → s'.tupleRot = s.tupleRot →
      s'.port.param.secret = s.port.param.secret →
      s'.port.param.proformaSource = s.port.param.proformaSource → exec .casInit s = .next t →
      ∃ t', exec .casInit s' = .next t' ∧ t'.status = t.status ∧
        (t.status = 0 → t'.slots = t.slots ∧ t'.trackingKey = t.trackingKey ∧
          t'.maximalStates = t.maximalStates ∧ t'.returned = t.returned)) ∧
    (proformaBuilds s.params s.port.param.proformaSource = false →
      ∃ slots : List (Option Stage), exec .casInit s = .next { s with
        slots := slots, freeCount := s.freeCount + 1,
        status := 2, fatal := true, returned := .nothing })

/-! ### Laws of the cascade -/

/-- Pipeline equals composition: however pushes, pulls and worker steps interleave, the `k`-th block
pulled is what the cascade as a function makes of the `k`-th block pushed, and when the last block has
been pulled the stages are where that function leaves them (spec/44_cascade.md R233). -/
def Obligations.pipeline_is_composition : Prop :=
  ∀ (s t : State) (ms : List Move) (outs : List Returned), Inv s → s.fsm = .running →
    s.inflight = 0 → (∀ m ∈ ms, m.lenOk) → plays ms s = some (outs, t) →
    ∃ (os : List Block) (u : State), cipherAll (ms.flatMap Move.sent) s = .ok os u ∧
      os.length = outs.length + t.inflight ∧ outs = (os.take outs.length).map returnBlock ∧
      (t.inflight = 0 → t.slots = u.slots ∧ t.counter = u.counter)

/-- Lockstep: `CAS.SEEK` aligns the cascade at the index, and a block that passes through every stage of
a cascade aligned at `i` leaves it aligned at `i + 1` (spec/43_counter_and_stage.md R207). -/
def Obligations.lockstep : Prop :=
  (∀ s t : State, Inv s → Admitted .casSeek s → exec .casSeek s = .next t →
    Aligned s.port.idx t) ∧
  ∀ (s : State) (i : Nat) (b : Block), Inv s → s.fatal = false → s.fsm ≠ .unkeyed → Aligned i s →
    1 ≤ b.length → b.length ≤ 32 →
    ∃ o t, cipher b s = .ok o t ∧ o.length = b.length ∧ Aligned (i + 1) t

/-- Cascade round trip: what one cascade encrypts from index `i`, a cascade with the same stage parameters
that decrypts from index `i` gives back, partial blocks included (spec/44_cascade.md R234). -/
def Obligations.cascade_round_trip : Prop :=
  ∀ (a b : State) (i : Nat) (xs : List Block), Inv a → Inv b → a.fatal = false → b.fatal = false →
    a.fsm ≠ .unkeyed → b.fsm ≠ .unkeyed → a.params = b.params →
    a.slots.map (Option.map (stageSeek 0)) = b.slots.map (Option.map (stageSeek 0)) →
    Aligned i a → Aligned i b → a.mode = .encrypt → b.mode = .decrypt →
    (∀ x ∈ xs, 1 ≤ x.length ∧ x.length ≤ 32) →
    ∃ (ys : List Block) (a' b' : State), cipherAll xs a = .ok ys a' ∧ cipherAll ys b = .ok xs b' ∧
      Aligned (i + xs.length) a' ∧ Aligned (i + xs.length) b'

/-- Seeking equivalence: block `K` of a stream encrypted in order from index 0 is what the freshly keyed
cascade makes of it right after a seek to `K` (spec/44_cascade.md R235). -/
def Obligations.seeking_equivalence : Prop :=
  ∀ (s t u : State) (xs ys : List Block) (k : Nat) (x : Block), Inv s → s.fatal = false →
    s.fsm ≠ .unkeyed → s.mode = .encrypt → Aligned 0 s → (∀ x ∈ xs, 1 ≤ x.length ∧ x.length ≤ 32) →
    cipherAll xs s = .ok ys t → xs[k]? = some x → seekAll k s = .ok () u →
    ∃ y v, cipher x u = .ok y v ∧ ys[k]? = some y

/-- Period: a cascade sought `maximal_states` further is the same but for the Counter, and makes the same
of a block (spec/44_cascade.md R236). -/
def Obligations.cascade_period : Prop :=
  ∀ (s u v : State) (i : Nat), Inv s → s.fatal = false → s.fsm ≠ .unkeyed →
    seekAll i s = .ok () u → seekAll (i + cascadeMax s) s = .ok () v →
    v = { u with counter := u.counter + cascadeMax s } ∧
      ∀ b o w, cipher b u = .ok o w → ∃ w', cipher b v = .ok o w' ∧ w'.slots = w.slots

/-! ### PRNG and re-keying -/

/-- `RNG.SEED` takes the block, marks the buffer exhausted and the PRNG seeded, in every state of the
cascade; nothing else changes but `STATUS` (spec/45_keysetup_prng.md R261). -/
def Obligations.prng_seed : Prop :=
  ∀ s : State, s.fatal = false → s.port.len = 32 →
    exec .rngSeed s = .next { s with
      rbuf := some (operandA s), rpos := 32, seeded := true, status := 0, returned := .nothing }

/-- `RNG.READ` returns the next `N` bytes of the stream and leaves the cascade and the buffer where they
are then; nothing else changes but `STATUS` (spec/45_keysetup_prng.md R263, R264). -/
def Obligations.prng_read : Prop :=
  ∀ s : State, Inv s → Admitted .rngRead s → CanDraw s → 0 ≤ s.port.n.toInt →
    ∃ (bs : List Byte) (u : State), bs.length = s.port.n.toInt.toNat ∧ Drawn s bs u ∧
      u = { s with slots := u.slots, counter := u.counter, rbuf := u.rbuf, rpos := u.rpos } ∧
      exec .rngRead s = .next { u with status := 0, returned := .result (.bytes bs) }

/-- `RNG.UNIFORM` returns a value below the bound and consumes some bytes of the stream, at least one
unless the bound is 1; nothing else changes but `STATUS`. Which value and how many bytes is open (log 9;
spec/45_keysetup_prng.md R265, R266). -/
def Obligations.prng_uniform : Prop :=
  ∀ s : State, Inv s → Admitted .rngUniform s → CanDraw s → 0 < s.port.n.toInt →
    ∃ (v : Nat) (bs : List Byte) (u : State), v < s.port.n.toInt.toNat ∧ Drawn s bs u ∧
      (s.port.n.toInt ≠ 1 → bs ≠ []) ∧
      u = { s with slots := u.slots, counter := u.counter, rbuf := u.rbuf, rpos := u.rpos } ∧
      exec .rngUniform s = .next { u with status := 0, returned := .result (.value v) }

/-- `RNG.PERM` returns each of `0 .. N-1` once, in some order, and consumes some bytes of the stream, none
for `N = 0`; nothing else changes but `STATUS` (log 9; spec/45_keysetup_prng.md R265, R267). -/
def Obligations.prng_perm : Prop :=
  ∀ s : State, Inv s → Admitted .rngPerm s → CanDraw s → 0 ≤ s.port.n.toInt →
    ∃ (l : List Nat) (bs : List Byte) (u : State), l.Perm (List.range s.port.n.toInt.toNat) ∧
      Drawn s bs u ∧ (s.port.n.toInt = 0 → bs = []) ∧
      u = { s with slots := u.slots, counter := u.counter, rbuf := u.rbuf, rpos := u.rpos } ∧
      exec .rngPerm s = .next { u with status := 0, returned := .result (.list l) }

/-- A negative byte count, a bound that is not positive and a negative permutation size are
`InvalidArgument`, raised before any byte is drawn and not fatal (spec/60_exceptions.md R301). -/
def Obligations.prng_invalid_argument : Prop :=
  ∀ s : State, CanDraw s →
    (Admitted .rngRead s → s.port.n.toInt < 0 →
      exec .rngRead s = .next { s with status := 1, returned := .nothing }) ∧
    (Admitted .rngUniform s → s.port.n.toInt ≤ 0 →
      exec .rngUniform s = .next { s with status := 1, returned := .nothing }) ∧
    (Admitted .rngPerm s → s.port.n.toInt < 0 →
      exec .rngPerm s = .next { s with status := 1, returned := .nothing })

/-- `ROT.UPDATE`: the size is the next of the prime table and the rotation index moves on; start, step
and data are drawn from the stream, the data last, and the slot holds the rotor `ROT.NEW` makes of them;
nothing else changes but the PRNG, the cascade's position and `STATUS` (spec/41_rotor.md R150). -/
def Obligations.rotor_update : Prop :=
  ∀ (slot : BitVec 8) (s : State), Inv s → Admitted (.rotUpdate slot) s → CanDraw s →
    ∃ (r : Rotor) (pre data : List Byte) (u : State),
      s.params.primeTable[s.primeRot]? = some r.size ∧ RotorOk r ∧ r.current = r.start ∧
      data.length = (r.size + 7) / 8 ∧ (∀ k < r.size, bitGet r.buffer k = bitGet data k) ∧
      Drawn { s with primeRot := (s.primeRot + 1) % s.params.primeTable.length } (pre ++ data) u ∧
      u = { s with
        primeRot := (s.primeRot + 1) % s.params.primeTable.length,
        slots := u.slots, counter := u.counter, rbuf := u.rbuf, rpos := u.rpos } ∧
      exec (.rotUpdate slot) s = .next { u with
        slots := u.slots.set slot.toNat (some (.rotor r)), status := 0, returned := .nothing }

/-- `PRM.UPDATE`: the cycle lengths are a reordering of the next tuple and the rotation index moves on;
the order and the table come from the stream, and the slot holds the permutator `PRM.NEW` makes of them,
at state 0; nothing else changes but the PRNG, the cascade's position and `STATUS`
(spec/42_permutator.md R179). -/
def Obligations.permutator_update : Prop :=
  ∀ (slot : BitVec 8) (s : State), Inv s → Admitted (.prmUpdate slot) s → CanDraw s →
    ∃ (p : Permutator) (tuple : List Nat) (bs : List Byte) (u : State),
      s.params.cycleTuples[s.tupleRot]? = some tuple ∧ (p.cycles.map Machine.Cycle.length).Perm tuple ∧
      PermutatorOk p ∧ p.currentState = 0 ∧ p.bitTable = p.tableSource ∧
      Drawn { s with tupleRot := (s.tupleRot + 1) % s.params.cycleTuples.length } bs u ∧
      u = { s with
        tupleRot := (s.tupleRot + 1) % s.params.cycleTuples.length,
        slots := u.slots, counter := u.counter, rbuf := u.rbuf, rpos := u.rpos } ∧
      exec (.prmUpdate slot) s = .next { u with
        slots := u.slots.set slot.toNat (some (.permutator p)), status := 0, returned := .nothing }

/-! ### The whole machine -/

/-- The state after reset keeps the invariant, whatever the parameters, if they are ones
spec/00_scope.md R9 admits. -/
def Obligations.reset_keeps_invariant : Prop :=
  Inv State.reset ∧ ∀ p : Params, p.wf = true → Inv (State.resetWith p)

/-- Every step, of the host, of a worker or of the reset line, keeps the invariant: the rotor and
permutator invariants, a rotor of at most `MAX_ROTOR_BITS` bits and a permutator of at most `NCYC_MAX`
cycles, the ranges of the registers, a tracking key of `TK_BYTES` bytes, and the pipeline's shape
(spec/10_state.md R24, R26, R28, R29, R31 to R33, spec/00_scope.md R9). -/
def Obligations.step_keeps_invariant : Prop :=
  ∀ s t : State, Inv s → step s = .next t → Inv t

/-- The state machine of the cascade: a command changes `fsm` exactly as the table says, at a completion
with `OK`, and no other command and no worker changes it (spec/44_cascade.md R220). -/
def Obligations.fsm_transitions : Prop :=
  ∀ s t : State, Inv s →
    (∀ i : Instr, exec i s = .next t →
      (t.status = 0 → (i = .casInit ∨ i = .casLoad) → s.fsm ≠ .running ∧ t.fsm = .keyed) ∧
      (t.status = 0 → i = .casBuild → (s.fsm = .keyed ∨ s.fsm = .closed) ∧ t.fsm = .running) ∧
      (t.status = 0 → i = .casClose → s.fsm = .running ∧ t.fsm = .closed) ∧
      (t.status ≠ 0 ∨ (i ≠ .casInit ∧ i ≠ .casLoad ∧ i ≠ .casBuild ∧ i ≠ .casClose) →
        t.fsm = s.fsm)) ∧
    ∀ j : Nat, workerTurn j s = .next t → t.fsm = s.fsm

/-- A command with a legal encoding is refused exactly where the table of the states does not allow it or
the slot it reads holds no value (spec/44_cascade.md R221, spec/60_exceptions.md R306). -/
def Obligations.refused_exactly : Prop :=
  ∀ (i : Instr) (s : State), Inv s → Admitted i s →
    ((∃ r, exec i s = .refused r) ↔ ¬ (LegalIn i s ∧ ReadsValue i s))
end

