-- ==== Sys2Proof/Laws/State.lean ====
section
/-! SUPPORT. What each update of the state does to each field, one lemma per field per update. -/

namespace Sys2Proof.Machine

variable (s : State)

@[simp] theorem writeSlot_params (n : Nat) (st : Stage) :
    (writeSlot n st s).params = s.params := rfl
@[simp] theorem writeSlot_slots (n : Nat) (st : Stage) :
    (writeSlot n st s).slots = s.slots.set n (some st) := rfl
@[simp] theorem writeSlot_counter (n : Nat) (st : Stage) :
    (writeSlot n st s).counter = s.counter := rfl
@[simp] theorem writeSlot_fsm (n : Nat) (st : Stage) : (writeSlot n st s).fsm = s.fsm := rfl
@[simp] theorem writeSlot_mode (n : Nat) (st : Stage) : (writeSlot n st s).mode = s.mode := rfl
@[simp] theorem writeSlot_maximalStates (n : Nat) (st : Stage) :
    (writeSlot n st s).maximalStates = s.maximalStates := rfl
@[simp] theorem writeSlot_trackingKey (n : Nat) (st : Stage) :
    (writeSlot n st s).trackingKey = s.trackingKey := rfl
@[simp] theorem writeSlot_primeRot (n : Nat) (st : Stage) :
    (writeSlot n st s).primeRot = s.primeRot := rfl
@[simp] theorem writeSlot_tupleRot (n : Nat) (st : Stage) :
    (writeSlot n st s).tupleRot = s.tupleRot := rfl
@[simp] theorem writeSlot_inflight (n : Nat) (st : Stage) :
    (writeSlot n st s).inflight = s.inflight := rfl
@[simp] theorem writeSlot_status (n : Nat) (st : Stage) :
    (writeSlot n st s).status = s.status := rfl
@[simp] theorem writeSlot_fatal (n : Nat) (st : Stage) : (writeSlot n st s).fatal = s.fatal := rfl
@[simp] theorem writeSlot_queues (n : Nat) (st : Stage) :
    (writeSlot n st s).queues = s.queues := rfl
@[simp] theorem writeSlot_alive (n : Nat) (st : Stage) : (writeSlot n st s).alive = s.alive := rfl
@[simp] theorem writeSlot_rbuf (n : Nat) (st : Stage) : (writeSlot n st s).rbuf = s.rbuf := rfl
@[simp] theorem writeSlot_rpos (n : Nat) (st : Stage) : (writeSlot n st s).rpos = s.rpos := rfl
@[simp] theorem writeSlot_seeded (n : Nat) (st : Stage) :
    (writeSlot n st s).seeded = s.seeded := rfl
@[simp] theorem writeSlot_port (n : Nat) (st : Stage) : (writeSlot n st s).port = s.port := rfl
@[simp] theorem writeSlot_returned (n : Nat) (st : Stage) :
    (writeSlot n st s).returned = s.returned := rfl
@[simp] theorem writeSlot_commands (n : Nat) (st : Stage) :
    (writeSlot n st s).commands = s.commands := rfl
@[simp] theorem writeSlot_agenda (n : Nat) (st : Stage) :
    (writeSlot n st s).agenda = s.agenda := rfl
@[simp] theorem writeSlot_freeCount (n : Nat) (st : Stage) :
    (writeSlot n st s).freeCount = s.freeCount := rfl
@[simp] theorem writeSlot_inProgress (n : Nat) (st : Stage) :
    (writeSlot n st s).inProgress = s.inProgress := rfl

@[simp] theorem writeQueue_params (j : Nat) (b : Option Block) :
    (writeQueue j b s).params = s.params := rfl
@[simp] theorem writeQueue_slots (j : Nat) (b : Option Block) :
    (writeQueue j b s).slots = s.slots := rfl
@[simp] theorem writeQueue_counter (j : Nat) (b : Option Block) :
    (writeQueue j b s).counter = s.counter := rfl
@[simp] theorem writeQueue_fsm (j : Nat) (b : Option Block) : (writeQueue j b s).fsm = s.fsm := rfl
@[simp] theorem writeQueue_mode (j : Nat) (b : Option Block) :
    (writeQueue j b s).mode = s.mode := rfl
@[simp] theorem writeQueue_maximalStates (j : Nat) (b : Option Block) :
    (writeQueue j b s).maximalStates = s.maximalStates := rfl
@[simp] theorem writeQueue_trackingKey (j : Nat) (b : Option Block) :
    (writeQueue j b s).trackingKey = s.trackingKey := rfl
@[simp] theorem writeQueue_primeRot (j : Nat) (b : Option Block) :
    (writeQueue j b s).primeRot = s.primeRot := rfl
@[simp] theorem writeQueue_tupleRot (j : Nat) (b : Option Block) :
    (writeQueue j b s).tupleRot = s.tupleRot := rfl
@[simp] theorem writeQueue_inflight (j : Nat) (b : Option Block) :
    (writeQueue j b s).inflight = s.inflight := rfl
@[simp] theorem writeQueue_status (j : Nat) (b : Option Block) :
    (writeQueue j b s).status = s.status := rfl
@[simp] theorem writeQueue_fatal (j : Nat) (b : Option Block) :
    (writeQueue j b s).fatal = s.fatal := rfl
@[simp] theorem writeQueue_queues (j : Nat) (b : Option Block) :
    (writeQueue j b s).queues = s.queues.set j b := rfl
@[simp] theorem writeQueue_alive (j : Nat) (b : Option Block) :
    (writeQueue j b s).alive = s.alive := rfl
@[simp] theorem writeQueue_rbuf (j : Nat) (b : Option Block) :
    (writeQueue j b s).rbuf = s.rbuf := rfl
@[simp] theorem writeQueue_rpos (j : Nat) (b : Option Block) :
    (writeQueue j b s).rpos = s.rpos := rfl
@[simp] theorem writeQueue_seeded (j : Nat) (b : Option Block) :
    (writeQueue j b s).seeded = s.seeded := rfl
@[simp] theorem writeQueue_port (j : Nat) (b : Option Block) :
    (writeQueue j b s).port = s.port := rfl
@[simp] theorem writeQueue_returned (j : Nat) (b : Option Block) :
    (writeQueue j b s).returned = s.returned := rfl
@[simp] theorem writeQueue_commands (j : Nat) (b : Option Block) :
    (writeQueue j b s).commands = s.commands := rfl
@[simp] theorem writeQueue_agenda (j : Nat) (b : Option Block) :
    (writeQueue j b s).agenda = s.agenda := rfl
@[simp] theorem writeQueue_freeCount (j : Nat) (b : Option Block) :
    (writeQueue j b s).freeCount = s.freeCount := rfl
@[simp] theorem writeQueue_inProgress (j : Nat) (b : Option Block) :
    (writeQueue j b s).inProgress = s.inProgress := rfl

@[simp] theorem raiseException_params (x : Exn) : (raiseException x s).params = s.params := rfl
@[simp] theorem raiseException_slots (x : Exn) : (raiseException x s).slots = s.slots := rfl
@[simp] theorem raiseException_counter (x : Exn) : (raiseException x s).counter = s.counter := rfl
@[simp] theorem raiseException_fsm (x : Exn) : (raiseException x s).fsm = s.fsm := rfl
@[simp] theorem raiseException_mode (x : Exn) : (raiseException x s).mode = s.mode := rfl
@[simp] theorem raiseException_maximalStates (x : Exn) :
    (raiseException x s).maximalStates = s.maximalStates := rfl
@[simp] theorem raiseException_trackingKey (x : Exn) :
    (raiseException x s).trackingKey = s.trackingKey := rfl
@[simp] theorem raiseException_primeRot (x : Exn) :
    (raiseException x s).primeRot = s.primeRot := rfl
@[simp] theorem raiseException_tupleRot (x : Exn) :
    (raiseException x s).tupleRot = s.tupleRot := rfl
@[simp] theorem raiseException_inflight (x : Exn) :
    (raiseException x s).inflight = s.inflight := rfl
@[simp] theorem raiseException_status (x : Exn) : (raiseException x s).status = exnCode x := rfl
@[simp] theorem raiseException_fatal (x : Exn) :
    (raiseException x s).fatal = (s.fatal || exnFatal x) := rfl
@[simp] theorem raiseException_queues (x : Exn) : (raiseException x s).queues = s.queues := rfl
@[simp] theorem raiseException_alive (x : Exn) : (raiseException x s).alive = s.alive := rfl
@[simp] theorem raiseException_rbuf (x : Exn) : (raiseException x s).rbuf = s.rbuf := rfl
@[simp] theorem raiseException_rpos (x : Exn) : (raiseException x s).rpos = s.rpos := rfl
@[simp] theorem raiseException_seeded (x : Exn) : (raiseException x s).seeded = s.seeded := rfl
@[simp] theorem raiseException_port (x : Exn) : (raiseException x s).port = s.port := rfl
@[simp] theorem raiseException_returned (x : Exn) : (raiseException x s).returned = .nothing := rfl
@[simp] theorem raiseException_commands (x : Exn) :
    (raiseException x s).commands = s.commands := rfl
@[simp] theorem raiseException_agenda (x : Exn) : (raiseException x s).agenda = s.agenda := rfl
@[simp] theorem raiseException_freeCount (x : Exn) :
    (raiseException x s).freeCount = s.freeCount := rfl
@[simp] theorem raiseException_inProgress (x : Exn) :
    (raiseException x s).inProgress = s.inProgress := rfl

@[simp] theorem completeOk_params (ret : Returned) : (completeOk ret s).params = s.params := rfl
@[simp] theorem completeOk_slots (ret : Returned) : (completeOk ret s).slots = s.slots := rfl
@[simp] theorem completeOk_counter (ret : Returned) : (completeOk ret s).counter = s.counter := rfl
@[simp] theorem completeOk_fsm (ret : Returned) : (completeOk ret s).fsm = s.fsm := rfl
@[simp] theorem completeOk_mode (ret : Returned) : (completeOk ret s).mode = s.mode := rfl
@[simp] theorem completeOk_maximalStates (ret : Returned) :
    (completeOk ret s).maximalStates = s.maximalStates := rfl
@[simp] theorem completeOk_trackingKey (ret : Returned) :
    (completeOk ret s).trackingKey = s.trackingKey := rfl
@[simp] theorem completeOk_primeRot (ret : Returned) :
    (completeOk ret s).primeRot = s.primeRot := rfl
@[simp] theorem completeOk_tupleRot (ret : Returned) :
    (completeOk ret s).tupleRot = s.tupleRot := rfl
@[simp] theorem completeOk_inflight (ret : Returned) :
    (completeOk ret s).inflight = s.inflight := rfl
@[simp] theorem completeOk_status (ret : Returned) : (completeOk ret s).status = statusOk := rfl
@[simp] theorem completeOk_fatal (ret : Returned) : (completeOk ret s).fatal = s.fatal := rfl
@[simp] theorem completeOk_queues (ret : Returned) : (completeOk ret s).queues = s.queues := rfl
@[simp] theorem completeOk_alive (ret : Returned) : (completeOk ret s).alive = s.alive := rfl
@[simp] theorem completeOk_rbuf (ret : Returned) : (completeOk ret s).rbuf = s.rbuf := rfl
@[simp] theorem completeOk_rpos (ret : Returned) : (completeOk ret s).rpos = s.rpos := rfl
@[simp] theorem completeOk_seeded (ret : Returned) : (completeOk ret s).seeded = s.seeded := rfl
@[simp] theorem completeOk_port (ret : Returned) : (completeOk ret s).port = s.port := rfl
@[simp] theorem completeOk_returned (ret : Returned) : (completeOk ret s).returned = ret := rfl
@[simp] theorem completeOk_commands (ret : Returned) :
    (completeOk ret s).commands = s.commands := rfl
@[simp] theorem completeOk_agenda (ret : Returned) : (completeOk ret s).agenda = s.agenda := rfl
@[simp] theorem completeOk_freeCount (ret : Returned) :
    (completeOk ret s).freeCount = s.freeCount := rfl
@[simp] theorem completeOk_inProgress (ret : Returned) :
    (completeOk ret s).inProgress = s.inProgress := rfl

@[simp] theorem counterSeek_params (idx : Nat) : (counterSeek idx s).params = s.params := rfl
@[simp] theorem counterSeek_slots (idx : Nat) : (counterSeek idx s).slots = s.slots := rfl
@[simp] theorem counterSeek_counter (idx : Nat) : (counterSeek idx s).counter = idx := rfl
@[simp] theorem counterSeek_fsm (idx : Nat) : (counterSeek idx s).fsm = s.fsm := rfl
@[simp] theorem counterSeek_mode (idx : Nat) : (counterSeek idx s).mode = s.mode := rfl
@[simp] theorem counterSeek_maximalStates (idx : Nat) :
    (counterSeek idx s).maximalStates = s.maximalStates := rfl
@[simp] theorem counterSeek_trackingKey (idx : Nat) :
    (counterSeek idx s).trackingKey = s.trackingKey := rfl
@[simp] theorem counterSeek_primeRot (idx : Nat) : (counterSeek idx s).primeRot = s.primeRot := rfl
@[simp] theorem counterSeek_tupleRot (idx : Nat) : (counterSeek idx s).tupleRot = s.tupleRot := rfl
@[simp] theorem counterSeek_inflight (idx : Nat) : (counterSeek idx s).inflight = s.inflight := rfl
@[simp] theorem counterSeek_status (idx : Nat) : (counterSeek idx s).status = s.status := rfl
@[simp] theorem counterSeek_fatal (idx : Nat) : (counterSeek idx s).fatal = s.fatal := rfl
@[simp] theorem counterSeek_queues (idx : Nat) : (counterSeek idx s).queues = s.queues := rfl
@[simp] theorem counterSeek_alive (idx : Nat) : (counterSeek idx s).alive = s.alive := rfl
@[simp] theorem counterSeek_rbuf (idx : Nat) : (counterSeek idx s).rbuf = s.rbuf := rfl
@[simp] theorem counterSeek_rpos (idx : Nat) : (counterSeek idx s).rpos = s.rpos := rfl
@[simp] theorem counterSeek_seeded (idx : Nat) : (counterSeek idx s).seeded = s.seeded := rfl
@[simp] theorem counterSeek_port (idx : Nat) : (counterSeek idx s).port = s.port := rfl
@[simp] theorem counterSeek_returned (idx : Nat) : (counterSeek idx s).returned = s.returned := rfl
@[simp] theorem counterSeek_commands (idx : Nat) : (counterSeek idx s).commands = s.commands := rfl
@[simp] theorem counterSeek_agenda (idx : Nat) : (counterSeek idx s).agenda = s.agenda := rfl
@[simp] theorem counterSeek_freeCount (idx : Nat) :
    (counterSeek idx s).freeCount = s.freeCount := rfl
@[simp] theorem counterSeek_inProgress (idx : Nat) :
    (counterSeek idx s).inProgress = s.inProgress := rfl

@[simp] theorem buildPipeline_params : (buildPipeline s).params = s.params := rfl
@[simp] theorem buildPipeline_slots : (buildPipeline s).slots = s.slots := rfl
@[simp] theorem buildPipeline_counter : (buildPipeline s).counter = s.counter := rfl
@[simp] theorem buildPipeline_fsm : (buildPipeline s).fsm = .running := rfl
@[simp] theorem buildPipeline_mode : (buildPipeline s).mode = s.mode := rfl
@[simp] theorem buildPipeline_maximalStates :
    (buildPipeline s).maximalStates = s.maximalStates := rfl
@[simp] theorem buildPipeline_trackingKey : (buildPipeline s).trackingKey = s.trackingKey := rfl
@[simp] theorem buildPipeline_primeRot : (buildPipeline s).primeRot = s.primeRot := rfl
@[simp] theorem buildPipeline_tupleRot : (buildPipeline s).tupleRot = s.tupleRot := rfl
@[simp] theorem buildPipeline_inflight : (buildPipeline s).inflight = 0 := rfl
@[simp] theorem buildPipeline_status : (buildPipeline s).status = s.status := rfl
@[simp] theorem buildPipeline_fatal : (buildPipeline s).fatal = s.fatal := rfl
@[simp] theorem buildPipeline_queues :
    (buildPipeline s).queues = List.replicate (numSlots s + 2) none := rfl
@[simp] theorem buildPipeline_alive :
    (buildPipeline s).alive = List.replicate (numSlots s + 1) true := rfl
@[simp] theorem buildPipeline_rbuf : (buildPipeline s).rbuf = s.rbuf := rfl
@[simp] theorem buildPipeline_rpos : (buildPipeline s).rpos = s.rpos := rfl
@[simp] theorem buildPipeline_seeded : (buildPipeline s).seeded = s.seeded := rfl
@[simp] theorem buildPipeline_port : (buildPipeline s).port = s.port := rfl
@[simp] theorem buildPipeline_returned : (buildPipeline s).returned = s.returned := rfl
@[simp] theorem buildPipeline_commands : (buildPipeline s).commands = s.commands := rfl
@[simp] theorem buildPipeline_agenda : (buildPipeline s).agenda = s.agenda := rfl
@[simp] theorem buildPipeline_freeCount : (buildPipeline s).freeCount = s.freeCount := rfl
@[simp] theorem buildPipeline_inProgress : (buildPipeline s).inProgress = s.inProgress := rfl

@[simp] theorem seedPrng_params (blk : Block) : (seedPrng blk s).params = s.params := rfl
@[simp] theorem seedPrng_slots (blk : Block) : (seedPrng blk s).slots = s.slots := rfl
@[simp] theorem seedPrng_counter (blk : Block) : (seedPrng blk s).counter = s.counter := rfl
@[simp] theorem seedPrng_fsm (blk : Block) : (seedPrng blk s).fsm = s.fsm := rfl
@[simp] theorem seedPrng_mode (blk : Block) : (seedPrng blk s).mode = s.mode := rfl
@[simp] theorem seedPrng_maximalStates (blk : Block) :
    (seedPrng blk s).maximalStates = s.maximalStates := rfl
@[simp] theorem seedPrng_trackingKey (blk : Block) :
    (seedPrng blk s).trackingKey = s.trackingKey := rfl
@[simp] theorem seedPrng_primeRot (blk : Block) : (seedPrng blk s).primeRot = s.primeRot := rfl
@[simp] theorem seedPrng_tupleRot (blk : Block) : (seedPrng blk s).tupleRot = s.tupleRot := rfl
@[simp] theorem seedPrng_inflight (blk : Block) : (seedPrng blk s).inflight = s.inflight := rfl
@[simp] theorem seedPrng_status (blk : Block) : (seedPrng blk s).status = s.status := rfl
@[simp] theorem seedPrng_fatal (blk : Block) : (seedPrng blk s).fatal = s.fatal := rfl
@[simp] theorem seedPrng_queues (blk : Block) : (seedPrng blk s).queues = s.queues := rfl
@[simp] theorem seedPrng_alive (blk : Block) : (seedPrng blk s).alive = s.alive := rfl
@[simp] theorem seedPrng_rbuf (blk : Block) : (seedPrng blk s).rbuf = some blk := rfl
@[simp] theorem seedPrng_rpos (blk : Block) : (seedPrng blk s).rpos = 32 := rfl
@[simp] theorem seedPrng_seeded (blk : Block) : (seedPrng blk s).seeded = true := rfl
@[simp] theorem seedPrng_port (blk : Block) : (seedPrng blk s).port = s.port := rfl
@[simp] theorem seedPrng_returned (blk : Block) : (seedPrng blk s).returned = s.returned := rfl
@[simp] theorem seedPrng_commands (blk : Block) : (seedPrng blk s).commands = s.commands := rfl
@[simp] theorem seedPrng_agenda (blk : Block) : (seedPrng blk s).agenda = s.agenda := rfl
@[simp] theorem seedPrng_freeCount (blk : Block) : (seedPrng blk s).freeCount = s.freeCount := rfl
@[simp] theorem seedPrng_inProgress (blk : Block) : (seedPrng blk s).inProgress = s.inProgress := rfl

@[simp] theorem freeSlots_params : (freeSlots s).params = s.params := rfl
@[simp] theorem freeSlots_slots :
    (freeSlots s).slots = (List.range (numSlots s)).map (Config.freeSlot s.freeCount) := rfl
@[simp] theorem freeSlots_counter : (freeSlots s).counter = s.counter := rfl
@[simp] theorem freeSlots_fsm : (freeSlots s).fsm = s.fsm := rfl
@[simp] theorem freeSlots_mode : (freeSlots s).mode = s.mode := rfl
@[simp] theorem freeSlots_maximalStates : (freeSlots s).maximalStates = s.maximalStates := rfl
@[simp] theorem freeSlots_trackingKey : (freeSlots s).trackingKey = s.trackingKey := rfl
@[simp] theorem freeSlots_primeRot : (freeSlots s).primeRot = s.primeRot := rfl
@[simp] theorem freeSlots_tupleRot : (freeSlots s).tupleRot = s.tupleRot := rfl
@[simp] theorem freeSlots_inflight : (freeSlots s).inflight = s.inflight := rfl
@[simp] theorem freeSlots_status : (freeSlots s).status = s.status := rfl
@[simp] theorem freeSlots_fatal : (freeSlots s).fatal = s.fatal := rfl
@[simp] theorem freeSlots_queues : (freeSlots s).queues = s.queues := rfl
@[simp] theorem freeSlots_alive : (freeSlots s).alive = s.alive := rfl
@[simp] theorem freeSlots_rbuf : (freeSlots s).rbuf = s.rbuf := rfl
@[simp] theorem freeSlots_rpos : (freeSlots s).rpos = s.rpos := rfl
@[simp] theorem freeSlots_seeded : (freeSlots s).seeded = s.seeded := rfl
@[simp] theorem freeSlots_port : (freeSlots s).port = s.port := rfl
@[simp] theorem freeSlots_returned : (freeSlots s).returned = s.returned := rfl
@[simp] theorem freeSlots_commands : (freeSlots s).commands = s.commands := rfl
@[simp] theorem freeSlots_agenda : (freeSlots s).agenda = s.agenda := rfl
@[simp] theorem freeSlots_freeCount : (freeSlots s).freeCount = s.freeCount + 1 := rfl
@[simp] theorem freeSlots_inProgress : (freeSlots s).inProgress = s.inProgress := rfl

@[simp] theorem sampleCommand_params (c : Command) (rest : List Command) :
    (sampleCommand c rest s).params = s.params := rfl
@[simp] theorem sampleCommand_slots (c : Command) (rest : List Command) :
    (sampleCommand c rest s).slots = s.slots := rfl
@[simp] theorem sampleCommand_counter (c : Command) (rest : List Command) :
    (sampleCommand c rest s).counter = s.counter := rfl
@[simp] theorem sampleCommand_fsm (c : Command) (rest : List Command) :
    (sampleCommand c rest s).fsm = s.fsm := rfl
@[simp] theorem sampleCommand_mode (c : Command) (rest : List Command) :
    (sampleCommand c rest s).mode = s.mode := rfl
@[simp] theorem sampleCommand_maximalStates (c : Command) (rest : List Command) :
    (sampleCommand c rest s).maximalStates = s.maximalStates := rfl
@[simp] theorem sampleCommand_trackingKey (c : Command) (rest : List Command) :
    (sampleCommand c rest s).trackingKey = s.trackingKey := rfl
@[simp] theorem sampleCommand_primeRot (c : Command) (rest : List Command) :
    (sampleCommand c rest s).primeRot = s.primeRot := rfl
@[simp] theorem sampleCommand_tupleRot (c : Command) (rest : List Command) :
    (sampleCommand c rest s).tupleRot = s.tupleRot := rfl
@[simp] theorem sampleCommand_inflight (c : Command) (rest : List Command) :
    (sampleCommand c rest s).inflight = s.inflight := rfl
@[simp] theorem sampleCommand_status (c : Command) (rest : List Command) :
    (sampleCommand c rest s).status = s.status := rfl
@[simp] theorem sampleCommand_fatal (c : Command) (rest : List Command) :
    (sampleCommand c rest s).fatal = s.fatal := rfl
@[simp] theorem sampleCommand_queues (c : Command) (rest : List Command) :
    (sampleCommand c rest s).queues = s.queues := rfl
@[simp] theorem sampleCommand_alive (c : Command) (rest : List Command) :
    (sampleCommand c rest s).alive = s.alive := rfl
@[simp] theorem sampleCommand_rbuf (c : Command) (rest : List Command) :
    (sampleCommand c rest s).rbuf = s.rbuf := rfl
@[simp] theorem sampleCommand_rpos (c : Command) (rest : List Command) :
    (sampleCommand c rest s).rpos = s.rpos := rfl
@[simp] theorem sampleCommand_seeded (c : Command) (rest : List Command) :
    (sampleCommand c rest s).seeded = s.seeded := rfl
@[simp] theorem sampleCommand_port (c : Command) (rest : List Command) :
    (sampleCommand c rest s).port = c := rfl
@[simp] theorem sampleCommand_returned (c : Command) (rest : List Command) :
    (sampleCommand c rest s).returned = s.returned := rfl
@[simp] theorem sampleCommand_commands (c : Command) (rest : List Command) :
    (sampleCommand c rest s).commands = rest := rfl
@[simp] theorem sampleCommand_agenda (c : Command) (rest : List Command) :
    (sampleCommand c rest s).agenda = s.agenda := rfl
@[simp] theorem sampleCommand_freeCount (c : Command) (rest : List Command) :
    (sampleCommand c rest s).freeCount = s.freeCount := rfl
@[simp] theorem sampleCommand_inProgress (c : Command) (rest : List Command) :
    (sampleCommand c rest s).inProgress = s.inProgress := rfl

@[simp] theorem resetEvent_params : (resetEvent s).params = s.params := rfl
@[simp] theorem resetEvent_slots : (resetEvent s).slots = List.replicate s.params.nSlots none := rfl
@[simp] theorem resetEvent_counter : (resetEvent s).counter = 0 := rfl
@[simp] theorem resetEvent_fsm : (resetEvent s).fsm = .unkeyed := rfl
@[simp] theorem resetEvent_mode : (resetEvent s).mode = .unset := rfl
@[simp] theorem resetEvent_maximalStates : (resetEvent s).maximalStates = none := rfl
@[simp] theorem resetEvent_trackingKey : (resetEvent s).trackingKey = none := rfl
@[simp] theorem resetEvent_primeRot : (resetEvent s).primeRot = 0 := rfl
@[simp] theorem resetEvent_tupleRot : (resetEvent s).tupleRot = 0 := rfl
@[simp] theorem resetEvent_inflight : (resetEvent s).inflight = 0 := rfl
@[simp] theorem resetEvent_status : (resetEvent s).status = 0 := rfl
@[simp] theorem resetEvent_fatal : (resetEvent s).fatal = false := rfl
@[simp] theorem resetEvent_queues : (resetEvent s).queues = [] := rfl
@[simp] theorem resetEvent_alive : (resetEvent s).alive = [] := rfl
@[simp] theorem resetEvent_rbuf : (resetEvent s).rbuf = none := rfl
@[simp] theorem resetEvent_rpos : (resetEvent s).rpos = 32 := rfl
@[simp] theorem resetEvent_seeded : (resetEvent s).seeded = false := rfl
@[simp] theorem resetEvent_port : (resetEvent s).port = s.port := rfl
@[simp] theorem resetEvent_returned : (resetEvent s).returned = .nothing := rfl
@[simp] theorem resetEvent_commands : (resetEvent s).commands = s.commands := rfl
@[simp] theorem resetEvent_agenda : (resetEvent s).agenda = s.agenda := rfl
@[simp] theorem resetEvent_freeCount : (resetEvent s).freeCount = s.freeCount := rfl
@[simp] theorem resetEvent_inProgress : (resetEvent s).inProgress = false := rfl

@[simp] theorem numSlots_writeSlot (n : Nat) (st : Stage) : numSlots (writeSlot n st s) = numSlots s := rfl
@[simp] theorem numSlots_writeQueue (j : Nat) (b : Option Block) : numSlots (writeQueue j b s) = numSlots s := rfl
@[simp] theorem numSlots_raiseException (x : Exn) : numSlots (raiseException x s) = numSlots s := rfl
@[simp] theorem numSlots_completeOk (ret : Returned) : numSlots (completeOk ret s) = numSlots s := rfl
@[simp] theorem numSlots_counterSeek (idx : Nat) : numSlots (counterSeek idx s) = numSlots s := rfl
@[simp] theorem numSlots_buildPipeline : numSlots (buildPipeline s) = numSlots s := rfl
@[simp] theorem numSlots_seedPrng (blk : Block) : numSlots (seedPrng blk s) = numSlots s := rfl
@[simp] theorem numSlots_freeSlots : numSlots (freeSlots s) = numSlots s := rfl
@[simp] theorem numSlots_sampleCommand (c : Command) (rest : List Command) : numSlots (sampleCommand c rest s) = numSlots s := rfl
@[simp] theorem numSlots_resetEvent : numSlots (resetEvent s) = numSlots s := rfl

end Sys2Proof.Machine
end

