-- ==== Sys2Proof/Laws/Ops.lean ====
section
/-! SUPPORT. How a command's rule runs and ends: inversion lemmas of the shared operations. -/

namespace Sys2Proof.Machine

@[simp] theorem bind_ok {α β : Type} (a : α) (s : State) (k : α → State → Res β) :
    (Res.ok a s).bind k = k a s := rfl
@[simp] theorem bind_raise {α β : Type} (x : Exn) (s : State) (k : α → State → Res β) :
    (Res.raise x s).bind k = .raise x s := rfl
@[simp] theorem bind_refuse {α β : Type} (r : Refusal) (k : α → State → Res β) :
    (Res.refuse r).bind k = .refuse r := rfl
@[simp] theorem bind_stuck {α β : Type} (f : Fault) (k : α → State → Res β) :
    (Res.stuck f).bind k = .stuck f := rfl

theorem bind_of_ok {α β : Type} {m : Res α} {a : α} {s : State} (h : m = .ok a s)
    (k : α → State → Res β) : m.bind k = k a s := by subst h; rfl

theorem bind_of_raise {α β : Type} {m : Res α} {x : Exn} {s : State} (h : m = .raise x s)
    (k : α → State → Res β) : m.bind k = .raise x s := by subst h; rfl

/-- What is not stuck stays so when something that is never stuck comes after it. -/
theorem bind_ne_stuck {α β : Type} {m : Res α} {g : α → State → Res β} (hm : ∀ f, m ≠ .stuck f)
    (hg : ∀ a s f, g a s ≠ .stuck f) (f : Fault) : m.bind g ≠ .stuck f := by
  cases m with
  | ok a s => exact hg a s f
  | raise x s => simp [Res.bind]
  | refuse r => simp [Res.bind]
  | stuck g => exact absurd rfl (hm g)

theorem orNoValue_ne_stuck {α : Type} (x : Option α) (s : State) (f : Fault) :
    orNoValue x s ≠ .stuck f := by
  cases x <;> simp [orNoValue]

theorem orBitIndexRange_ne_stuck {α : Type} (x : Option α) (s : State) (f : Fault) :
    orBitIndexRange x s ≠ .stuck f := by
  cases x <;> simp [orBitIndexRange]

/-- A rule that went on to the end went on through both its parts. -/
theorem bind_eq_ok {α β : Type} {m : Res α} {k : α → State → Res β} {b : β} {t : State} :
    m.bind k = .ok b t ↔ ∃ a s, m = .ok a s ∧ k a s = .ok b t := by
  cases m <;> simp [Res.bind]

/-- A rule that raised an exception raised it in one of its parts. -/
theorem bind_eq_raise {α β : Type} {m : Res α} {k : α → State → Res β} {x : Exn} {t : State} :
    m.bind k = .raise x t ↔ m = .raise x t ∨ ∃ a s, m = .ok a s ∧ k a s = .raise x t := by
  cases m <;> simp [Res.bind]

theorem orNoValue_eq_ok {α : Type} {a : Option α} {s t : State} {v : α} :
    orNoValue a s = .ok v t ↔ a = some v ∧ s = t := by
  cases a <;> simp [orNoValue]

theorem orNoValue_ne_raise {α : Type} {a : Option α} {s t : State} {x : Exn} :
    orNoValue a s ≠ .raise x t := by
  cases a <;> simp [orNoValue]

theorem orBitIndexRange_eq_ok {α : Type} {a : Option α} {s t : State} {v : α} :
    orBitIndexRange a s = .ok v t ↔ a = some v ∧ s = t := by
  cases a <;> simp [orBitIndexRange]

theorem orBitIndexRange_eq_raise {α : Type} {a : Option α} {s t : State} {x : Exn} :
    orBitIndexRange a s = .raise x t ↔ a = none ∧ x = .bitIndexRange ∧ s = t := by
  cases a <;> simp [orBitIndexRange, eq_comm]

theorem orBadParameters_eq_ok {α : Type} {a : Option α} {s t : State} {v : α} :
    orBadParameters a s = .ok v t ↔ a = some v ∧ s = t := by
  cases a <;> simp [orBadParameters]

theorem orBadParameters_ne_raise {α : Type} {a : Option α} {s t : State} {x : Exn} :
    orBadParameters a s ≠ .raise x t := by
  cases a <;> simp [orBadParameters]

/-- A command that gives a next state completed with `OK` or with an exception
(spec/60_exceptions.md R300). -/
theorem complete_eq_next {m : Res Returned} {t : State} :
    complete m = .next t ↔
      (∃ ret s, m = .ok ret s ∧ t = completeOk ret s) ∨
        ∃ x s, m = .raise x s ∧ t = raiseException x s := by
  cases m <;> simp [complete, eq_comm]

/-- Every way a command can give a next state, in the order of spec/60_exceptions.md R308. -/
theorem runCommand_eq_next {i : Instr} {legal : State → Option Refusal}
    {rule : State → Res Returned} {s t : State} (h : runCommand i legal rule s = .next t) :
    s.fatal = false ∧
      ((encodingLegal i s = false ∧ t = raiseException .illegalCommand s) ∨
        (encodingLegal i s = true ∧ legal s = none ∧ complete (rule s) = .next t)) := by
  unfold runCommand at h
  split at h
  · cases h
  · rename_i hf
    refine ⟨by simpa using hf, ?_⟩
    split at h
    · rename_i he
      split at h
      · cases h
      · rename_i hl
        exact .inr ⟨he, hl, h⟩
    · rename_i he
      exact .inl ⟨by simpa using he, by cases h; rfl⟩

/-- An admitted command in a legal state runs its rule. -/
theorem runCommand_admitted {i : Instr} {legal : State → Option Refusal}
    {rule : State → Res Returned} {s : State} (ha : Admitted i s) (hl : legal s = none) :
    runCommand i legal rule s = complete (rule s) := by
  simp [runCommand, ha.1, ha.2, hl]

/-- An admitted command whose rule goes to its end completes with `OK`. -/
theorem runCommand_ok {i : Instr} {legal : State → Option Refusal}
    {rule : State → Res Returned} {s t : State} {ret : Returned}
    (ha : Admitted i s) (hl : legal s = none) (hr : rule s = .ok ret t) :
    runCommand i legal rule s = .next (completeOk ret t) := by
  rw [runCommand_admitted ha hl, hr]; rfl

/-- An admitted command whose rule raises an exception completes with its code. -/
theorem runCommand_raise {i : Instr} {legal : State → Option Refusal}
    {rule : State → Res Returned} {s t : State} {x : Exn}
    (ha : Admitted i s) (hl : legal s = none) (hr : rule s = .raise x t) :
    runCommand i legal rule s = .next (raiseException x t) := by
  rw [runCommand_admitted ha hl, hr]; rfl

theorem rotorAt_eq_some {n : Nat} {s : State} {r : Rotor} :
    rotorAt n s = some r ↔ s.slots[n]? = some (some (.rotor r)) := by
  unfold rotorAt
  split
  · rename_i h; simp [h]
  · rename_i h
    simp only [false_iff, reduceCtorEq]
    intro e
    exact h r e

theorem permutatorAt_eq_some {n : Nat} {s : State} {p : Permutator} :
    permutatorAt n s = some p ↔ s.slots[n]? = some (some (.permutator p)) := by
  unfold permutatorAt
  split
  · rename_i h; simp [h]
  · rename_i h
    simp only [false_iff, reduceCtorEq]
    intro e
    exact h p e

theorem queueBlock_eq_some {j : Nat} {s : State} {b : Block} :
    queueBlock j s = some b ↔ s.queues[j]? = some (some b) := by
  unfold queueBlock
  split
  · rename_i h; simp [h]
  · rename_i h
    simp only [false_iff, reduceCtorEq]
    intro e
    exact h b e

theorem queueEmpty_iff {j : Nat} {s : State} :
    queueEmpty j s = true ↔ s.queues[j]? = some none := by
  unfold queueEmpty
  split
  · rename_i h; simp [h]
  · rename_i h
    simp only [false_iff, Bool.false_eq_true]
    exact h

theorem legalOutsideRunning_eq_none {s : State} :
    legalOutsideRunning s = none ↔ s.fsm ≠ .running := by
  unfold legalOutsideRunning; split <;> simp_all

theorem legalRunning_eq_none {s : State} : legalRunning s = none ↔ s.fsm = .running := by
  unfold legalRunning; split <;> simp_all

theorem legalKeyedOrClosed_eq_none {s : State} :
    legalKeyedOrClosed s = none ↔ s.fsm = .keyed ∨ s.fsm = .closed := by
  unfold legalKeyedOrClosed; split <;> simp_all

theorem legalLoad_eq_none {s : State} :
    legalLoad s = none ↔ s.fsm ≠ .running ∧ everySlotLoaded s = true := by
  unfold legalLoad; split <;> simp_all

theorem legalBuild_eq_none {s : State} :
    legalBuild s = none ↔ (s.fsm = .keyed ∨ s.fsm = .closed) ∧ s.mode ≠ .unset := by
  unfold legalBuild; split <;> simp_all

theorem legalSeek_eq_none {s : State} :
    legalSeek s = none ↔ s.fsm = .keyed ∨ (s.fsm = .running ∧ s.inflight = 0) := by
  unfold legalSeek; cases s.fsm <;> simp

theorem legalIndex_eq_none {s : State} :
    legalIndex s = none ↔
      s.fsm = .keyed ∨ s.fsm = .closed ∨ (s.fsm = .running ∧ s.inflight = 0) := by
  unfold legalIndex; cases s.fsm <;> simp

theorem legalClose_eq_none {s : State} :
    legalClose s = none ↔ s.fsm = .running ∧ s.inflight = 0 := by
  unfold legalClose; split <;> simp_all

theorem legalDraw_eq_none {s : State} : legalDraw s = none ↔ CanDraw s := by
  unfold legalDraw CanDraw
  split
  · simp_all
  · split
    · simp_all
    · split
      · simp_all
      · split <;> simp_all

end Sys2Proof.Machine
end

