-- ==== Sys2Proof/Laws/Bits.lean ====
section
/-! SUPPORT. What the bit utilities and the bit loops can do. -/

namespace Sys2Proof.Machine

theorem div8_lt_iff (i n : Nat) : i / 8 < n ↔ i < 8 * n := by omega

theorem bitGet_isSome_iff (buf : List Byte) (i : Nat) :
    (bitGet buf i).isSome = true ↔ i < 8 * buf.length := by
  simp [bitGet, div8_lt_iff]

theorem bitGet_eq_none_iff (buf : List Byte) (i : Nat) :
    bitGet buf i = none ↔ 8 * buf.length ≤ i := by
  rw [← Option.not_isSome_iff_eq_none, bitGet_isSome_iff]; omega

theorem bitGet_of_lt {buf : List Byte} {i : Nat} (h : i < 8 * buf.length) :
    ∃ b, bitGet buf i = some b :=
  Option.isSome_iff_exists.mp ((bitGet_isSome_iff buf i).mpr h)

/-- A bit of a modified buffer: the bit of the byte the function gave, where the byte is the modified
one, and the old bit elsewhere. -/
theorem bitGet_modify (buf : List Byte) (a k : Nat) (f : Byte → Byte) :
    bitGet (buf.modify a f) k =
      if k / 8 = a then (buf[a]?).map fun b => (f b).getLsbD (k % 8) else bitGet buf k := by
  unfold bitGet
  rw [List.getElem?_modify]
  by_cases h : k / 8 = a
  · subst h; simp [Function.comp_def]
  · have h' : a ≠ k / 8 := fun e => h e.symm
    simp [h, h']

theorem getLsbD_or_bit (b : Byte) (i k : Nat) (hi : i < 8) (hk : k < 8) :
    (b ||| (1#8 <<< i)).getLsbD k = (b.getLsbD k || decide (k = i)) := by
  interval_cases i <;> interval_cases k <;> simp

theorem getLsbD_and_not_bit (b : Byte) (i k : Nat) (hi : i < 8) (hk : k < 8) :
    (b &&& ~~~(1#8 <<< i)).getLsbD k = (b.getLsbD k && decide (k ≠ i)) := by
  interval_cases i <;> interval_cases k <;> simp

/-- `BitSet` inside the buffer: the bit is 1 after it and no other bit changes
(spec/40_bits_and_combiner.md R121). -/
theorem bitSet_spec {buf : List Byte} {i : Nat} (h : i < 8 * buf.length) :
    ∃ out, bitSet buf i = some out ∧ out.length = buf.length ∧
      ∀ k, bitGet out k = if k = i then some true else bitGet buf k := by
  have h8 : i / 8 < buf.length := (div8_lt_iff _ _).mpr h
  refine ⟨_, if_pos h8, by simp, fun k => ?_⟩
  rw [bitGet_modify]
  by_cases hb : k / 8 = i / 8
  · rw [if_pos hb, List.getElem?_eq_getElem h8]
    simp only [Option.map_some, getLsbD_or_bit _ _ _ (Nat.mod_lt i (by omega)) (Nat.mod_lt k (by omega))]
    by_cases hk : k = i
    · simp [hk]
    · have : k % 8 ≠ i % 8 := by omega
      rw [if_neg hk, bitGet, hb, List.getElem?_eq_getElem h8]
      simp [this]
  · have hk : k ≠ i := fun e => hb (by rw [e])
    rw [if_neg hb, if_neg hk]

/-- `BitClr` inside the buffer: the bit is 0 after it and no other bit changes
(spec/40_bits_and_combiner.md R122). -/
theorem bitClr_spec {buf : List Byte} {i : Nat} (h : i < 8 * buf.length) :
    ∃ out, bitClr buf i = some out ∧ out.length = buf.length ∧
      ∀ k, bitGet out k = if k = i then some false else bitGet buf k := by
  have h8 : i / 8 < buf.length := (div8_lt_iff _ _).mpr h
  refine ⟨_, if_pos h8, by simp, fun k => ?_⟩
  rw [bitGet_modify]
  by_cases hb : k / 8 = i / 8
  · rw [if_pos hb, List.getElem?_eq_getElem h8]
    simp only [Option.map_some, getLsbD_and_not_bit _ _ _ (Nat.mod_lt i (by omega)) (Nat.mod_lt k (by omega))]
    by_cases hk : k = i
    · simp [hk]
    · have : k % 8 ≠ i % 8 := by omega
      rw [if_neg hk, bitGet, hb, List.getElem?_eq_getElem h8]
      simp [this]
  · have hk : k ≠ i := fun e => hb (by rw [e])
    rw [if_neg hb, if_neg hk]

/-- Two buffers of one length with the same bits are the same. -/
theorem bitGet_ext {a b : List Byte} (hl : a.length = b.length)
    (h : ∀ k < 8 * a.length, bitGet a k = bitGet b k) : a = b := by
  apply List.ext_getElem hl
  intro n hn hn'
  apply BitVec.eq_of_getLsbD_eq
  intro i hi
  have hk := h (8 * n + i) (by omega)
  have hd : (8 * n + i) / 8 = n := by omega
  have hm : (8 * n + i) % 8 = i := by omega
  simp only [bitGet, hd, hm, List.getElem?_eq_getElem hn, List.getElem?_eq_getElem hn',
    Option.map_some, Option.some.injEq] at hk
  exact hk

@[simp] theorem zeroBytes_length (n : Nat) : (zeroBytes n).length = n := by simp [zeroBytes]

theorem bitGet_zeroBytes {n k : Nat} (h : k < 8 * n) : bitGet (zeroBytes n) k = some false := by
  have h8 : k / 8 < n := (div8_lt_iff _ _).mpr h
  simp [bitGet, zeroBytes, h8]

/-- The loop that copies bits: inside both buffers, onto bits that are 0, it copies `n` bits from `off`
on and leaves every other bit. -/
theorem copyBits_spec (src : List Byte) (off : Nat) (dst : List Byte) :
    ∀ n, off + n ≤ 8 * src.length → n ≤ 8 * dst.length →
      (∀ k < n, bitGet dst k = some false) →
      ∃ out, copyBits src off n dst = some out ∧ out.length = dst.length ∧
        ∀ k, bitGet out k = if k < n then bitGet src (off + k) else bitGet dst k := by
  intro n
  induction n with
  | zero => intro _ _ _; exact ⟨dst, rfl, rfl, fun k => by simp⟩
  | succ n ih =>
    intro hs hd hz
    obtain ⟨out, ho, hl, hb⟩ := ih (by omega) (by omega) (fun k hk => hz k (by omega))
    obtain ⟨v, hv⟩ := bitGet_of_lt (buf := src) (i := off + n) (by omega)
    have hstep : copyBits src off (n + 1) dst = if v then bitSet out n else some out := by
      simp only [copyBits] at ho ⊢
      simp [bitLoop, ho, hv]
    have hn0 : bitGet out n = some false := by rw [hb n, if_neg (by omega)]; exact hz n (by omega)
    cases v with
    | false =>
      refine ⟨out, by rw [hstep]; simp, hl, fun k => ?_⟩
      rw [hb k]
      by_cases hk : k < n
      · rw [if_pos hk, if_pos (by omega)]
      · by_cases hk' : k = n
        · subst hk'
          rw [if_neg hk, if_pos (by omega), hv]; exact hz k (by omega)
        · rw [if_neg hk, if_neg (by omega)]
    | true =>
      obtain ⟨out', ho', hl', hb'⟩ := bitSet_spec (buf := out) (i := n) (by omega)
      refine ⟨out', by rw [hstep]; simpa using ho', by omega, fun k => ?_⟩
      rw [hb' k]
      by_cases hk' : k = n
      · subst hk'; rw [if_pos rfl, if_pos (by omega), hv]
      · rw [if_neg hk', hb k]
        by_cases hk : k < n
        · rw [if_pos hk, if_pos (by omega)]
        · rw [if_neg hk, if_neg (by omega)]

theorem valBe_lt (a : List Byte) : valBe a < 256 ^ a.length := by
  induction a with
  | nil => simp [valBe]
  | cons b bs ih =>
    have hb := b.isLt
    simp only [valBe, List.length_cons, Nat.pow_succ]
    nlinarith [Nat.pow_pos (n := bs.length) (show 0 < 256 by norm_num)]

/-- A byte sequence is its big-endian value. -/
theorem valBe_inj {a b : List Byte} (hl : a.length = b.length) (h : valBe a = valBe b) : a = b := by
  induction a generalizing b with
  | nil => cases b with
    | nil => rfl
    | cons => simp at hl
  | cons x xs ih =>
    cases b with
    | nil => simp at hl
    | cons y ys =>
      have hl' : xs.length = ys.length := by simpa using hl
      simp only [valBe, hl'] at h
      have hx := valBe_lt xs
      have hy := valBe_lt ys
      rw [hl'] at hx
      have hp : 0 < 256 ^ ys.length := by positivity
      have h1 : x.toNat = y.toNat := by
        have e1 : (x.toNat * 256 ^ ys.length + valBe xs) / 256 ^ ys.length = x.toNat := by
          rw [Nat.mul_comm, Nat.mul_add_div hp, Nat.div_eq_of_lt hx, Nat.add_zero]
        have e2 : (y.toNat * 256 ^ ys.length + valBe ys) / 256 ^ ys.length = y.toNat := by
          rw [Nat.mul_comm, Nat.mul_add_div hp, Nat.div_eq_of_lt hy, Nat.add_zero]
        rw [← e1, ← e2, h]
      have h2 : valBe xs = valBe ys := by rw [h1] at h; omega
      rw [BitVec.eq_of_toNat_eq h1, ih hl' h2]

end Sys2Proof.Machine
end

