-- ==== Sys2Proof/Laws/Permutator.lean ====
section
/-! SUPPORT. What the permutator's operations can do, on a permutator that keeps the permutator
invariants. -/

namespace Sys2Proof.Machine

theorem rotatedSlice_length {src : List Byte} {c : Cycle} (h : c.start + c.length ≤ src.length) :
    (rotatedSlice src c).length = c.length := by
  simp only [rotatedSlice, List.length_append, List.length_drop, List.length_take]
  have := Nat.mod_le c.current c.length
  omega

/-- A rotated slice holds the entries of its slice. -/
theorem rotatedSlice_perm (src : List Byte) (c : Cycle) :
    (rotatedSlice src c).Perm ((src.drop c.start).take c.length) := by
  simp only [rotatedSlice]
  exact List.perm_append_comm.trans (by rw [List.take_append_drop])

/-- Entry `k` of a rotated slice (spec/42_permutator.md R172). -/
theorem rotatedSlice_getElem? {src : List Byte} {c : Cycle} (h : c.start + c.length ≤ src.length)
    {k : Nat} (hk : k < c.length) :
    (rotatedSlice src c)[k]? = src[c.start + (c.current + k) % c.length]? := by
  simp only [rotatedSlice]
  have hm : c.current % c.length < c.length := Nat.mod_lt _ (by omega)
  have hmod : (c.current + k) % c.length = (c.current % c.length + k) % c.length := by
    rw [Nat.mod_add_mod]
  rw [hmod]
  generalize c.current % c.length = m at *
  have hl : (List.drop m (List.take c.length (List.drop c.start src))).length = c.length - m := by
    simp only [List.length_drop, List.length_take]; omega
  by_cases hlt : m + k < c.length
  · rw [List.getElem?_append_left (by omega), List.getElem?_drop, List.getElem?_take_of_lt (by omega),
      List.getElem?_drop, Nat.mod_eq_of_lt hlt]
  · rw [List.getElem?_append_right (by omega), hl, List.getElem?_take_of_lt (by omega),
      List.getElem?_take_of_lt (by omega), List.getElem?_drop, Nat.mod_eq_sub_mod (by omega),
      Nat.mod_eq_of_lt (by omega)]
    congr 1; omega

/-- Cycles that start where the ones before them end, from `acc` on (spec/10_state.md R29 (a)). -/
def Consecutive (acc : Nat) (cs : List Cycle) : Prop :=
  cs.map (fun c => { c with current := 0 }) = cyclesFrom acc (cs.map Cycle.length)

theorem consecutive_cons {acc : Nat} {c : Cycle} {cs : List Cycle} :
    Consecutive acc (c :: cs) ↔ c.start = acc ∧ Consecutive (acc + c.length) cs := by
  simp [Consecutive, cyclesFrom]

theorem consecutive_nil (acc : Nat) : Consecutive acc [] := rfl

theorem consecutive_cyclesFrom (acc : Nat) (ns : List Nat) : Consecutive acc (cyclesFrom acc ns) := by
  induction ns generalizing acc with
  | nil => exact consecutive_nil acc
  | cons n ns ih => exact consecutive_cons.mpr ⟨rfl, ih (acc + n)⟩

theorem cyclesFrom_lengths (acc : Nat) (ns : List Nat) : (cyclesFrom acc ns).map Cycle.length = ns := by
  induction ns generalizing acc with
  | nil => rfl
  | cons n ns ih => simp [cyclesFrom, ih]

theorem cyclesFrom_current (acc : Nat) (ns : List Nat) : ∀ c ∈ cyclesFrom acc ns, c.current = 0 := by
  induction ns generalizing acc with
  | nil => intro c hc; simp [cyclesFrom] at hc
  | cons n ns ih =>
    intro c hc
    rcases List.mem_cons.mp hc with rfl | hc
    · rfl
    · exact ih _ c hc

/-- Turning the cycles moves none of them. -/
theorem consecutive_map {acc : Nat} {cs : List Cycle} (f : Cycle → Nat) :
    Consecutive acc (cs.map fun c => { c with current := f c }) ↔ Consecutive acc cs := by
  simp [Consecutive, List.map_map, Function.comp_def]

theorem lengths_map (cs : List Cycle) (f : Cycle → Nat) :
    (cs.map fun c => { c with current := f c }).map Cycle.length = cs.map Cycle.length := by
  simp [List.map_map, Function.comp_def]

/-- A rebuild writes the rotated slices, one after the other, over the table
(spec/42_permutator.md R172). -/
theorem foldl_rebuildSlice (src : List Byte) (cs : List Cycle) :
    ∀ (acc : Nat) (t : List Byte), Consecutive acc cs → t.length = src.length →
      acc + (cs.map Cycle.length).sum ≤ src.length →
      cs.foldl (rebuildSlice src) t =
        t.take acc ++ cs.flatMap (rotatedSlice src) ++ t.drop (acc + (cs.map Cycle.length).sum) := by
  induction cs with
  | nil => intro acc t _ _ _; simp
  | cons c cs ih =>
    intro acc t hc ht hs
    obtain ⟨hst, hc'⟩ := consecutive_cons.mp hc
    simp only [List.map_cons, List.sum_cons] at hs
    have hr : (rotatedSlice src c).length = c.length := rotatedSlice_length (by omega)
    have htk : (t.take acc).length = acc := by rw [List.length_take]; omega
    have hlen : (rebuildSlice src t c).length = src.length := by
      simp only [rebuildSlice, List.length_append, List.length_take, List.length_drop, hr]
      omega
    rw [List.foldl_cons, ih (acc + c.length) _ hc' hlen (by omega)]
    simp only [rebuildSlice, hst, List.map_cons, List.sum_cons, List.flatMap_cons]
    have e1 : (t.take acc ++ rotatedSlice src c ++ t.drop (acc + c.length)).take (acc + c.length) =
        t.take acc ++ rotatedSlice src c := by
      apply List.take_left'; simp [htk, hr]
    have e2 : (t.take acc ++ rotatedSlice src c ++ t.drop (acc + c.length)).drop
        (acc + c.length + (cs.map Cycle.length).sum) =
        t.drop (acc + (c.length + (cs.map Cycle.length).sum)) := by
      rw [List.drop_append]
      have : (t.take acc ++ rotatedSlice src c).length = acc + c.length := by simp [htk, hr]
      rw [List.drop_eq_nil_of_le (by omega), this, List.nil_append, List.drop_drop]
      congr 1; omega
    rw [e1, e2]
    simp [List.append_assoc]

/-- The slices of consecutive cycles, one after the other, are the source from `acc` on. -/
theorem flatMap_slices (src : List Byte) (cs : List Cycle) :
    ∀ acc, Consecutive acc cs → acc + (cs.map Cycle.length).sum = src.length →
      cs.flatMap (fun c => (src.drop c.start).take c.length) = src.drop acc := by
  induction cs with
  | nil => intro acc _ h; simp at h; simp [h]
  | cons c cs ih =>
    intro acc hc hs
    obtain ⟨hst, hc'⟩ := consecutive_cons.mp hc
    simp only [List.map_cons, List.sum_cons] at hs
    rw [List.flatMap_cons, ih (acc + c.length) hc' (by omega), hst, ← List.drop_drop,
      List.take_append_drop]

theorem flatMap_perm {α β : Type} {f g : α → List β} (cs : List α) (h : ∀ c ∈ cs, (f c).Perm (g c)) :
    (cs.flatMap f).Perm (cs.flatMap g) := by
  induction cs with
  | nil => exact .refl _
  | cons c cs ih =>
    simp only [List.flatMap_cons]
    exact (h c (by simp)).append (ih fun d hd => h d (by simp [hd]))

theorem flatMap_rotatedSlice_getElem? (src : List Byte) (cs : List Cycle) :
    ∀ acc, Consecutive acc cs → acc + (cs.map Cycle.length).sum ≤ src.length →
      ∀ c ∈ cs, acc ≤ c.start ∧ ∀ k < c.length, (cs.flatMap (rotatedSlice src))[c.start - acc + k]? =
        src[c.start + (c.current + k) % c.length]? := by
  induction cs with
  | nil => intro _ _ _ c hc; simp at hc
  | cons d cs ih =>
    intro acc hc hs c hmem
    obtain ⟨hst, hc'⟩ := consecutive_cons.mp hc
    simp only [List.map_cons, List.sum_cons] at hs
    have hr : (rotatedSlice src d).length = d.length := rotatedSlice_length (by omega)
    rcases List.mem_cons.mp hmem with rfl | hmem
    · refine ⟨by omega, fun k hk => ?_⟩
      rw [List.flatMap_cons, List.getElem?_append_left (by omega)]
      rw [show c.start - acc + k = k by omega]
      exact rotatedSlice_getElem? (by omega) hk
    · obtain ⟨hle, hg⟩ := ih (acc + d.length) hc' (by omega) c hmem
      refine ⟨by omega, fun k hk => ?_⟩
      rw [List.flatMap_cons, List.getElem?_append_right (by omega), hr, ← hg k hk]
      congr 1; omega

theorem isBijection_length {t : List Byte} (h : isBijection t = true) : t.length = 256 := by
  simp only [isBijection, Bool.and_eq_true, beq_iff_eq] at h
  exact h.1

theorem isBijection_mem {t : List Byte} (h : isBijection t = true) (v : Byte) : v ∈ t := by
  simp only [isBijection, Bool.and_eq_true, List.all_eq_true, List.mem_range,
    List.contains_iff_mem] at h
  have := h.2 v.toNat v.isLt
  simpa using this

theorem isBijection_of_mem {t : List Byte} (hl : t.length = 256) (h : ∀ v : Byte, v ∈ t) :
    isBijection t = true := by
  simp only [isBijection, Bool.and_eq_true, beq_iff_eq, List.all_eq_true, List.contains_iff_mem]
  exact ⟨hl, fun v _ => h _⟩

theorem isBijection_perm {t u : List Byte} (hp : t.Perm u) (h : isBijection u = true) :
    isBijection t = true :=
  isBijection_of_mem (hp.length_eq.trans (isBijection_length h))
    fun v => hp.mem_iff.mpr (isBijection_mem h v)

/-- A table that holds every value holds each once. -/
theorem isBijection_nodup {t : List Byte} (h : isBijection t = true) : t.Nodup := by
  have hl := isBijection_length h
  have hs : t.toFinset = Finset.univ := by
    ext v; simp [isBijection_mem h v]
  have hc : t.toFinset.card = t.length := by
    rw [hs, hl, Finset.card_univ]
    exact (Fintype.card_congr (BitVec.equivFin (m := 8)).toEquiv).trans (Fintype.card_fin _)
  exact List.dedup_eq_self.mp (List.Sublist.eq_of_length (List.dedup_sublist t)
    ((List.card_toFinset t).symm.trans hc))

/-- A rebuild over a table of 256 entries gives the rotated slices (spec/42_permutator.md R172). -/
theorem permutatorRebuild_bitTable {p : Permutator} (hc : Consecutive 0 p.cycles)
    (hs : (p.cycles.map Cycle.length).sum = 256) (hsrc : p.tableSource.length = 256)
    (ht : p.bitTable.length = 256) :
    (permutatorRebuild p).bitTable = p.cycles.flatMap (rotatedSlice p.tableSource) := by
  have h := foldl_rebuildSlice p.tableSource p.cycles 0 p.bitTable hc (by omega) (by omega)
  simp only [permutatorRebuild]
  rw [h, hs, List.drop_eq_nil_of_le (by omega)]
  simp

/-- A rebuilt table holds the entries of the source (spec/42_permutator.md R172). -/
theorem permutatorRebuild_perm {p : Permutator} (hc : Consecutive 0 p.cycles)
    (hs : (p.cycles.map Cycle.length).sum = 256) (hsrc : p.tableSource.length = 256)
    (ht : p.bitTable.length = 256) : (permutatorRebuild p).bitTable.Perm p.tableSource := by
  rw [permutatorRebuild_bitTable hc hs hsrc ht]
  refine (flatMap_perm p.cycles fun c _ => rotatedSlice_perm p.tableSource c).trans ?_
  rw [flatMap_slices p.tableSource p.cycles 0 hc (by omega)]
  simp

/-- What a rebuild needs to give a sound permutator. -/
theorem permutatorRebuild_ok {p : Permutator} (h1 : ∀ c ∈ p.cycles, 1 ≤ c.length)
    (h2 : (p.cycles.map Cycle.length).sum = 256) (h3 : Consecutive 0 p.cycles)
    (h4 : ∀ c ∈ p.cycles, c.current = p.currentState % c.length)
    (h5 : p.maximalStates = (p.cycles.map Cycle.length).prod) (h6 : p.currentState < p.maximalStates)
    (h7 : isBijection p.tableSource = true) (h8 : p.bitTable.length = 256) :
    PermutatorOk (permutatorRebuild p) := by
  have hsrc := isBijection_length h7
  have hlen : (permutatorRebuild p).bitTable.length = 256 :=
    (permutatorRebuild_perm h3 h2 hsrc h8).length_eq.trans hsrc
  refine ⟨h1, h2, h3, h4, h5, h6, h7, ?_, hlen⟩
  rw [permutatorRebuild_bitTable (p := permutatorRebuild p) h3 h2 hsrc hlen,
    permutatorRebuild_bitTable h3 h2 hsrc h8]
  rfl

theorem PermutatorOk.consecutive {p : Permutator} (h : PermutatorOk p) : Consecutive 0 p.cycles :=
  h.starts

theorem PermutatorOk.bijection {p : Permutator} (h : PermutatorOk p) :
    isBijection p.bitTable = true := by
  rw [← h.table]
  exact isBijection_perm (permutatorRebuild_perm h.consecutive h.lengths_sum
    (isBijection_length h.source) h.table_length) h.source

theorem PermutatorOk.maximal_pos {p : Permutator} (h : PermutatorOk p) : 0 < p.maximalStates :=
  Nat.lt_of_le_of_lt (Nat.zero_le _) h.state_lt

theorem length_dvd_prod {c : Cycle} {cs : List Cycle} (h : c ∈ cs) :
    c.length ∣ (cs.map Cycle.length).prod :=
  List.dvd_prod (List.mem_map_of_mem h)

/-- `PRM.ADVANCE` keeps the invariants (spec/42_permutator.md R173). -/
theorem permutatorAdvance_ok {p : Permutator} (h : PermutatorOk p) :
    PermutatorOk (permutatorAdvance p) := by
  refine permutatorRebuild_ok ?_ ?_ ?_ ?_ ?_ (Nat.mod_lt _ h.maximal_pos) h.source h.table_length
  · intro c hc
    obtain ⟨d, hd, rfl⟩ := List.mem_map.mp hc
    exact h.lengths_pos d hd
  · rw [lengths_map]; exact h.lengths_sum
  · exact (consecutive_map _).mpr h.consecutive
  · intro c hc
    obtain ⟨d, hd, rfl⟩ := List.mem_map.mp hc
    simp only
    rw [h.currents d hd, Nat.mod_add_mod, Nat.mod_mod_of_dvd _ (h.maximal ▸ length_dvd_prod hd)]
  · rw [lengths_map]; exact h.maximal

/-- `seek(idx)` keeps the invariants (spec/42_permutator.md R177). -/
theorem permutatorSeek_ok {p : Permutator} (h : PermutatorOk p) (idx : Nat) :
    PermutatorOk (permutatorSeek idx p) := by
  refine permutatorRebuild_ok ?_ ?_ ?_ ?_ ?_ (Nat.mod_lt _ h.maximal_pos) h.source h.table_length
  · intro c hc
    obtain ⟨d, hd, rfl⟩ := List.mem_map.mp hc
    exact h.lengths_pos d hd
  · rw [lengths_map]; exact h.lengths_sum
  · exact (consecutive_map _).mpr h.consecutive
  · intro c hc
    obtain ⟨d, _, rfl⟩ := List.mem_map.mp hc
    rfl
  · rw [lengths_map]; exact h.maximal

/-- `PRM.NEW` builds a sound permutator out of parameters that pass its checks, and at index 0 the table
is the source (spec/42_permutator.md R171). -/
theorem permutatorBuild_spec {q : Params} {lengths : List Nat} {table : List Byte}
    (h : permutatorParamsOk q lengths table = true) :
    PermutatorOk (permutatorBuild lengths table) ∧
      (permutatorBuild lengths table).bitTable = table := by
  simp only [permutatorParamsOk, Bool.and_eq_true, decide_eq_true_eq, List.all_eq_true, bne_iff_ne,
    beq_iff_eq] at h
  obtain ⟨⟨⟨⟨h1, -⟩, h2⟩, h3⟩, h4⟩ := h
  have hl := isBijection_length h4
  have hcur := cyclesFrom_current 0 lengths
  have hok : PermutatorOk (permutatorBuild lengths table) := by
    refine permutatorRebuild_ok ?_ ?_ (consecutive_cyclesFrom 0 lengths) ?_ ?_ ?_ h4 hl
    · intro c hc
      have : c.length ∈ lengths := by
        rw [← cyclesFrom_lengths 0 lengths]; exact List.mem_map_of_mem hc
      have := h2 _ this
      omega
    · rw [cyclesFrom_lengths]; exact h3
    · intro c hc; simp [hcur c hc]
    · rw [cyclesFrom_lengths]
    · exact List.prod_pos fun n hn => Nat.pos_of_ne_zero (h2 n hn)
  refine ⟨hok, ?_⟩
  have hb := permutatorRebuild_bitTable (p := ⟨0, lengths.prod, cyclesFrom 0 lengths, table, table⟩)
    (consecutive_cyclesFrom 0 lengths) (by rw [cyclesFrom_lengths]; exact h3) hl hl
  rw [permutatorBuild, hb]
  have hf : ∀ c ∈ cyclesFrom 0 lengths,
      rotatedSlice table c = (table.drop c.start).take c.length := by
    intro c hc
    simp [rotatedSlice, hcur c hc]
  rw [List.flatMap_congr hf, flatMap_slices table _ 0 (consecutive_cyclesFrom 0 lengths)
    (by rw [cyclesFrom_lengths, h3, hl]), List.drop_zero]

/-- The places of a bijective table are as different as its entries. -/
theorem bijection_inj {t : List Byte} (h : isBijection t = true) {i j : Nat} {v : Byte}
    (hi : t[i]? = some v) (hj : t[j]? = some v) : i = j := by
  obtain ⟨hil, hi⟩ := List.getElem?_eq_some_iff.mp hi
  obtain ⟨hjl, hj⟩ := List.getElem?_eq_some_iff.mp hj
  exact (List.Nodup.getElem_inj_iff (isBijection_nodup h)).mp (hi.trans hj.symm)

theorem table_get {t : List Byte} (hl : t.length = 256) {i : Nat} (hi : i < 256) :
    ∃ v, t[i]? = some v :=
  ⟨t[i], List.getElem?_eq_getElem (by omega)⟩

/-- The scatter puts input bit `i` to bit `bit_table[i]` (spec/42_permutator.md R175). -/
theorem scatter_spec {t : List Byte} (ht : isBijection t = true) {blk : Block}
    (hb : blk.length = 32) :
    ∃ out, scatter t blk = some out ∧ out.length = 32 ∧
      ∀ i v, t[i]? = some v → bitGet out v.toNat = bitGet blk i := by
  have htl := isBijection_length ht
  suffices H : ∀ n ≤ 256, ∃ out,
      bitLoop (fun i out => (bitGet blk i).bind fun b =>
        if b then (t[i]?).bind fun v => bitSet out v.toNat else some out) n (zeroBytes 32) =
          some out ∧ out.length = 32 ∧
      (∀ i v, t[i]? = some v → bitGet out v.toNat = if i < n then bitGet blk i else some false) by
    obtain ⟨out, h1, h2, h3⟩ := H 256 (Nat.le_refl _)
    refine ⟨out, h1, h2, fun i v hi => ?_⟩
    have hil : i < 256 := by
      by_contra hc; rw [List.getElem?_eq_none (by omega)] at hi; cases hi
    rw [h3 i v hi, if_pos hil]
  intro n
  induction n with
  | zero =>
    intro _
    refine ⟨zeroBytes 32, rfl, by simp, fun i v _ => ?_⟩
    rw [if_neg (by omega), bitGet_zeroBytes (by have := v.isLt; omega)]
  | succ n ih =>
    intro hn
    obtain ⟨out, h1, h2, h3⟩ := ih (by omega)
    obtain ⟨b, hbn⟩ := bitGet_of_lt (buf := blk) (i := n) (by omega)
    obtain ⟨v, hv⟩ := table_get htl (i := n) (by omega)
    cases b with
    | false =>
      refine ⟨out, by simp [bitLoop, h1, hbn], h2, fun i w hi => ?_⟩
      rw [h3 i w hi]
      by_cases hin : i < n
      · rw [if_pos hin, if_pos (by omega)]
      · by_cases he : i = n
        · subst he; rw [if_neg hin, if_pos (by omega), hbn]
        · rw [if_neg hin, if_neg (by omega)]
    | true =>
      obtain ⟨out', g1, g2, g3⟩ := bitSet_spec (buf := out) (i := v.toNat)
        (by have := v.isLt; omega)
      refine ⟨out', by simp [bitLoop, h1, hbn, hv, g1], by omega, fun i w hi => ?_⟩
      rw [g3 w.toNat]
      by_cases he : i = n
      · subst he
        have : w = v := by rw [hv] at hi; exact (Option.some.inj hi).symm
        rw [if_pos (by rw [this]), if_pos (by omega), hbn]
      · have hne : w.toNat ≠ v.toNat := fun e =>
          he (bijection_inj ht hi (by rw [hv, BitVec.eq_of_toNat_eq e]))
        rw [if_neg hne, h3 i w hi]
        by_cases hin : i < n
        · rw [if_pos hin, if_pos (by omega)]
        · rw [if_neg hin, if_neg (by omega)]

/-- The inverse of the scatter reads output bit `i` from bit `bit_table[i]`
(spec/42_permutator.md R176). -/
theorem gather_spec {t : List Byte} (htl : t.length = 256) {blk : Block} (hb : blk.length = 32) :
    ∃ out, gather t blk = some out ∧ out.length = 32 ∧
      ∀ i v, t[i]? = some v → bitGet out i = bitGet blk v.toNat := by
  suffices H : ∀ n ≤ 256, ∃ out,
      bitLoop (fun i out => (t[i]?).bind fun v => (bitGet blk v.toNat).bind fun b =>
        if b then bitSet out i else some out) n (zeroBytes 32) = some out ∧ out.length = 32 ∧
      (∀ i v, t[i]? = some v → bitGet out i = if i < n then bitGet blk v.toNat else some false) by
    obtain ⟨out, h1, h2, h3⟩ := H 256 (Nat.le_refl _)
    refine ⟨out, h1, h2, fun i v hi => ?_⟩
    have hil : i < 256 := by
      by_contra hc; rw [List.getElem?_eq_none (by omega)] at hi; cases hi
    rw [h3 i v hi, if_pos hil]
  intro n
  induction n with
  | zero =>
    intro _
    refine ⟨zeroBytes 32, rfl, by simp, fun i v hi => ?_⟩
    have hil : i < 256 := by
      by_contra hc; rw [List.getElem?_eq_none (by omega)] at hi; cases hi
    rw [if_neg (by omega), bitGet_zeroBytes (by omega)]
  | succ n ih =>
    intro hn
    obtain ⟨out, h1, h2, h3⟩ := ih (by omega)
    obtain ⟨v, hv⟩ := table_get htl (i := n) (by omega)
    obtain ⟨b, hbn⟩ := bitGet_of_lt (buf := blk) (i := v.toNat) (by have := v.isLt; omega)
    cases b with
    | false =>
      refine ⟨out, by simp [bitLoop, h1, hbn, hv], h2, fun i w hi => ?_⟩
      rw [h3 i w hi]
      by_cases hin : i < n
      · rw [if_pos hin, if_pos (by omega)]
      · by_cases he : i = n
        · subst he
          have : w = v := by rw [hv] at hi; exact (Option.some.inj hi).symm
          rw [if_neg hin, if_pos (by omega), this, hbn]
        · rw [if_neg hin, if_neg (by omega)]
    | true =>
      obtain ⟨out', g1, g2, g3⟩ := bitSet_spec (buf := out) (i := n) (by omega)
      refine ⟨out', by simp [bitLoop, h1, hbn, hv, g1], by omega, fun i w hi => ?_⟩
      rw [g3 i]
      by_cases he : i = n
      · subst he
        have : w = v := by rw [hv] at hi; exact (Option.some.inj hi).symm
        rw [if_pos rfl, if_pos (by omega), this, hbn]
      · rw [if_neg he, h3 i w hi]
        by_cases hin : i < n
        · rw [if_pos hin, if_pos (by omega)]
        · rw [if_neg hin, if_neg (by omega)]

/-- A rebuild writes every entry of the table (spec/42_permutator.md R172). -/
theorem permutatorRebuild_rebuilt {p : Permutator} (hc : Consecutive 0 p.cycles)
    (hs : (p.cycles.map Cycle.length).sum = 256) (hsrc : p.tableSource.length = 256)
    (ht : p.bitTable.length = 256) : Rebuilt (permutatorRebuild p) := by
  refine ⟨(permutatorRebuild_perm hc hs hsrc ht).length_eq.trans hsrc, fun c hm k hk => ?_⟩
  rw [permutatorRebuild_bitTable hc hs hsrc ht]
  simpa [permutatorRebuild] using
    (flatMap_rotatedSlice_getElem? p.tableSource p.cycles 0 hc (by omega) c hm).2 k hk

/-- The table of a sound permutator is rebuilt (spec/10_state.md R29 (f)). -/
theorem PermutatorOk.rebuilt {p : Permutator} (h : PermutatorOk p) : Rebuilt p := by
  have h1 := permutatorRebuild_rebuilt h.consecutive h.lengths_sum (isBijection_length h.source)
    h.table_length
  have e : permutatorRebuild p = p := by
    have := h.table
    simp only [permutatorRebuild] at this ⊢
    rw [this]
  rwa [e] at h1

/-- The transforms are total: a full block is scattered or gathered, a shorter one passes, and the
permutator advances (spec/42_permutator.md R173 to R176). -/
theorem permutatorApply_step {p : Permutator} (h : PermutatorOk p) (d : Direction) {b : Block} :
    ∃ out, permutatorApply d p b = some (out, permutatorAdvance p) ∧
      PermutatorStep d p b out (permutatorAdvance p) := by
  have hr := (permutatorAdvance_ok h).rebuilt
  by_cases hb : b.length = 32
  · cases d with
    | forward =>
      obtain ⟨out, h1, h2, h3⟩ := scatter_spec h.bijection hb
      exact ⟨out, by simp [permutatorApply, hb, h1], by omega, fun _ => h3, fun hc => by omega, rfl, hr⟩
    | inverse =>
      obtain ⟨out, h1, h2, h3⟩ := gather_spec h.table_length hb
      exact ⟨out, by simp [permutatorApply, hb, h1], by omega, fun _ => h3, fun hc => by omega, rfl, hr⟩
  · exact ⟨b, by simp [permutatorApply, hb], rfl, fun hc => absurd hc hb, fun _ => rfl, rfl, hr⟩

/-- The transforms keep the length and advance the permutator (spec/42_permutator.md R174 to R176). -/
theorem permutatorApply_spec {p : Permutator} (h : PermutatorOk p) (d : Direction) {b : Block} :
    ∃ out, permutatorApply d p b = some (out, permutatorAdvance p) ∧ out.length = b.length := by
  obtain ⟨out, h1, h2, -⟩ := permutatorApply_step h d (b := b)
  exact ⟨out, h1, h2⟩

/-- A rebuild depends on the cycles and the source only (spec/10_state.md R29 (f)). -/
theorem permutatorRebuild_table_irrelevant {p : Permutator} {t : List Byte}
    (hc : Consecutive 0 p.cycles) (hs : (p.cycles.map Cycle.length).sum = 256)
    (hsrc : p.tableSource.length = 256) (ht : p.bitTable.length = 256) (ht' : t.length = 256) :
    permutatorRebuild { p with bitTable := t } = permutatorRebuild p := by
  have h1 := permutatorRebuild_bitTable (p := { p with bitTable := t }) hc hs hsrc ht'
  have h2 := permutatorRebuild_bitTable hc hs hsrc ht
  have h3 : (permutatorRebuild { p with bitTable := t }).bitTable = (permutatorRebuild p).bitTable :=
    h1.trans h2.symm
  simp only [permutatorRebuild] at h3 ⊢
  rw [h3]

/-- Seeking again goes where the last seek says (spec/42_permutator.md R177). -/
theorem permutatorSeek_permutatorSeek {p : Permutator} (h : PermutatorOk p) (i j : Nat) :
    permutatorSeek i (permutatorSeek j p) = permutatorSeek i p := by
  have hj := permutatorSeek_ok h j
  have e : permutatorSeek i (permutatorSeek j p) =
      permutatorRebuild { ({ p with
        currentState := i % p.maximalStates
        cycles := p.cycles.map fun c => { c with current := i % p.maximalStates % c.length } } :
          Permutator) with bitTable := (permutatorSeek j p).bitTable } := by
    simp [permutatorSeek, permutatorRebuild, List.map_map, Function.comp_def]
  rw [e]
  exact permutatorRebuild_table_irrelevant ((consecutive_map _).mpr h.consecutive)
    (by rw [lengths_map]; exact h.lengths_sum) (isBijection_length h.source) h.table_length
    hj.table_length

/-- One advance after a seek (spec/42_permutator.md R180). -/
theorem permutatorAdvance_permutatorSeek {p : Permutator} (h : PermutatorOk p) (i : Nat) :
    permutatorAdvance (permutatorSeek i p) = permutatorSeek (i + 1) p := by
  have hj := permutatorSeek_ok h i
  have hcur : ∀ c ∈ p.cycles, (i % p.maximalStates + 1) % c.length =
      (i + 1) % p.maximalStates % c.length := by
    intro c hc
    have hd : c.length ∣ p.maximalStates := h.maximal ▸ length_dvd_prod hc
    rw [Nat.mod_mod_of_dvd _ hd, ← Nat.mod_add_mod (i % p.maximalStates), Nat.mod_mod_of_dvd _ hd,
      Nat.mod_add_mod]
  have e : permutatorAdvance (permutatorSeek i p) =
      permutatorRebuild { ({ p with
        currentState := (i + 1) % p.maximalStates
        cycles := p.cycles.map fun c => { c with current := (i + 1) % p.maximalStates % c.length } } :
          Permutator) with bitTable := (permutatorSeek i p).bitTable } := by
    simp only [permutatorSeek, permutatorAdvance, permutatorRebuild, List.map_map,
      Function.comp_def, Nat.mod_add_mod]
    rw [List.map_congr_left (fun c hc => by rw [hcur c hc])]
  rw [e]
  exact permutatorRebuild_table_irrelevant ((consecutive_map _).mpr h.consecutive)
    (by rw [lengths_map]; exact h.lengths_sum) (isBijection_length h.source) h.table_length
    hj.table_length

end Sys2Proof.Machine
end

