-- ==== Sys2Proof/Laws/Combiner.lean ====
section
/-! SUPPORT. What the byte loops of the Block Combiner compute. -/

namespace Sys2Proof.Machine

theorem addCarry_length (a b : Block) (h : a.length = b.length) :
    (addCarry a b).2.length = a.length := by
  induction a generalizing b with
  | nil => cases b <;> simp_all [addCarry]
  | cons x xs ih =>
    cases b with
    | nil => simp at h
    | cons y ys => simp [addCarry, ih ys (by simpa using h)]

theorem addBlock_length {a b : Block} (h : a.length = b.length) :
    (addBlock a b).length = a.length := addCarry_length a b h

theorem subBorrow_length (a b : Block) (h : a.length = b.length) :
    (subBorrow a b).2.length = a.length := by
  induction a generalizing b with
  | nil => cases b <;> simp_all [subBorrow]
  | cons x xs ih =>
    cases b with
    | nil => simp at h
    | cons y ys =>
      have := ih ys (by simpa using h)
      simp only [subBorrow]
      split <;> simp [this]

theorem subBlock_length {a b : Block} (h : a.length = b.length) :
    (subBlock a b).length = a.length := subBorrow_length a b h

theorem xorBlock_length {a b : Block} (h : a.length = b.length) :
    (xorBlock a b).length = a.length := by simp [xorBlock, h]

/-- The carry loop loses nothing: the result and the carry out of byte 0 are the sum. -/
theorem addCarry_spec (a b : Block) (h : a.length = b.length) :
    valBe (addCarry a b).2 + (addCarry a b).1 * 256 ^ a.length = valBe a + valBe b := by
  induction a generalizing b with
  | nil => cases b <;> simp_all [addCarry, valBe]
  | cons x xs ih =>
    cases b with
    | nil => simp at h
    | cons y ys =>
      have hl : xs.length = ys.length := by simpa using h
      have hi := ih ys hl
      have hlen := addCarry_length xs ys hl
      simp only [addCarry, valBe, List.length_cons, hlen, BitVec.toNat_ofNat, Nat.pow_succ 256, ← hl]
      generalize (addCarry xs ys).1 = c at *
      generalize valBe (addCarry xs ys).2 = r at *
      have hd := Nat.div_add_mod (x.toNat + y.toNat + c) 256
      rw [show (x.toNat + y.toNat + c) % 256 % 2 ^ 8 = (x.toNat + y.toNat + c) % 256 by omega]
      generalize (x.toNat + y.toNat + c) / 256 = q at *
      generalize (x.toNat + y.toNat + c) % 256 = m at *
      generalize 256 ^ xs.length = p at *
      calc m * p + r + q * (p * 256) = (256 * q + m) * p + r := by ring
        _ = (x.toNat + y.toNat + c) * p + r := by rw [hd]
        _ = x.toNat * p + y.toNat * p + (r + c * p) := by ring
        _ = x.toNat * p + valBe xs + (y.toNat * p + valBe ys) := by rw [hi]; ring

/-- The borrow loop loses nothing: the result and the subtrahend are the minuend and the borrow out of
byte 0. -/
theorem subBorrow_spec (a b : Block) (h : a.length = b.length) :
    valBe (subBorrow a b).2 + valBe b = valBe a + (subBorrow a b).1 * 256 ^ a.length ∧
      (subBorrow a b).1 ≤ 1 := by
  induction a generalizing b with
  | nil => cases b <;> simp_all [subBorrow, valBe]
  | cons x xs ih =>
    cases b with
    | nil => simp at h
    | cons y ys =>
      have hl : xs.length = ys.length := by simpa using h
      obtain ⟨hi, hb⟩ := ih ys hl
      have hlen := subBorrow_length xs ys hl
      simp only [subBorrow, valBe, List.length_cons, Nat.pow_succ 256, ← hl]
      generalize (subBorrow xs ys).1 = c at *
      generalize hr : (subBorrow xs ys).2 = rs at *
      have hx := x.isLt
      have hy := y.isLt
      split
      · rename_i ht
        refine ⟨?_, Nat.le_refl _⟩
        simp only [valBe, hlen]
        have e : (BitVec.ofInt 8 ((x.toNat : Int) - y.toNat - c + 256)).toNat =
            x.toNat + 256 - y.toNat - c := by
          rw [BitVec.toNat_ofInt]; omega
        rw [e]
        generalize 256 ^ xs.length = p at *
        obtain ⟨z, hz⟩ : ∃ z, x.toNat + 256 - y.toNat - c = z := ⟨_, rfl⟩
        have hzz : z + y.toNat + c = x.toNat + 256 := by omega
        rw [hz]
        calc z * p + valBe rs + (y.toNat * p + valBe ys)
            = (z + y.toNat) * p + (valBe rs + valBe ys) := by ring
          _ = (z + y.toNat) * p + (valBe xs + c * p) := by rw [hi]
          _ = (z + y.toNat + c) * p + valBe xs := by ring
          _ = (x.toNat + 256) * p + valBe xs := by rw [hzz]
          _ = x.toNat * p + valBe xs + 1 * (p * 256) := by ring
      · rename_i ht
        refine ⟨?_, Nat.zero_le _⟩
        simp only [valBe, hlen]
        have e : (BitVec.ofInt 8 ((x.toNat : Int) - y.toNat - c)).toNat =
            x.toNat - y.toNat - c := by
          rw [BitVec.toNat_ofInt]; omega
        rw [e]
        generalize 256 ^ xs.length = p at *
        obtain ⟨z, hz⟩ : ∃ z, x.toNat - y.toNat - c = z := ⟨_, rfl⟩
        have hzz : z + y.toNat + c = x.toNat := by omega
        rw [hz]
        calc z * p + valBe rs + (y.toNat * p + valBe ys)
            = (z + y.toNat) * p + (valBe rs + valBe ys) := by ring
          _ = (z + y.toNat) * p + (valBe xs + c * p) := by rw [hi]
          _ = (z + y.toNat + c) * p + valBe xs := by ring
          _ = x.toNat * p + valBe xs := by rw [hzz]
          _ = x.toNat * p + valBe xs + 0 * (p * 256) := by ring

/-- `add` is addition modulo `256^n` on the big-endian values (spec/40_bits_and_combiner.md R123). -/
theorem addBlock_valBe {a b : Block} (h : a.length = b.length) :
    valBe (addBlock a b) = (valBe a + valBe b) % 256 ^ a.length := by
  have hlt := valBe_lt (addBlock a b)
  rw [addBlock_length h] at hlt
  rw [← addCarry_spec a b h, Nat.add_mul_mod_self_right]
  exact (Nat.mod_eq_of_lt hlt).symm

/-- `sub` is subtraction modulo `256^n` on the big-endian values (spec/40_bits_and_combiner.md R124). -/
theorem subBlock_valBe {a b : Block} (h : a.length = b.length) :
    (valBe (subBlock a b) : Int) = ((valBe a : Int) - valBe b) % (256 ^ a.length : Nat) := by
  have hlt := valBe_lt (subBlock a b)
  rw [subBlock_length h] at hlt
  have hs := (subBorrow_spec a b h).1
  have e : (valBe a : Int) - valBe b =
      (valBe (subBlock a b) : Int) + (256 ^ a.length : Nat) * -((subBorrow a b).1 : Int) := by
    have hs' : (valBe (subBlock a b) : Int) + valBe b =
        valBe a + (subBorrow a b).1 * (256 ^ a.length : Nat) := by exact_mod_cast hs
    linarith [mul_comm ((subBorrow a b).1 : Int) ((256 ^ a.length : Nat) : Int)]
  rw [e, Int.add_mul_emod_self_left]
  exact (Int.emod_eq_of_lt (by positivity) (by exact_mod_cast hlt)).symm

end Sys2Proof.Machine
end

