-- ==== Sys2Proof/Laws/Rotor.lean ====
section
/-! SUPPORT. What the rotor's operations can do, on a rotor that keeps the rotor invariants. -/

namespace Sys2Proof.Machine

theorem bytesFor_le (n : Nat) : n ≤ 8 * bytesFor n := by unfold bytesFor; omega

theorem RotorOk.size_pos {r : Rotor} (h : RotorOk r) : 0 < r.size :=
  Nat.lt_of_lt_of_le (by omega) h.size_ge

/-- The window of up to 32 bytes is inside the buffer, and it is the ring of the active bits read from
`current` on (spec/41_rotor.md R143). -/
theorem rotorWindow_spec {r : Rotor} (h : RotorOk r) {n : Nat} (hn : n ≤ 32) :
    ∃ w, rotorWindow r n = some w ∧ w.length = n ∧
      ∀ j < 8 * n, bitGet w j = bitGet r.buffer ((r.current + j) % r.size) := by
  have hlen : r.size + 256 ≤ 8 * r.buffer.length := by
    rw [h.buffer_length]; exact bytesFor_le _
  have hc := h.current_lt
  have hs := h.size_ge
  obtain ⟨w, hw, hl, hb⟩ := copyBits_spec r.buffer r.current (zeroBytes n) (8 * n) (by omega)
    (by simp) (fun k hk => bitGet_zeroBytes hk)
  refine ⟨w, hw, by simpa using hl, fun j hj => ?_⟩
  rw [hb j, if_pos hj]
  by_cases hlt : r.current + j < r.size
  · rw [Nat.mod_eq_of_lt hlt]
  · obtain ⟨k, hk⟩ : ∃ k, r.current + j = r.size + k := ⟨r.current + j - r.size, by omega⟩
    rw [hk, h.extended k (by omega), Nat.add_mod_left, Nat.mod_eq_of_lt (by omega)]

theorem rotorAdvance_ok {r : Rotor} (h : RotorOk r) : RotorOk (rotorAdvance r) :=
  { h with current_lt := Nat.mod_lt _ h.size_pos }

theorem rotorSeek_ok {r : Rotor} (h : RotorOk r) (idx : Nat) : RotorOk (rotorSeek idx r) :=
  { h with current_lt := Nat.mod_lt _ h.size_pos }

/-- The transforms are total on blocks of up to 32 bytes: the window is added or subtracted and the rotor
advances (spec/41_rotor.md R143 to R145). -/
theorem rotorApply_step {r : Rotor} (h : RotorOk r) (d : Direction) {b : Block}
    (hb : b.length ≤ 32) :
    ∃ out, rotorApply d r b = some (out, rotorAdvance r) ∧ RotorStep d r b out (rotorAdvance r) := by
  obtain ⟨w, hw, hl, hg⟩ := rotorWindow_spec h hb
  have hring : RingWindow r w := fun j hj => hg j (by omega)
  cases d with
  | forward =>
    exact ⟨addBlock b w, by simp [rotorApply, hw],
      ⟨w, hl, hring, addBlock_length hl.symm, addBlock_valBe hl.symm⟩, rfl⟩
  | inverse =>
    exact ⟨subBlock b w, by simp [rotorApply, hw],
      ⟨w, hl, hring, subBlock_length hl.symm, subBlock_valBe hl.symm⟩, rfl⟩

/-- The transforms keep the length and advance the rotor (spec/41_rotor.md R144, R145). -/
theorem rotorApply_spec {r : Rotor} (h : RotorOk r) (d : Direction) {b : Block}
    (hb : b.length ≤ 32) :
    ∃ out, rotorApply d r b = some (out, rotorAdvance r) ∧ out.length = b.length := by
  obtain ⟨out, h1, ⟨w, -, -, h2, -⟩, -⟩ := rotorApply_step h d hb
  exact ⟨out, h1, h2⟩

/-- `ROT.EXTEND` copies bits `[0, 256)` to `[size, size + 256)` and leaves the bits below `size`
(spec/41_rotor.md R142). -/
theorem rotorExtend_spec {size : Nat} {buf : List Byte} (hs : 256 ≤ size)
    (hl : buf.length = bytesFor (size + 256)) :
    ∃ out, rotorExtend size buf = some out ∧ out.length = buf.length ∧
      ∀ k, bitGet out k =
        if size ≤ k ∧ k < size + 256 then bitGet buf (k - size) else bitGet buf k := by
  have hlen : size + 256 ≤ 8 * buf.length := by rw [hl]; exact bytesFor_le _
  suffices H : ∀ n ≤ 256, ∃ out,
      bitLoop (fun j out => (bitGet out j).bind fun b =>
        if b then bitSet out (size + j) else bitClr out (size + j)) n buf = some out ∧
      out.length = buf.length ∧
      ∀ k, bitGet out k =
        if size ≤ k ∧ k < size + n then bitGet buf (k - size) else bitGet buf k from
    H 256 (Nat.le_refl _)
  intro n
  induction n with
  | zero => intro _; exact ⟨buf, rfl, rfl, fun k => by rw [if_neg (by omega)]⟩
  | succ n ih =>
    intro hn
    obtain ⟨out, ho, hlo, hb⟩ := ih (by omega)
    obtain ⟨v, hv⟩ := bitGet_of_lt (buf := buf) (i := n) (by omega)
    have hvo : bitGet out n = some v := by rw [hb n, if_neg (by omega), hv]
    have key : ∀ out', (if v then bitSet out (size + n) else bitClr out (size + n)) = some out' →
        out'.length = out.length →
        (∀ k, bitGet out' k = if k = size + n then some v else bitGet out k) →
        ∃ out, bitLoop (fun j out => (bitGet out j).bind fun b =>
          if b then bitSet out (size + j) else bitClr out (size + j)) (n + 1) buf = some out ∧
        out.length = buf.length ∧
        ∀ k, bitGet out k =
          if size ≤ k ∧ k < size + (n + 1) then bitGet buf (k - size) else bitGet buf k := by
      intro out' h1 h2 h3
      refine ⟨out', by simp [bitLoop, ho, hvo, h1], by omega, fun k => ?_⟩
      rw [h3 k]
      by_cases hk : k = size + n
      · subst hk
        rw [if_pos rfl, if_pos (by omega), Nat.add_sub_cancel_left, hv]
      · rw [if_neg hk, hb k]
        by_cases hk' : size ≤ k ∧ k < size + n
        · rw [if_pos hk', if_pos (by omega)]
        · rw [if_neg hk', if_neg (by omega)]
    cases v with
    | true =>
      obtain ⟨out', h1, h2, h3⟩ := bitSet_spec (buf := out) (i := size + n) (by omega)
      exact key out' (by simpa using h1) h2 h3
    | false =>
      obtain ⟨out', h1, h2, h3⟩ := bitClr_spec (buf := out) (i := size + n) (by omega)
      exact key out' (by simpa using h1) h2 h3

/-- `ROT.NEW` builds a rotor out of parameters that pass its checks: the fields as given, `current` at
`start`, the active bits those of `data` and the extension a copy of the first 256 of them
(spec/41_rotor.md R141). -/
theorem rotorBuild_spec {p : Params} {size start step : Nat} {data : List Byte}
    (h : rotorParamsOk p size start step data = true) :
    ∃ r, rotorBuild size start step data = some r ∧ RotorOk r ∧ r.size = size ∧ r.start = start ∧
      r.step = step ∧ r.current = start ∧ ∀ k < size, bitGet r.buffer k = bitGet data k := by
  simp only [rotorParamsOk, Bool.and_eq_true, decide_eq_true_eq] at h
  obtain ⟨⟨⟨⟨⟨h1, -⟩, h2⟩, h3⟩, h4⟩, h5⟩ := h
  have hd : size ≤ 8 * data.length := by have := bytesFor_le size; omega
  have hz : size + 256 ≤ 8 * bytesFor (size + 256) := bytesFor_le _
  obtain ⟨b0, hb0, hl0, hg0⟩ := copyBits_spec data 0 (zeroBytes (bytesFor (size + 256))) size
    (by omega) (by simp; omega) (fun k hk => bitGet_zeroBytes (by omega))
  obtain ⟨b1, hb1, hl1, hg1⟩ := rotorExtend_spec (size := size) (buf := b0) h1 (by simpa using hl0)
  refine ⟨⟨size, start, step, start, b1⟩, by simp [rotorBuild, rotorBuffer, hb0, hb1], ?_, rfl, rfl,
    rfl, rfl, fun k hk => ?_⟩
  · refine ⟨h1, h2, h3, h4, h2, by simpa using hl1.trans hl0, fun j hj => ?_⟩
    simp only
    rw [hg1, if_pos (by omega), Nat.add_sub_cancel_left, hg1 j, if_neg (by omega)]
  · simp only
    rw [hg1, if_neg (by omega), hg0, if_pos hk, Nat.zero_add]

/-- `StageSeek` after `i` advances from index 0 (spec/41_rotor.md R148). -/
theorem rotorAdvance_rotorSeek (r : Rotor) (i : Nat) :
    rotorAdvance (rotorSeek i r) = rotorSeek (i + 1) r := by
  simp only [rotorAdvance, rotorSeek, Rotor.mk.injEq, and_true, true_and]
  rw [Nat.mod_add_mod]
  congr 1
  ring

theorem rotorSeek_rotorSeek (r : Rotor) (i j : Nat) :
    rotorSeek i (rotorSeek j r) = rotorSeek i r := rfl

end Sys2Proof.Machine
end

