-- ==== Sys2Proof/Laws/Pipeline.lean ====
section
/-! SUPPORT. What the stages, the workers and the queues can do. -/

namespace Sys2Proof.Machine

/-- What stage `n` makes of a block, as a function of the parameters and the slots
(spec/43_counter_and_stage.md R200). -/
def stageOut (d : Direction) (n : Nat) (b : Block) (p : Params) (slots : List (Option Stage)) :
    Option Block :=
  if n = p.nSlots then some b
  else
    match p.layout[n]?, slots[n]? with
    | some .rotor, some (some (.rotor r)) => (rotorApply d r b).map Prod.fst
    | some .permutator, some (some (.permutator q)) => (permutatorApply d q b).map Prod.fst
    | _, _ => none

/-- Stage `n` one position on (spec/43_counter_and_stage.md R200). -/
def advanceAt (n : Nat) (s : State) : State :=
  if n = numSlots s then { s with counter := s.counter + 1 }
  else { s with slots := s.slots.modify n (Option.map stageAdvance) }

theorem advanceAt_counter_eq (n : Nat) (s : State) :
    (advanceAt n s).counter = if n = numSlots s then s.counter + 1 else s.counter := by
  unfold advanceAt; split <;> rfl

theorem advanceAt_slots_eq (n : Nat) (s : State) :
    (advanceAt n s).slots =
      if n = numSlots s then s.slots else s.slots.modify n (Option.map stageAdvance) := by
  unfold advanceAt; split <;> rfl

@[simp] theorem advanceAt_params (n : Nat) (s : State) : (advanceAt n s).params = s.params := by
  unfold advanceAt; split <;> rfl
@[simp] theorem advanceAt_numSlots (n : Nat) (s : State) : numSlots (advanceAt n s) = numSlots s := by
  simp [numSlots]

/-- An advance touches the slots and the Counter only. -/
theorem advanceAt_eq (n : Nat) (s : State) :
    advanceAt n s = { s with slots := (advanceAt n s).slots, counter := (advanceAt n s).counter } := by
  unfold advanceAt; split <;> rfl

theorem advanceAt_comm (n m : Nat) (s : State) :
    advanceAt n (advanceAt m s) = advanceAt m (advanceAt n s) := by
  by_cases hnm : n = m
  · rw [hnm]
  · unfold advanceAt
    by_cases hn : n = numSlots s <;> by_cases hm : m = numSlots s <;> simp_all [numSlots]
    ext i
    simp only [List.getElem?_modify]
    by_cases hi : n = i <;> by_cases hj : m = i <;> simp_all

/-- The rotor's apply advances the rotor (spec/41_rotor.md R143 to R145). -/
theorem rotorApply_snd {d : Direction} {r r' : Rotor} {b o : Block}
    (h : rotorApply d r b = some (o, r')) : r' = rotorAdvance r := by
  simp only [rotorApply, Option.map_eq_some_iff] at h
  obtain ⟨w, -, h⟩ := h
  cases d <;> simp_all

theorem permutatorApply_snd {d : Direction} {p p' : Permutator} {b o : Block}
    (h : permutatorApply d p b = some (o, p')) : p' = permutatorAdvance p := by
  simp only [permutatorApply, Option.map_eq_some_iff] at h
  obtain ⟨w, -, h⟩ := h
  simp_all

theorem set_eq_modify_of {slots : List (Option Stage)} {n : Nat} {st : Stage}
    (h : slots[n]? = some (some st)) :
    slots.set n (some (stageAdvance st)) = slots.modify n (Option.map stageAdvance) := by
  ext i
  simp only [List.getElem?_set, List.getElem?_modify]
  by_cases hi : n = i
  · subst hi
    obtain ⟨hl, he⟩ := List.getElem?_eq_some_iff.mp h
    simp [hl, he]
  · simp [hi]

/-- All a stage's transform can do when it goes through: the output is a function of the stage and the
block, and the stage has gone one position on. -/
theorem stageApply_eq_ok {d : Direction} {n : Nat} {b o : Block} {s t : State} :
    stageApply d n b s = .ok o t ↔
      stageOut d n b s.params s.slots = some o ∧ t = advanceAt n s := by
  unfold stageApply stageOut advanceAt
  by_cases hn : n = s.params.nSlots
  · have hn' : n = numSlots s := hn
    simp [hn, numSlots, counterApply, eq_comm]
  · have hn' : ¬ n = numSlots s := hn
    simp only [if_neg hn, if_neg hn']
    cases hl : s.params.layout[n]? with
    | none => simp
    | some k =>
      cases k with
      | rotor =>
        simp only [rotorApplyAt, bind_eq_ok, orNoValue_eq_ok, orBitIndexRange_eq_ok, rotorAt_eq_some]
        constructor
        · rintro ⟨r, s1, ⟨h1, rfl⟩, ⟨o', r'⟩, s2, ⟨h2, rfl⟩, h3⟩
          cases h3
          have := rotorApply_snd h2
          subst this
          simp only [h1, h2, Option.map_some, true_and]
          simp only [writeSlot]
          rw [← set_eq_modify_of h1]; rfl
        · rintro ⟨h1, rfl⟩
          split at h1
          · rename_i r e1 e2
            simp only [Option.map_eq_some_iff] at h1
            obtain ⟨⟨o', r'⟩, h1, rfl⟩ := h1
            refine ⟨r, s, ⟨e2, rfl⟩, (o', r'), s, ⟨h1, rfl⟩, ?_⟩
            simp only [writeSlot, Res.ok.injEq, true_and]
            rw [← set_eq_modify_of e2, rotorApply_snd h1]; rfl
          · simp_all
          · cases h1
      | permutator =>
        simp only [permutatorApplyAt, bind_eq_ok, orNoValue_eq_ok, orBitIndexRange_eq_ok,
          permutatorAt_eq_some]
        constructor
        · rintro ⟨r, s1, ⟨h1, rfl⟩, ⟨o', r'⟩, s2, ⟨h2, rfl⟩, h3⟩
          cases h3
          have := permutatorApply_snd h2
          subst this
          simp only [h1, h2, Option.map_some, true_and]
          simp only [writeSlot]
          rw [← set_eq_modify_of h1]; rfl
        · rintro ⟨h1, rfl⟩
          split at h1
          · simp_all
          · rename_i r e1 e2
            simp only [Option.map_eq_some_iff] at h1
            obtain ⟨⟨o', r'⟩, h1, rfl⟩ := h1
            refine ⟨r, s, ⟨e2, rfl⟩, (o', r'), s, ⟨h1, rfl⟩, ?_⟩
            simp only [writeSlot, Res.ok.injEq, true_and]
            rw [← set_eq_modify_of e2, permutatorApply_snd h1]; rfl
          · cases h1

/-- Every slot holds a sound stage of its kind. -/
structure Loaded (s : State) : Prop where
  slots_length : s.slots.length = numSlots s
  full : ∀ (n : Nat) (k : Kind), s.params.layout[n]? = some k →
    ∃ st, s.slots[n]? = some (some st) ∧ stageKind st = k ∧ StageOk s.params st

theorem Inv.full {s : State} (h : Inv s) (hf : s.fatal = false) (hk : s.fsm ≠ .unkeyed) : Loaded s := by
  refine ⟨h.slots_length, fun n k hn => ?_⟩
  have hlt : n < s.slots.length := by
    rw [h.slots_length]; exact (List.getElem?_eq_some_iff.mp hn).1
  cases hs : s.slots[n] with
  | none => exact absurd (hs ▸ List.getElem_mem hlt) (h.loaded hf hk)
  | some st =>
    have he : s.slots[n]? = some (some st) := by rw [List.getElem?_eq_getElem hlt, hs]
    refine ⟨st, he, ?_, h.stages hf st (List.mem_of_getElem? he)⟩
    have := h.kinds hf n st he
    rw [hn] at this
    exact (Option.some.inj this).symm

theorem stageAdvance_kind (st : Stage) : stageKind (stageAdvance st) = stageKind st := by
  cases st <;> rfl

theorem stageAdvance_ok {p : Params} {st : Stage} (h : StageOk p st) : StageOk p (stageAdvance st) := by
  cases st with
  | rotor r => exact ⟨rotorAdvance_ok h.1, h.2⟩
  | permutator q => exact ⟨permutatorAdvance_ok h.1, (List.length_map _).trans_le h.2⟩

theorem advanceAt_loaded {s : State} (h : Loaded s) (n : Nat) : Loaded (advanceAt n s) := by
  refine ⟨?_, fun m k hm => ?_⟩
  · rw [advanceAt_slots_eq, advanceAt_numSlots]
    split <;> simp [h.slots_length]
  · rw [advanceAt_params] at hm
    obtain ⟨st, h1, h2, h3⟩ := h.full m k hm
    rw [advanceAt_slots_eq, advanceAt_params]
    by_cases hn : n = numSlots s
    · exact ⟨st, by rw [if_pos hn]; exact h1, h2, h3⟩
    · rw [if_neg hn, List.getElem?_modify, h1]
      by_cases hmn : n = m
      · exact ⟨stageAdvance st, by simp [hmn], by rw [stageAdvance_kind, h2], stageAdvance_ok h3⟩
      · exact ⟨st, by simp [hmn], h2, h3⟩

/-- The transforms are total on a loaded cascade and keep the length of the block
(spec/43_counter_and_stage.md R200). -/
theorem stageOut_spec {s : State} (h : Loaded s) (d : Direction) {n : Nat} (hn : n ≤ numSlots s)
    {b : Block} (hb : b.length ≤ 32) :
    ∃ o, stageOut d n b s.params s.slots = some o ∧ o.length = b.length := by
  unfold stageOut
  by_cases hc : n = s.params.nSlots
  · exact ⟨b, by simp [hc], rfl⟩
  · have hlt : n < s.params.layout.length := lt_of_le_of_ne hn hc
    obtain ⟨st, h1, h2, h3⟩ := h.full n _ (List.getElem?_eq_getElem hlt)
    rw [if_neg hc, List.getElem?_eq_getElem hlt, ← h2, h1]
    cases st with
    | rotor r =>
      obtain ⟨o, ho, hl⟩ := rotorApply_spec (r := r) h3.1 d hb
      exact ⟨o, by simp [stageKind, ho], hl⟩
    | permutator p =>
      obtain ⟨o, ho, hl⟩ := permutatorApply_spec (p := p) h3.1 d (b := b)
      exact ⟨o, by simp [stageKind, ho], hl⟩

theorem stageApply_spec {s : State} (h : Loaded s) (d : Direction) {n : Nat} (hn : n ≤ numSlots s)
    {b : Block} (hb : b.length ≤ 32) :
    ∃ o, stageApply d n b s = .ok o (advanceAt n s) ∧ o.length = b.length := by
  obtain ⟨o, ho, hl⟩ := stageOut_spec h d hn hb
  exact ⟨o, stageApply_eq_ok.mpr ⟨ho, rfl⟩, hl⟩

theorem advanceAt_slot_ne {n m : Nat} (h : n ≠ m) (s : State) :
    (advanceAt n s).slots[m]? = s.slots[m]? := by
  rw [advanceAt_slots_eq]
  split
  · rfl
  · simp [h]

/-- A stage's output does not see another stage move on. -/
theorem stageOut_advanceAt {d : Direction} {n m : Nat} (h : n ≠ m) (b : Block) (s : State) :
    stageOut d m b s.params (advanceAt n s).slots = stageOut d m b s.params s.slots := by
  unfold stageOut
  rw [advanceAt_slot_ne h]

/-- Two different stages move on independently. -/
theorem stageApply_advanceAt {d : Direction} {n m : Nat} (h : n ≠ m) {b o : Block} {s t : State}
    (hs : stageApply d m b s = .ok o t) :
    stageApply d m b (advanceAt n s) = .ok o (advanceAt n t) := by
  obtain ⟨h1, rfl⟩ := stageApply_eq_ok.mp hs
  exact stageApply_eq_ok.mpr
    ⟨by rw [advanceAt_params, stageOut_advanceAt h]; exact h1, advanceAt_comm n m s⟩

/-- `g` with the stages of `s`. -/
def withStages (g s : State) : State := { g with slots := s.slots, counter := s.counter }

theorem withStages_advanceAt {g s : State} (h : g.params = s.params) (n : Nat) :
    withStages g (advanceAt n s) = advanceAt n (withStages g s) := by
  unfold advanceAt withStages numSlots
  rw [← h]
  split <;> rfl

/-- A transform sees nothing of the state but the parameters and the stages. -/
theorem stageApply_withStages {g s t : State} (h : g.params = s.params) {d : Direction} {n : Nat}
    {b o : Block} (hs : stageApply d n b s = .ok o t) :
    stageApply d n b (withStages g s) = .ok o (withStages g t) := by
  obtain ⟨h1, rfl⟩ := stageApply_eq_ok.mp hs
  exact stageApply_eq_ok.mpr ⟨by simpa [withStages, h] using h1, withStages_advanceAt h n⟩

/-- The stages of a list, each one position on. -/
def advanceAll (ns : List Nat) (s : State) : State := ns.foldl (fun s n => advanceAt n s) s

@[simp] theorem advanceAll_nil (s : State) : advanceAll [] s = s := rfl
@[simp] theorem advanceAll_cons (n : Nat) (ns : List Nat) (s : State) :
    advanceAll (n :: ns) s = advanceAll ns (advanceAt n s) := rfl

@[simp] theorem advanceAll_params (ns : List Nat) (s : State) :
    (advanceAll ns s).params = s.params := by
  induction ns generalizing s with
  | nil => rfl
  | cons n ns ih => rw [advanceAll_cons, ih, advanceAt_params]

theorem advanceAll_loaded {s : State} (h : Loaded s) (ns : List Nat) : Loaded (advanceAll ns s) := by
  induction ns generalizing s with
  | nil => exact h
  | cons n ns ih => exact ih (advanceAt_loaded h n)

theorem advanceAll_withStages {g s : State} (h : g.params = s.params) (ns : List Nat) :
    withStages g (advanceAll ns s) = advanceAll ns (withStages g s) := by
  induction ns generalizing s with
  | nil => rfl
  | cons n ns ih =>
    rw [advanceAll_cons, advanceAll_cons, ih (by rw [advanceAt_params, h]), withStages_advanceAt h]

theorem advanceAt_advanceAll (n : Nat) (ns : List Nat) (s : State) :
    advanceAt n (advanceAll ns s) = advanceAll ns (advanceAt n s) := by
  induction ns generalizing s with
  | nil => rfl
  | cons m ns ih => rw [advanceAll_cons, advanceAll_cons, ih, advanceAt_comm]

/-- A run through stages leaves each of them one position on, whatever the block. -/
theorem throughStages_ok {d : Direction} {ns : List Nat} {b o : Block} {s t : State}
    (h : throughStages d ns b s = .ok o t) : t = advanceAll ns s := by
  induction ns generalizing b s with
  | nil => cases h; rfl
  | cons n ns ih =>
    obtain ⟨b1, s1, h1, h2⟩ := bind_eq_ok.mp h
    obtain ⟨-, rfl⟩ := stageApply_eq_ok.mp h1
    exact ih h2

/-- A loaded cascade takes any block through (spec/44_cascade.md R222, R223). -/
theorem throughStages_spec {s : State} (h : Loaded s) (d : Direction) {ns : List Nat}
    (hn : ∀ n ∈ ns, n ≤ numSlots s) {b : Block} (hb : b.length ≤ 32) :
    ∃ o, throughStages d ns b s = .ok o (advanceAll ns s) ∧ o.length = b.length := by
  induction ns generalizing b s with
  | nil => exact ⟨b, rfl, rfl⟩
  | cons n ns ih =>
    obtain ⟨b1, h1, hl⟩ := stageApply_spec h d (hn n (by simp)) hb
    obtain ⟨o, h2, hl2⟩ := ih (advanceAt_loaded h n)
      (fun m hm => by rw [advanceAt_numSlots]; exact hn m (by simp [hm])) (b := b1) (by omega)
    exact ⟨o, by simp [throughStages, h1, h2], by omega⟩

theorem throughStages_advanceAt {d : Direction} {n : Nat} {ns : List Nat} (hn : n ∉ ns)
    {b o : Block} {s t : State} (h : throughStages d ns b s = .ok o t) :
    throughStages d ns b (advanceAt n s) = .ok o (advanceAt n t) := by
  induction ns generalizing b s with
  | nil => cases h; rfl
  | cons m ns ih =>
    obtain ⟨b1, s1, h1, h2⟩ := bind_eq_ok.mp h
    simp only [List.mem_cons, not_or] at hn
    exact bind_eq_ok.mpr ⟨b1, _, stageApply_advanceAt hn.1 h1, ih hn.2 h2⟩

theorem throughStages_withStages {g : State} {d : Direction} {ns : List Nat} {b o : Block}
    {s t : State} (hg : g.params = s.params) (h : throughStages d ns b s = .ok o t) :
    throughStages d ns b (withStages g s) = .ok o (withStages g t) := by
  induction ns generalizing b s with
  | nil => cases h; rfl
  | cons m ns ih =>
    obtain ⟨b1, s1, h1, h2⟩ := bind_eq_ok.mp h
    have hp : g.params = s1.params := by
      obtain ⟨-, rfl⟩ := stageApply_eq_ok.mp h1
      rw [advanceAt_params, hg]
    exact bind_eq_ok.mpr ⟨b1, _, stageApply_withStages hg h1, ih hp h2⟩

/-- The stages in the order the workers own them (spec/44_cascade.md R226). -/
def order (s : State) : List Nat := (List.range (numSlots s + 1)).map (stageOf s)

@[simp] theorem order_length (s : State) : (order s).length = numSlots s + 1 := by simp [order]

theorem order_encrypt {s : State} (h : s.mode = .encrypt) : order s = List.range (numSlots s + 1) := by
  have : stageOf s = id := by funext j; simp [stageOf, h]
  simp [order, this]

theorem order_decrypt {s : State} (h : s.mode ≠ .encrypt) :
    order s = (List.range (numSlots s + 1)).reverse := by
  apply List.ext_getElem
  · simp
  · intro i h1 h2
    simp [order, stageOf, h]

theorem order_nodup (s : State) : (order s).Nodup := by
  by_cases h : s.mode = .encrypt
  · rw [order_encrypt h]; exact List.nodup_range
  · rw [order_decrypt h]; exact List.nodup_reverse.mpr List.nodup_range

theorem mem_order {s : State} {n : Nat} : n ∈ order s ↔ n ≤ numSlots s := by
  by_cases h : s.mode = .encrypt
  · rw [order_encrypt h]; simp
  · rw [order_decrypt h]; simp

/-- `Enc` and `Dec` are a run through the stages in the order the workers own them
(spec/44_cascade.md R222, R223, R226). -/
theorem cipher_eq (b : Block) (s : State) :
    cipher b s = throughStages (modeDirection s.mode) (order s) b s := by
  unfold cipher
  by_cases h : s.mode = .encrypt
  · rw [if_pos h, order_encrypt h]; simp [encBlock, modeDirection, h]
  · rw [if_neg h, order_decrypt h]; simp [decBlock, modeDirection, h]

end Sys2Proof.Machine
end

