-- ==== Sys2Proof/Laws/Workers.lean ====
section
/-! SUPPORT. The workers of a running pipeline: what a worker step does, and when a wait is met. -/

namespace Sys2Proof.Machine

/-- A running pipeline over a loaded cascade. -/
structure Live (s : State) : Prop where
  pipe : PipelineOk s
  loaded : Loaded s

theorem Inv.live {s : State} (h : Inv s) (hr : s.fsm = .running) : Live s := by
  refine ⟨h.running hr, h.full ?_ (by simp [hr])⟩
  cases hf : s.fatal
  · rfl
  · exact absurd hr (h.fatal_idle hf)

/-- Two neighbouring entries of a list. -/
theorem split_pair {α : Type} {l : List α} {j : Nat} {x y : α} (hx : l[j]? = some x)
    (hy : l[j + 1]? = some y) : ∃ pre post, l = pre ++ x :: y :: post ∧ pre.length = j := by
  obtain ⟨h1, e1⟩ := List.getElem?_eq_some_iff.mp hx
  obtain ⟨h2, e2⟩ := List.getElem?_eq_some_iff.mp hy
  refine ⟨l.take j, l.drop (j + 2), ?_, by simp; omega⟩
  rw [← e1, ← e2, ← List.drop_eq_getElem_cons h2, ← List.drop_eq_getElem_cons h1,
    List.take_append_drop]

theorem set_pair {α : Type} (pre post : List α) (x y a b : α) :
    ((pre ++ x :: y :: post).set pre.length a).set (pre.length + 1) b = pre ++ a :: b :: post := by
  rw [List.set_append_right _ _ (by omega), List.set_append_right _ _ (by omega)]
  simp

/-- The state after worker `j`, the owner of stage `n`, turned the block it took into `o`. -/
def moved (j n : Nat) (o : Block) (s : State) : State :=
  writeQueue (j + 1) (some o) (writeQueue j none (advanceAt n s))

theorem workerEnabled_iff {s : State} {j : Nat} :
    workerEnabled s j = true ↔
      s.alive[j]? = some true ∧ (∃ b, s.queues[j]? = some (some b)) ∧
        s.queues[j + 1]? = some none := by
  simp only [workerEnabled, Bool.and_eq_true, beq_iff_eq, Option.isSome_iff_exists,
    queueBlock_eq_some, queueEmpty_iff, and_assoc]

/-- A step of worker `j` that is enabled takes the block, transforms it with the stage the worker owns
and hands it on (spec/44_cascade.md R232). -/
theorem workerStep_spec {s : State} (h : Live s) {j : Nat} (he : workerEnabled s j = true) :
    ∃ b o, s.queues[j]? = some (some b) ∧ s.queues[j + 1]? = some none ∧ j ≤ numSlots s ∧
      stageOut (modeDirection s.mode) (stageOf s j) b s.params s.slots = some o ∧
      o.length = b.length ∧ workerStep j s = .ok () (moved j (stageOf s j) o s) := by
  obtain ⟨-, ⟨b, hb⟩, hn⟩ := workerEnabled_iff.mp he
  have hj : j ≤ numSlots s := by
    have := (List.getElem?_eq_some_iff.mp hn).1
    rw [h.pipe.queues_length] at this
    omega
  have hs : stageOf s j ≤ numSlots s := by unfold stageOf; split <;> omega
  have hbl := h.pipe.blocks b (List.mem_of_getElem? hb)
  obtain ⟨o, ho, hl⟩ := stageOut_spec h.loaded (modeDirection s.mode) hs hbl.2
  refine ⟨b, o, hb, hn, hj, ho, hl, ?_⟩
  have hq : queueBlock j s = some b := queueBlock_eq_some.mpr hb
  have ha : stageApply (modeDirection s.mode) (stageOf s j) b (writeQueue j none s) =
      .ok o (writeQueue j none (advanceAt (stageOf s j) s)) := by
    refine stageApply_eq_ok.mpr ⟨ho, ?_⟩
    unfold advanceAt writeQueue numSlots
    split <;> rfl
  have hne : ¬ b.length = 0 := by omega
  rw [workerStep, if_pos he, hq]
  simp only [workerHandle, if_neg hne]
  have e1 : modeDirection (writeQueue j none s).mode = modeDirection s.mode := rfl
  have e2 : stageOf (writeQueue j none s) j = stageOf s j := rfl
  rw [e1, e2, ha]
  rfl

theorem moved_eq (j n : Nat) (o : Block) (s : State) :
    moved j n o s =
      { s with slots := (advanceAt n s).slots, counter := (advanceAt n s).counter,
               queues := (s.queues.set j none).set (j + 1) (some o) } := by
  unfold moved writeQueue advanceAt
  split <;> rfl

theorem movesLeft_append (pre post : List (Option Block)) :
    movesLeft (pre ++ post) =
      movesLeft post + movesLeft pre + (pre.countP Option.isSome) * post.length := by
  induction pre with
  | nil => simp [movesLeft]
  | cons q pre ih =>
    cases q with
    | none => simp [movesLeft, ih]
    | some b => simp [movesLeft, ih]; ring

/-- An enabled step keeps the pipeline sound and leaves one move fewer. -/
theorem workerStep_live {s t : State} (h : Live s) {j : Nat} (he : workerEnabled s j = true)
    (ht : workerStep j s = .ok () t) :
    Live t ∧ movesLeft t.queues + 1 = movesLeft s.queues := by
  obtain ⟨b, o, hb, hn, hj, -, hl, hs⟩ := workerStep_spec h he
  rw [hs] at ht
  cases ht
  obtain ⟨pre, post, hq, hp⟩ := split_pair hb hn
  have hq' : (s.queues.set j none).set (j + 1) (some o) = pre ++ none :: some o :: post := by
    rw [hq, ← hp, set_pair]
  rw [moved_eq, hq']
  refine ⟨⟨⟨h.pipe.mode_set, ?_, h.pipe.alive_all, ?_, ?_⟩, ?_⟩, ?_⟩
  · have := h.pipe.queues_length
    rw [hq] at this
    simpa [numSlots] using this
  · intro c hc
    have hm := h.pipe.blocks
    rw [hq] at hm
    simp only [List.mem_append, List.mem_cons, reduceCtorEq, false_or, Option.some.injEq] at hc
    rcases hc with hc | rfl | hc
    · exact hm c (by simp [hc])
    · rw [hl]; exact hm b (by simp)
    · exact hm c (by simp [hc])
  · have := h.pipe.inflight_counts
    rw [hq] at this
    simpa using this
  · have := advanceAt_loaded h.loaded (stageOf s j)
    refine ⟨this.slots_length.trans (advanceAt_numSlots _ _), fun n k hk => ?_⟩
    obtain ⟨st, e1, e2, e3⟩ := this.full n k (by rw [advanceAt_params]; exact hk)
    exact ⟨st, e1, e2, advanceAt_params (stageOf s j) s ▸ e3⟩
  · rw [hq]
    simp only [movesLeft_append, movesLeft, List.length_cons]
    omega

theorem Workers.live {s t : State} (h : Workers s t) (hs : Live s) : Live t := by
  induction h with
  | refl s => exact hs
  | step he hw _ ih => exact ih (workerStep_live hs he hw).1

/-- Worker steps change the stages and the queues only. -/
theorem Workers.frame {s t : State} (h : Workers s t) (hs : Live s) :
    t = { s with slots := t.slots, counter := t.counter, queues := t.queues } := by
  induction h with
  | refl s => rfl
  | step he hw _ ih =>
    rename_i s s1 t j
    rw [ih (workerStep_live hs he hw).1]
    obtain ⟨b, o, -, -, -, -, -, hm⟩ := workerStep_spec hs he
    rw [hw] at hm
    cases hm
    rw [moved_eq]

theorem Workers.inflight {s t : State} (h : Workers s t) (hs : Live s) : t.inflight = s.inflight := by
  rw [h.frame hs]

theorem Workers.numSlots_eq {s t : State} (h : Workers s t) (hs : Live s) :
    numSlots t = numSlots s := by
  rw [h.frame hs]; rfl

/-- A wait ends with its condition met after worker steps, or stuck with no worker enabled and the
condition not met. -/
theorem awaitCond_cases (cond : State → Bool) (f : Fault) (fuel : Nat) {s : State} (hs : Live s)
    (hf : movesLeft s.queues ≤ fuel) :
    ∃ t, Workers s t ∧
      ((cond t = true ∧ awaitCond cond f fuel s = .ok () t) ∨
        (cond t = false ∧ firstEnabled t = none ∧ awaitCond cond f fuel s = .stuck f)) := by
  induction fuel generalizing s with
  | zero =>
    refine ⟨s, .refl s, ?_⟩
    cases hc : cond s
    · refine .inr ⟨rfl, ?_, by simp [awaitCond, hc]⟩
      cases he : firstEnabled s with
      | none => rfl
      | some j =>
        have hj := List.find?_some he
        obtain ⟨_, _, _, _, _, _, _, hw⟩ := workerStep_spec hs hj
        have := (workerStep_live hs hj hw).2
        omega
    · exact .inl ⟨rfl, by simp [awaitCond, hc]⟩
  | succ fuel ih =>
    cases hc : cond s
    · cases he : firstEnabled s with
      | none => exact ⟨s, .refl s, .inr ⟨hc, he, by simp [awaitCond, hc, he]⟩⟩
      | some j =>
        have hj := List.find?_some he
        obtain ⟨_, o, _, _, _, _, _, hw⟩ := workerStep_spec hs hj
        obtain ⟨hl, hm⟩ := workerStep_live hs hj hw
        obtain ⟨t, ht, hcase⟩ := ih hl (by omega)
        refine ⟨t, .step hj hw ht, ?_⟩
        have e : awaitCond cond f (fuel + 1) s = awaitCond cond f fuel (moved j (stageOf s j) o s) := by
          rw [awaitCond, if_neg (by simp [hc]), he]
          simp only [hw, bind_ok]
        rw [e]
        exact hcase
    · exact ⟨s, .refl s, .inl ⟨hc, by simp [awaitCond, hc]⟩⟩

theorem await_cases (cond : State → Bool) (f : Fault) {s : State} (hs : Live s) :
    ∃ t, Workers s t ∧
      ((cond t = true ∧ await cond f s = .ok () t) ∨
        (cond t = false ∧ firstEnabled t = none ∧ await cond f s = .stuck f)) :=
  awaitCond_cases cond f _ hs (Nat.le_refl _)

/-- Where no worker is enabled, a queue behind a full one is full. -/
theorem full_behind {s : State} (hs : Live s) (he : firstEnabled s = none) {j : Nat}
    (hj : j ≤ numSlots s) {b : Block} (hb : s.queues[j]? = some (some b)) :
    ∃ c, s.queues[j + 1]? = some (some c) := by
  have hlen := hs.pipe.queues_length
  have ha := hs.pipe.alive_all
  have hne := List.find?_eq_none.mp he j (by rw [ha]; simp; omega)
  have hlt : j + 1 < s.queues.length := by omega
  cases hq : s.queues[j + 1] with
  | none =>
    refine absurd (workerEnabled_iff.mpr ⟨?_, ⟨b, hb⟩, ?_⟩) hne
    · rw [ha, List.getElem?_replicate, if_pos (by omega)]
    · rw [List.getElem?_eq_getElem hlt, hq]
  | some c => exact ⟨c, by rw [List.getElem?_eq_getElem hlt, hq]⟩

theorem full_from {s : State} (hs : Live s) (he : firstEnabled s = none) {j : Nat} {b : Block}
    (hb : s.queues[j]? = some (some b)) (k : Nat) (hk : j + k ≤ numSlots s + 1) :
    ∃ c, s.queues[j + k]? = some (some c) := by
  induction k with
  | zero => exact ⟨b, hb⟩
  | succ k ih =>
    obtain ⟨c, hc⟩ := ih (by omega)
    exact full_behind hs he (j := j + k) (by omega) hc

/-- A wait for room is met unless every queue is full (spec/44_cascade.md R230). -/
theorem await_room {s : State} (hs : Live s) (hi : s.inflight ≤ numSlots s + 1) :
    ∃ t, Workers s t ∧ t.queues[0]? = some none ∧ await (queueEmpty 0) .stuckPush s = .ok () t := by
  obtain ⟨t, ht, ⟨hc, h⟩ | ⟨hc, he, -⟩⟩ := await_cases (queueEmpty 0) .stuckPush hs
  · exact ⟨t, ht, queueEmpty_iff.mp hc, h⟩
  · exfalso
    have hl := ht.live hs
    have hlen := hl.pipe.queues_length
    have hq : ∃ b, t.queues[0]? = some (some b) := by
      cases h0 : t.queues[0]? with
      | none => rw [List.getElem?_eq_none_iff] at h0; omega
      | some q =>
        cases q with
        | none => rw [queueEmpty_iff.mpr h0] at hc; cases hc
        | some b => exact ⟨b, rfl⟩
    obtain ⟨b, hb⟩ := hq
    have hall : ∀ q ∈ t.queues, Option.isSome q = true := by
      intro q hm
      obtain ⟨i, hi, rfl⟩ := List.mem_iff_getElem.mp hm
      obtain ⟨c, hc⟩ := full_from hl he hb i (by omega)
      rw [Nat.zero_add, List.getElem?_eq_getElem hi] at hc
      rw [Option.some.inj hc]; rfl
    have hcount := hl.pipe.inflight_counts
    rw [List.countP_eq_length.mpr hall, ht.inflight hs, hlen, ht.numSlots_eq hs] at hcount
    omega

/-- A wait for a block is met if one is in flight (spec/44_cascade.md R231). -/
theorem await_block {s : State} (hs : Live s) (hi : s.inflight ≠ 0) :
    ∃ t b, Workers s t ∧ t.queues[numSlots s + 1]? = some (some b) ∧
      await (fun s => (queueBlock (outQueue s) s).isSome) .stuckPull s = .ok () t := by
  obtain ⟨t, ht, ⟨hc, h⟩ | ⟨hc, he, -⟩⟩ :=
    await_cases (fun s => (queueBlock (outQueue s) s).isSome) .stuckPull hs
  · obtain ⟨b, hb⟩ := Option.isSome_iff_exists.mp hc
    refine ⟨t, b, ht, ?_, h⟩
    rw [← ht.numSlots_eq hs]
    exact queueBlock_eq_some.mp hb
  · exfalso
    have hl := ht.live hs
    have hcount := hl.pipe.inflight_counts
    rw [ht.inflight hs] at hcount
    obtain ⟨q, hm, hq⟩ := List.countP_pos_iff.mp (by omega : 0 < t.queues.countP Option.isSome)
    obtain ⟨b, rfl⟩ := Option.isSome_iff_exists.mp hq
    obtain ⟨i, hi, hib⟩ := List.mem_iff_getElem.mp hm
    have hlen := hl.pipe.queues_length
    obtain ⟨c, hcc⟩ := full_from hl he (j := i) (b := b)
      (by rw [List.getElem?_eq_getElem hi, hib]) (numSlots t + 1 - i) (by omega)
    have hout : queueBlock (outQueue t) t = some c := by
      refine queueBlock_eq_some.mpr ?_
      rw [outQueue, ← hcc]
      congr 1
      omega
    rw [hout] at hc
    cases hc

/-- `CAS.PUSH` goes through when a queue is free (spec/44_cascade.md R230). -/
theorem pushBlock_spec {s : State} (hs : Live s) (hi : s.inflight ≤ numSlots s + 1) (b : Block) :
    ∃ t, Workers s t ∧ t.queues[0]? = some none ∧
      pushBlock b s = .ok () (enqueue b t) := by
  obtain ⟨t, ht, h0, h⟩ := await_room hs hi
  exact ⟨t, ht, h0, by simp [pushBlock, h]⟩

/-- `CAS.PULL` goes through when a block is in flight (spec/44_cascade.md R231). -/
theorem pullBlock_spec {s : State} (hs : Live s) (hi : s.inflight ≠ 0) :
    ∃ t b, Workers s t ∧ t.queues[numSlots s + 1]? = some (some b) ∧
      pullBlock s = .ok b (dequeue t) := by
  obtain ⟨t, b, ht, hq, h⟩ := await_block hs hi
  refine ⟨t, b, ht, hq, ?_⟩
  have hn := ht.numSlots_eq hs
  have hb : queueBlock (outQueue t) t = some b := by
    rw [outQueue, hn]; exact queueBlock_eq_some.mpr hq
  rw [pullBlock, if_neg hi, h]
  simp only [bind_ok, hb]

theorem pushed_live {t : State} (hl : Live t) (h0 : t.queues[0]? = some none) {b : Block}
    (hb : 1 ≤ b.length ∧ b.length ≤ 32) :
    Live (enqueue b t) := by
  cases hq : t.queues with
  | nil => rw [hq] at h0; cases h0
  | cons q qs =>
    rw [hq] at h0
    cases h0
    refine ⟨⟨hl.pipe.mode_set, ?_, hl.pipe.alive_all, ?_, ?_⟩, ⟨hl.loaded.slots_length, hl.loaded.full⟩⟩
    · simpa [enqueue, writeQueue, numSlots] using hl.pipe.queues_length
    · intro c hc
      have hm := hl.pipe.blocks
      simp only [enqueue, writeQueue, hq, List.set_cons_zero, List.mem_cons, Option.some.injEq] at hc hm
      rcases hc with rfl | hc
      · exact hb
      · exact hm c (.inr hc)
    · have := hl.pipe.inflight_counts
      rw [hq] at this
      simp [enqueue, writeQueue, hq, this]

theorem pulled_live {t : State} (hl : Live t) {b : Block}
    (hq : t.queues[numSlots t + 1]? = some (some b)) :
    Live (dequeue t) ∧
      1 ≤ b.length ∧ b.length ≤ 32 := by
  have hb := hl.pipe.blocks b (List.mem_of_getElem? hq)
  have hlen := hl.pipe.queues_length
  obtain ⟨hlt, he⟩ := List.getElem?_eq_some_iff.mp hq
  have hsplit : t.queues = t.queues.take (numSlots t + 1) ++ [some b] := by
    conv_lhs => rw [← List.take_append_drop (numSlots t + 1) t.queues,
      List.drop_eq_getElem_cons hlt, he, List.drop_eq_nil_of_le (by omega)]
  generalize t.queues.take (numSlots t + 1) = pre at hsplit
  have hp : pre.length = numSlots t + 1 := by
    have := congrArg List.length hsplit
    simp at this; omega
  have hset : t.queues.set (numSlots t + 1) none = pre ++ [none] := by
    rw [hsplit, ← hp, List.set_append_right _ _ (by omega)]; simp
  refine ⟨⟨⟨hl.pipe.mode_set, ?_, hl.pipe.alive_all, ?_, ?_⟩, ⟨hl.loaded.slots_length, hl.loaded.full⟩⟩, hb⟩
  · simp only [dequeue, writeQueue, outQueue, hset]; simp [hp, numSlots]
  · intro c hc
    simp only [dequeue, writeQueue, outQueue, hset, List.mem_append, List.mem_singleton, reduceCtorEq, or_false] at hc
    exact hl.pipe.blocks c (by rw [hsplit]; simp [hc])
  · have := hl.pipe.inflight_counts
    rw [hsplit] at this
    simp [dequeue, writeQueue, outQueue, hset] at this ⊢
    omega

/-- A push into a pipeline with every queue full never completes (spec/60_exceptions.md R310). -/
theorem pushBlock_full {s : State} (hs : Live s) (hi : s.inflight = numSlots s + 2) (b : Block) :
    pushBlock b s = .stuck .stuckPush := by
  have hall : ∀ q ∈ s.queues, Option.isSome q = true := by
    refine List.countP_eq_length.mp ?_
    rw [← hs.pipe.inflight_counts, hs.pipe.queues_length, hi]
  have hfull : ∀ i : Nat, s.queues[i]? ≠ some none := by
    intro i h
    have := hall none (List.mem_of_getElem? h)
    cases this
  have hc : queueEmpty 0 s = false := by
    rw [Bool.eq_false_iff]
    intro h
    exact hfull 0 (queueEmpty_iff.mp h)
  have he : firstEnabled s = none := by
    refine List.find?_eq_none.mpr fun j _ h => ?_
    exact hfull _ (workerEnabled_iff.mp h).2.2
  have : await (queueEmpty 0) .stuckPush s = .stuck .stuckPush := by
    unfold await
    cases movesLeft s.queues <;> simp [awaitCond, hc, he]
  simp [pushBlock, this]

/-- With nothing in flight every queue is empty (spec/10_state.md R24, R31). -/
theorem queues_idle {s : State} (hs : Live s) (hi : s.inflight = 0) :
    s.queues = List.replicate (numSlots s + 2) none := by
  refine List.eq_replicate_iff.mpr ⟨hs.pipe.queues_length, fun q hq => ?_⟩
  have := hs.pipe.inflight_counts
  rw [hi, eq_comm, List.countP_eq_zero] at this
  have := this q hq
  cases q <;> simp_all

/-- The pipeline while the sentinel is in queue `k`: the workers before it have ended
(spec/44_cascade.md R229, R232). -/
def closing (k : Nat) (s : State) : State :=
  { s with
    queues := (List.replicate (numSlots s + 2) none).set k (some [])
    alive := List.replicate k false ++ List.replicate (numSlots s + 1 - k) true }

theorem closing_queue (k : Nat) (s : State) {i : Nat} (hi : i ≤ numSlots s + 1) :
    (closing k s).queues[i]? = some (if i = k then some [] else none) := by
  simp only [closing, List.getElem?_set, List.length_replicate, List.getElem?_replicate]
  by_cases h : i = k
  · rw [if_pos h.symm, if_pos (by omega), if_pos h]
  · rw [if_neg (Ne.symm h), if_pos (by omega), if_neg h]

theorem closing_enabled (k : Nat) (s : State) (hk : k ≤ numSlots s) (j : Nat) :
    workerEnabled (closing k s) j = true ↔ j = k := by
  rw [workerEnabled_iff]
  constructor
  · rintro ⟨-, ⟨b, hb⟩, hn⟩
    by_contra hj
    have hlt : j ≤ numSlots s := by
      have := (List.getElem?_eq_some_iff.mp hn).1
      simp [closing] at this; omega
    rw [closing_queue k s (by omega), if_neg hj] at hb
    cases hb
  · rintro rfl
    refine ⟨?_, ⟨[], ?_⟩, ?_⟩
    · simp only [closing]
      rw [List.getElem?_append_right (by simp), List.length_replicate, Nat.sub_self,
        List.getElem?_replicate, if_pos (by omega)]
    · rw [closing_queue j s (by omega), if_pos rfl]
    · rw [closing_queue j s (by omega), if_neg (by omega)]

theorem closing_step (k : Nat) (s : State) (hk : k ≤ numSlots s) :
    workerStep k (closing k s) = .ok () (closing (k + 1) s) := by
  have hq : queueBlock k (closing k s) = some [] :=
    queueBlock_eq_some.mpr (by rw [closing_queue k s (by omega), if_pos rfl])
  have e1 : ((((List.replicate (numSlots s + 2) (none : Option Block)).set k (some [])).set k none).set
      (k + 1) (some [])) = (List.replicate (numSlots s + 2) none).set (k + 1) (some []) := by
    rw [List.set_set]
    congr 1
    refine List.ext_getElem (by simp) fun i h1 h2 => ?_
    rw [List.getElem_set]
    split <;> simp
  have e2 : (List.replicate k false ++ List.replicate (numSlots s + 1 - k) true).set k false =
      List.replicate (k + 1) false ++ List.replicate (numSlots s + 1 - (k + 1)) true := by
    rw [List.set_append_right _ _ (by simp)]
    obtain ⟨m, hm⟩ : ∃ m, numSlots s + 1 - k = m + 1 := ⟨numSlots s - k, by omega⟩
    have hm' : numSlots s + 1 - (k + 1) = m := by omega
    rw [hm, hm', List.length_replicate, Nat.sub_self, List.replicate_succ, List.set_cons_zero,
      List.replicate_succ', List.append_assoc, List.singleton_append]
  rw [workerStep, if_pos ((closing_enabled k s hk k).mpr rfl), hq]
  simp only [workerHandle, List.length_nil, if_true, bind_ok]
  simp only [closing, writeQueue, e1, e2]

theorem closing_await (s : State) (f : Fault) (m : Nat) :
    ∀ k, k + m = numSlots s + 1 →
      awaitCond (fun s => queueBlock (outQueue s) s == some []) f m (closing k s) =
        .ok () (closing (numSlots s + 1) s) := by
  have hcond : ∀ k ≤ numSlots s + 1,
      (queueBlock (outQueue (closing k s)) (closing k s) == some []) = decide (k = numSlots s + 1) := by
    intro k hk
    have hq := closing_queue k s (Nat.le_refl _)
    have ho : outQueue (closing k s) = numSlots s + 1 := rfl
    rw [ho, queueBlock, hq]
    by_cases h : numSlots s + 1 = k
    · simp [h]
    · simp [h, Ne.symm h]
  induction m with
  | zero =>
    intro k hk
    have hk' : k = numSlots s + 1 := by omega
    subst hk'
    rw [awaitCond, hcond _ (Nat.le_refl _)]
    simp
  | succ m ih =>
    intro k hk
    have hk' : k ≤ numSlots s := by omega
    have hf : firstEnabled (closing k s) = some k := by
      have hlen : (closing k s).alive.length = numSlots s + 1 := by simp [closing]; omega
      cases he : firstEnabled (closing k s) with
      | none =>
        have := List.find?_eq_none.mp he k (by rw [hlen]; simp; omega)
        exact absurd ((closing_enabled k s hk' k).mpr rfl) this
      | some j => rw [(closing_enabled k s hk' j).mp (List.find?_some he)]
    rw [awaitCond, hcond k (by omega), if_neg (by simp; omega), hf]
    simp only [closing_step k s hk', bind_ok]
    exact ih (k + 1) (by omega)

/-- With nothing in flight `CAS.CLOSE` always completes, and no stage is applied to the sentinel
(spec/44_cascade.md R229). -/
theorem closePipeline_spec {s : State} (hs : Live s) (hi : s.inflight = 0) :
    closePipeline s = .ok () { s with queues := [], alive := [], fsm := .closed } := by
  have hq := queues_idle hs hi
  have ha := hs.pipe.alive_all
  have h0 : await (queueEmpty 0) .stuckClose s = .ok () s := by
    have hc : queueEmpty 0 s = true := queueEmpty_iff.mpr (by rw [hq]; simp)
    unfold await
    cases movesLeft s.queues <;> simp [awaitCond, hc]
  have h1 : writeQueue 0 (some []) s = closing 0 s := by
    simp only [writeQueue, closing, hq, ha]
    simp
  have hm : movesLeft (closing 0 s).queues = numSlots s + 1 := by
    have : ∀ n, movesLeft (List.replicate n none) = 0 := by
      intro n
      induction n with
      | zero => rfl
      | succ n ih => rw [List.replicate_succ]; exact ih
    simp only [closing, List.replicate_succ, List.set_cons_zero, movesLeft]
    rw [← List.replicate_succ, this]
    simp
  rw [closePipeline, h0, bind_ok, h1, await, hm, closing_await s _ _ 0 (by omega)]
  rfl

end Sys2Proof.Machine
end

