-- ==== Sys2Proof/Laws/Composition.lean ====
section
/-! SUPPORT. The blocks in flight, taken in order through the stages they have still to meet: what no
schedule of the workers changes (spec/44_cascade.md R233). -/

namespace Sys2Proof.Machine

/-- The blocks in a list of queues, the last first, each through the stages after its queue. -/
def drain (d : Direction) : List (Option Block) → List Nat → State → Res (List Block)
  | [], _, s => .ok [] s
  | none :: qs, ns, s => drain d qs ns.tail s
  | some b :: qs, ns, s =>
    (drain d qs ns.tail s).bind fun os s =>
      (throughStages d ns b s).bind fun o s => .ok (os ++ [o]) s

theorem drain_nones (d : Direction) (n : Nat) (ns : List Nat) (s : State) :
    drain d (List.replicate n none) ns s = .ok [] s := by
  induction n generalizing ns with
  | zero => rfl
  | succ n ih => exact ih ns.tail

theorem tail_subset {α : Type} {l : List α} {a : α} (h : a ∉ l) : a ∉ l.tail :=
  fun hc => h (List.mem_of_mem_tail hc)

theorem drain_advanceAt {d : Direction} {n : Nat} {qs : List (Option Block)} {ns : List Nat}
    (hn : n ∉ ns) {os : List Block} {s t : State} (h : drain d qs ns s = .ok os t) :
    drain d qs ns (advanceAt n s) = .ok os (advanceAt n t) := by
  induction qs generalizing ns os s t with
  | nil => cases h; rfl
  | cons q qs ih =>
    cases q with
    | none => exact ih (tail_subset hn) h
    | some b =>
      obtain ⟨o1, s1, h1, h2⟩ := bind_eq_ok.mp h
      obtain ⟨o2, s2, h2, h3⟩ := bind_eq_ok.mp h2
      cases h3
      exact bind_eq_ok.mpr ⟨o1, _, ih (tail_subset hn) h1,
        bind_eq_ok.mpr ⟨o2, _, throughStages_advanceAt hn h2, rfl⟩⟩

/-- A drain moves stages on and does nothing else. -/
theorem drain_ok {d : Direction} {qs : List (Option Block)} {ns : List Nat} {os : List Block}
    {s t : State} (h : drain d qs ns s = .ok os t) :
    ∃ ms, t = advanceAll ms s ∧ (∀ m ∈ ms, m ∈ ns) := by
  induction qs generalizing ns os s t with
  | nil => cases h; exact ⟨[], rfl, by simp⟩
  | cons q qs ih =>
    cases q with
    | none =>
      obtain ⟨ms, h1, h2⟩ := ih h
      exact ⟨ms, h1, fun m hm => List.mem_of_mem_tail (h2 m hm)⟩
    | some b =>
      obtain ⟨o1, s1, h1, h2⟩ := bind_eq_ok.mp h
      obtain ⟨o2, s2, h2, h3⟩ := bind_eq_ok.mp h2
      cases h3
      obtain ⟨ms, rfl, hm⟩ := ih h1
      refine ⟨ms ++ ns, ?_, ?_⟩
      · rw [throughStages_ok h2]; simp [advanceAll]
      · intro m hm'
        rcases List.mem_append.mp hm' with hm' | hm'
        · exact List.mem_of_mem_tail (hm m hm')
        · exact hm'

theorem advanceAll_slot_ne {n : Nat} {ms : List Nat} (h : n ∉ ms) (s : State) :
    (advanceAll ms s).slots[n]? = s.slots[n]? := by
  induction ms generalizing s with
  | nil => rfl
  | cons m ms ih =>
    simp only [List.mem_cons, not_or] at h
    rw [advanceAll_cons, ih h.2, advanceAt_slot_ne (Ne.symm h.1)]

/-- A worker's move leaves what a drain gives (spec/44_cascade.md R233). -/
theorem drain_moved {d : Direction} {b o : Block} {n : Nat} {nrest : List Nat}
    {post : List (Option Block)} (pre : List (Option Block)) (npre : List Nat)
    (hl : npre.length = pre.length) (hnd : (n :: nrest).Nodup)
    {os : List Block} {s t : State} (ho : stageOut d n b s.params s.slots = some o)
    (h : drain d (pre ++ some b :: none :: post) (npre ++ n :: nrest) s = .ok os t) :
    drain d (pre ++ none :: some o :: post) (npre ++ n :: nrest) (advanceAt n s) = .ok os t := by
  induction pre generalizing npre os t with
  | nil =>
    obtain rfl := List.eq_nil_of_length_eq_zero hl
    have hn : n ∉ nrest := (List.nodup_cons.mp hnd).1
    obtain ⟨o1, s1, h1, h2⟩ := bind_eq_ok.mp h
    obtain ⟨o2, s2, h2, h3⟩ := bind_eq_ok.mp h2
    cases h3
    obtain ⟨b1, s3, h4, h5⟩ := bind_eq_ok.mp h2
    obtain ⟨h6, rfl⟩ := stageApply_eq_ok.mp h4
    obtain ⟨ms, hms, hm⟩ := drain_ok h1
    have hkeep : stageOut d n b s1.params s1.slots = stageOut d n b s.params s.slots := by
      rw [hms, advanceAll_params]
      unfold stageOut
      rw [advanceAll_slot_ne (fun hc => hn (by simpa using hm n hc))]
    rw [hkeep, ho] at h6
    cases h6
    refine bind_eq_ok.mpr ⟨o1, _, drain_advanceAt (tail_subset hn) h1, ?_⟩
    exact bind_eq_ok.mpr ⟨o2, _, h5, rfl⟩
  | cons q pre ih =>
    cases npre with
    | nil => simp at hl
    | cons m npre =>
      have hl' : npre.length = pre.length := by simpa using hl
      cases q with
      | none => exact ih npre hl' h
      | some c =>
        obtain ⟨o1, s1, h1, h2⟩ := bind_eq_ok.mp h
        exact bind_eq_ok.mpr ⟨o1, s1, ih npre hl' h1, h2⟩

theorem drain_withStages {g : State} {d : Direction} {qs : List (Option Block)} {ns : List Nat}
    {os : List Block} {s t : State} (hg : g.params = s.params) (h : drain d qs ns s = .ok os t) :
    drain d qs ns (withStages g s) = .ok os (withStages g t) := by
  induction qs generalizing ns os s t with
  | nil => cases h; rfl
  | cons q qs ih =>
    cases q with
    | none => exact ih hg h
    | some b =>
      obtain ⟨o1, s1, h1, h2⟩ := bind_eq_ok.mp h
      obtain ⟨o2, s2, h2, h3⟩ := bind_eq_ok.mp h2
      cases h3
      have hp : g.params = s1.params := by
        obtain ⟨ms, rfl, -⟩ := drain_ok h1
        rw [advanceAll_params, hg]
      exact bind_eq_ok.mpr ⟨o1, _, ih hg h1,
        bind_eq_ok.mpr ⟨o2, _, throughStages_withStages hp h2, rfl⟩⟩

theorem drain_total {s : State} (h : Loaded s) (d : Direction) {qs : List (Option Block)}
    {ns : List Nat} (hn : ∀ n ∈ ns, n ≤ numSlots s)
    (hb : ∀ b, some b ∈ qs → b.length ≤ 32) : ∃ os t, drain d qs ns s = .ok os t := by
  induction qs generalizing ns with
  | nil => exact ⟨[], s, rfl⟩
  | cons q qs ih =>
    obtain ⟨os, t, h1⟩ := ih (ns := ns.tail) (fun n hn' => hn n (List.mem_of_mem_tail hn'))
      (fun b hb' => hb b (by simp [hb']))
    cases q with
    | none => exact ⟨os, t, h1⟩
    | some b =>
      obtain ⟨ms, rfl, -⟩ := drain_ok h1
      obtain ⟨o, h2, -⟩ := throughStages_spec (advanceAll_loaded h ms) d (ns := ns)
        (fun n hn' => by simpa [numSlots] using hn n hn') (hb b (by simp))
      exact ⟨os ++ [o], _, bind_eq_ok.mpr ⟨os, _, h1, bind_eq_ok.mpr ⟨o, _, h2, rfl⟩⟩⟩

/-- What the blocks in flight will come out as, and the stages they will leave. -/
def Flush (s : State) (os : List Block) (slots : List (Option Stage)) (counter : Nat) : Prop :=
  ∃ t, drain (modeDirection s.mode) s.queues (order s) s = .ok os t ∧
    t.slots = slots ∧ t.counter = counter

theorem flush_worker {s t : State} (hs : Live s) {j : Nat} (he : workerEnabled s j = true)
    (hw : workerStep j s = .ok () t) {os : List Block} {sl : List (Option Stage)} {c : Nat}
    (h : Flush s os sl c) : Flush t os sl c := by
  obtain ⟨b, o, hb, hn, hj, ho, -, hm⟩ := workerStep_spec hs he
  rw [hw] at hm
  cases hm
  obtain ⟨u, hu, rfl, rfl⟩ := h
  obtain ⟨pre, post, hq, hp⟩ := split_pair hb hn
  have hjo : j < (order s).length := by simp; omega
  have hord : order s = (order s).take j ++ stageOf s j :: (order s).drop (j + 1) := by
    conv_lhs => rw [← List.take_append_drop j (order s), List.drop_eq_getElem_cons hjo]
    congr 2
    simp [order]
  have hnd : (stageOf s j :: (order s).drop (j + 1)).Nodup := by
    have := order_nodup s
    rw [hord] at this
    exact (List.nodup_append.mp this).2.1
  have hq' : (s.queues.set j none).set (j + 1) (some o) = pre ++ none :: some o :: post := by
    rw [hq, ← hp, set_pair]
  rw [hq, hord] at hu
  have h2 := drain_moved pre ((order s).take j) (by simp [hp]; omega) hnd ho hu
  rw [← hord, ← hq'] at h2
  have h3 := drain_withStages (g := moved j (stageOf s j) o s)
    (by rw [moved_eq, advanceAt_params]) h2
  have h4 : withStages (moved j (stageOf s j) o s) (advanceAt (stageOf s j) s) =
      moved j (stageOf s j) o s := by
    rw [moved_eq]; rfl
  rw [h4] at h3
  refine ⟨withStages (moved j (stageOf s j) o s) u, ?_, rfl, rfl⟩
  have e1 : (moved j (stageOf s j) o s).mode = s.mode := by rw [moved_eq]
  have e2 : (moved j (stageOf s j) o s).queues = (s.queues.set j none).set (j + 1) (some o) := by
    rw [moved_eq]
  have e3 : order (moved j (stageOf s j) o s) = order s := by rw [moved_eq]; rfl
  rw [e1, e2, e3, h3]

theorem flush_workers {s t : State} (hs : Live s) (hw : Workers s t) {os : List Block}
    {sl : List (Option Stage)} {c : Nat} (h : Flush s os sl c) : Flush t os sl c := by
  induction hw with
  | refl s => exact h
  | step he hw _ ih => exact ih (workerStep_live hs he hw).1 (flush_worker hs he hw h)

theorem flush_idle {s : State} (hs : Live s) (hi : s.inflight = 0) :
    Flush s [] s.slots s.counter :=
  ⟨s, by rw [queues_idle hs hi, drain_nones], rfl, rfl⟩

theorem flush_idle_eq {s : State} (hs : Live s) (hi : s.inflight = 0) {os : List Block}
    {sl : List (Option Stage)} {c : Nat} (h : Flush s os sl c) :
    os = [] ∧ sl = s.slots ∧ c = s.counter := by
  obtain ⟨t, h, rfl, rfl⟩ := h
  rw [queues_idle hs hi, drain_nones] at h
  cases h
  exact ⟨rfl, rfl, rfl⟩

/-- A block pushed comes out after those in flight, as the cascade makes it from where they leave it. -/
theorem flush_pushed {t : State} (h0 : t.queues[0]? = some none) {b o : Block} {os : List Block}
    {sl sl' : List (Option Stage)} {c c' : Nat} (h : Flush t os sl c) {g g' : State}
    (hg : cipher b g = .ok o g') (hgp : g.params = t.params) (hgm : g.mode = t.mode)
    (hgs : g.slots = sl) (hgc : g.counter = c) (hs' : g'.slots = sl') (hc' : g'.counter = c') :
    Flush (enqueue b t) (os ++ [o]) sl' c' := by
  obtain ⟨u, hu, rfl, rfl⟩ := h
  obtain ⟨qs, hq⟩ : ∃ qs, t.queues = none :: qs := by
    cases hq : t.queues with
    | nil => rw [hq] at h0; cases h0
    | cons q qs => rw [hq] at h0; cases h0; exact ⟨qs, rfl⟩
  obtain ⟨ms, hms, -⟩ := drain_ok hu
  have hup : u.params = t.params := by rw [hms, advanceAll_params]
  rw [hq] at hu
  have e : (writeQueue 0 (some b) t).queues = some b :: qs := by simp [writeQueue, hq]
  rw [cipher_eq] at hg
  have hord : order g = order t := by
    unfold order numSlots stageOf
    rw [hgp, hgm]; unfold numSlots; rw [hgp]
  rw [hord, hgm] at hg
  let w : State := enqueue b t
  have h1 := drain_withStages (g := w) (s := t) rfl hu
  have hw : withStages w t = w := rfl
  rw [hw] at h1
  have h2 := throughStages_withStages (g := w) (s := g) (by rw [hgp]; rfl) hg
  have hwg : withStages w g = withStages w u := by unfold withStages; rw [hgs, hgc]
  rw [hwg] at h2
  refine ⟨withStages w g', ?_, hs', hc'⟩
  change drain (modeDirection t.mode) (writeQueue 0 (some b) t).queues (order t) w = _
  rw [e]
  exact bind_eq_ok.mpr ⟨os, _, h1, bind_eq_ok.mpr ⟨o, _, h2, rfl⟩⟩

theorem drain_last {d : Direction} {b : Block} (pre : List (Option Block)) (ns : List Nat)
    (hl : ns.length = pre.length) {os : List Block} {s t : State}
    (h : drain d (pre ++ [some b]) ns s = .ok os t) :
    ∃ rest, os = b :: rest ∧ drain d (pre ++ [none]) ns s = .ok rest t := by
  induction pre generalizing ns os t with
  | nil =>
    obtain rfl := List.eq_nil_of_length_eq_zero hl
    cases h
    exact ⟨[], rfl, rfl⟩
  | cons q pre ih =>
    cases ns with
    | nil => simp at hl
    | cons n ns =>
      have hl' : ns.length = pre.length := by simpa using hl
      cases q with
      | none => exact ih ns hl' h
      | some c =>
        obtain ⟨o1, s1, h1, h2⟩ := bind_eq_ok.mp h
        obtain ⟨rest, rfl, h3⟩ := ih ns hl' h1
        obtain ⟨o2, s2, h2, h4⟩ := bind_eq_ok.mp h2
        cases h4
        exact ⟨rest ++ [o2], rfl,
          bind_eq_ok.mpr ⟨rest, _, h3, bind_eq_ok.mpr ⟨o2, _, h2, rfl⟩⟩⟩

/-- A pull takes the first of the blocks that will come out. -/
theorem flush_pulled {t : State} (hl : Live t) {b : Block}
    (hq : t.queues[numSlots t + 1]? = some (some b)) {os : List Block} {sl : List (Option Stage)}
    {c : Nat} (h : Flush t os sl c) :
    ∃ rest, os = b :: rest ∧
      Flush (dequeue t) rest sl c := by
  obtain ⟨u, hu, rfl, rfl⟩ := h
  have hlen := hl.pipe.queues_length
  obtain ⟨hlt, he⟩ := List.getElem?_eq_some_iff.mp hq
  have hsplit : t.queues = t.queues.take (numSlots t + 1) ++ [some b] := by
    conv_lhs => rw [← List.take_append_drop (numSlots t + 1) t.queues,
      List.drop_eq_getElem_cons hlt, he, List.drop_eq_nil_of_le (by omega)]
  have hp : (t.queues.take (numSlots t + 1)).length = numSlots t + 1 := by
    simp; omega
  rw [hsplit] at hu
  obtain ⟨rest, hr, h1⟩ := drain_last _ (order t) (by rw [hp, order_length]) hu
  have hset : t.queues.set (numSlots t + 1) none = t.queues.take (numSlots t + 1) ++ [none] := by
    conv_lhs => rw [hsplit]
    rw [List.set_append_right _ _ (by omega), hp]
    simp
  let w : State := dequeue t
  have h2 := drain_withStages (g := w) (s := t) rfl h1
  refine ⟨rest, hr, withStages w u, ?_, rfl, rfl⟩
  change drain (modeDirection t.mode) (writeQueue (numSlots t + 1) none t).queues (order t) w = _
  have e : (writeQueue (numSlots t + 1) none t).queues = t.queues.take (numSlots t + 1) ++ [none] := hset
  rw [e]
  exact h2

/-- `Enc` and `Dec` are total on a loaded cascade and move every stage one position on
(spec/44_cascade.md R222, R223). -/
theorem cipher_spec {s : State} (h : Loaded s) {b : Block} (hb : b.length ≤ 32) :
    ∃ o, cipher b s = .ok o (advanceAll (order s) s) ∧ o.length = b.length := by
  rw [cipher_eq]
  exact throughStages_spec h _ (fun n hn => mem_order.mp hn) hb

theorem cipher_withStages {g s t : State} {b o : Block} (hg : g.params = s.params)
    (hm : g.mode = s.mode) (h : cipher b s = .ok o t) :
    cipher b (withStages g s) = .ok o (withStages g t) := by
  rw [cipher_eq] at h ⊢
  have hord : order (withStages g s) = order s := by
    unfold order numSlots stageOf
    simp only [withStages, hg, hm, numSlots]
  have hm' : (withStages g s).mode = s.mode := hm
  rw [hord, hm']
  exact throughStages_withStages hg h

/-- `s` with the stages, the queues and `inflight` of `t`: what the pipeline can change. -/
def onPipeline (s t : State) : State :=
  { s with slots := t.slots, counter := t.counter, queues := t.queues, inflight := t.inflight }

/-- One block pushed into an idle pipeline and pulled out again is the block the cascade makes of it,
and the stages are where the cascade leaves them (spec/44_cascade.md R233). -/
theorem push_pull {s : State} (hs : Live s) (hi : s.inflight = 0) {b : Block}
    (hb : 1 ≤ b.length ∧ b.length ≤ 32) :
    ∃ o u v, cipher b s = .ok o (advanceAll (order s) s) ∧ o.length = b.length ∧
      pushBlock b s = .ok () u ∧ Live u ∧ u.inflight = 1 ∧ pullBlock u = .ok o v ∧
      v = advanceAll (order s) s ∧ u = onPipeline s u := by
  obtain ⟨o, ho, hol⟩ := cipher_spec hs.loaded hb.2
  obtain ⟨t, ht, h0, hp⟩ := pushBlock_spec hs (by omega) b
  have htl := ht.live hs
  have htf := ht.frame hs
  have hul := pushed_live htl h0 hb
  have hti : t.inflight = 0 := (ht.inflight hs).trans hi
  have hf := flush_workers hs ht (flush_idle hs hi)
  have hf2 := flush_pushed h0 hf ho (by rw [htf]) (by rw [htf]) rfl rfl rfl rfl
  obtain ⟨w, b', hw, hq, hpull⟩ := pullBlock_spec hul (by simp [enqueue])
  have hwl := hw.live hul
  have hwf := hw.frame hul
  have hf3 := flush_workers hul hw hf2
  have hnw : numSlots w = numSlots s := by rw [hwf, htf]; rfl
  have hq' : w.queues[numSlots w + 1]? = some (some b') := by
    rw [hw.numSlots_eq hul]; exact hq
  obtain ⟨rest, hr, hf4⟩ := flush_pulled hwl hq' hf3
  have hpl := (pulled_live hwl hq').1
  cases hr
  have hwi : w.inflight = 1 := by rw [hw.inflight hul]; simp [enqueue, hti]
  obtain ⟨-, e1, e2⟩ := flush_idle_eq hpl (by simp [dequeue, hwi]) hf4
  have e3 := queues_idle hpl (by simp [dequeue, hwi])
  refine ⟨o, _, _, ho, hol, hp, hul, by simp [enqueue, hti], hpull, ?_, ?_⟩
  · have hadv : advanceAll (order s) s =
        { s with slots := (advanceAll (order s) s).slots,
                 counter := (advanceAll (order s) s).counter } := by
      have := advanceAll_withStages (g := s) (s := s) rfl (order s)
      exact this.symm
    rw [hadv, e1, e2]
    have hst : dequeue w = onPipeline s (dequeue w) := by
      rw [hwf, htf]; rfl
    have hn : numSlots (dequeue w) = numSlots s := hnw
    have hin : (dequeue w).inflight = s.inflight := by
      rw [hi]; simp [dequeue, hwi]
    have hqs : (dequeue w).queues = s.queues := by
      rw [e3, hn, ← queues_idle hs hi]
    rw [hst]
    unfold onPipeline
    rw [hin, hqs]
  · rw [htf]; rfl

end Sys2Proof.Machine
end

