-- ==== Sys2Proof/Laws/Prng.lean ====
section
/-! SUPPORT. What the PRNG's draws can do. -/

namespace Sys2Proof.Machine

theorem Loaded.kinds {s : State} (h : Loaded s) {n : Nat} {st : Stage}
    (hs : s.slots[n]? = some (some st)) :
    s.params.layout[n]? = some (stageKind st) ∧ StageOk s.params st := by
  have hlt : n < s.params.layout.length := by
    have h1 := (List.getElem?_eq_some_iff.mp hs).1
    have h2 : s.slots.length = s.params.layout.length := h.slots_length
    omega
  obtain ⟨st', h1, h2, h3⟩ := h.full n _ (List.getElem?_eq_getElem hlt)
  rw [hs] at h1
  cases h1
  exact ⟨by rw [List.getElem?_eq_getElem hlt, ← h2], h3⟩

/-- What of the invariant a loaded cascade gives about its slots. -/
theorem Loaded.slots_sound {s : State} (h : Loaded s) :
    (∀ (n : Nat) (st : Stage), s.slots[n]? = some (some st) →
      s.params.layout[n]? = some (stageKind st)) ∧
    (∀ st, some st ∈ s.slots → StageOk s.params st) ∧ none ∉ s.slots := by
  refine ⟨fun n st hs => (h.kinds hs).1, fun st hs => ?_, fun hc => ?_⟩
  · obtain ⟨n, hn⟩ := List.mem_iff_getElem?.mp hs
    exact (h.kinds hn).2
  · obtain ⟨n, hn⟩ := List.mem_iff_getElem?.mp hc
    have hlt : n < s.params.layout.length := by
      have h1 := (List.getElem?_eq_some_iff.mp hn).1
      have h2 : s.slots.length = s.params.layout.length := h.slots_length
      omega
    obtain ⟨st', h1, -⟩ := h.full n _ (List.getElem?_eq_getElem hlt)
    rw [hn] at h1
    cases h1

/-- The invariant after a change of the stages, the queues and `inflight` that leaves a sound pipeline. -/
theorem inv_onPipeline {s u : State} (h : Inv s) (hr : s.fsm = .running) (hl : Live (onPipeline s u)) :
    Inv (onPipeline s u) := by
  obtain ⟨h1, h2, h3⟩ := hl.loaded.slots_sound
  exact { h with
    slots_length := hl.loaded.slots_length
    kinds := fun _ => h1
    stages := fun _ => h2
    loaded := fun _ _ => h3
    running := fun _ => hl.pipe
    idle := fun hc => absurd hr hc }

theorem Live.rng {s : State} (h : Live s) (buf : Option Block) (pos : Nat) :
    Live { s with rbuf := buf, rpos := pos } :=
  ⟨⟨h.pipe.mode_set, h.pipe.queues_length, h.pipe.alive_all, h.pipe.blocks, h.pipe.inflight_counts⟩,
    ⟨h.loaded.slots_length, h.loaded.full⟩⟩

theorem Inv.rng {s : State} (h : Inv s) {buf : Block} {pos : Nat} (hb : buf.length = 32)
    (hp : pos ≤ 32) : Inv { s with rbuf := some buf, rpos := pos } :=
  { h with
    running := fun hr => ((h.live hr).rng (some buf) pos).pipe
    rpos_le := hp
    rbuf_full := fun b hc => by cases hc; exact hb
    seeded_rbuf := fun _ => by simp }

/-- The cascade advanced by one block. -/
theorem advanceAll_onPipeline (ns : List Nat) (s : State) :
    advanceAll ns s = { s with slots := (advanceAll ns s).slots, counter := (advanceAll ns s).counter } := by
  exact (advanceAll_withStages (g := s) (s := s) rfl ns).symm

theorem advanceAll_live {s : State} (h : Live s) (ns : List Nat) : Live (advanceAll ns s) := by
  have hl := advanceAll_loaded h.loaded ns
  rw [advanceAll_onPipeline] at hl ⊢
  exact ⟨⟨h.pipe.mode_set, h.pipe.queues_length, h.pipe.alive_all, h.pipe.blocks,
    h.pipe.inflight_counts⟩, hl⟩

theorem inv_advanceAll {s : State} (h : Inv s) (hr : s.fsm = .running) (ns : List Nat) :
    Inv (advanceAll ns s) := by
  have hl := advanceAll_live (h.live hr) ns
  have e : advanceAll ns s = onPipeline s (advanceAll ns s) := by
    rw [advanceAll_onPipeline]; rfl
  rw [e] at hl ⊢
  exact inv_onPipeline h hr hl

theorem encBlock_spec {s : State} (h : Loaded s) (hm : s.mode = .encrypt) {b : Block}
    (hb : b.length ≤ 32) :
    ∃ o, encBlock b s = .ok o (advanceAll (order s) s) ∧ o.length = b.length := by
  have := cipher_spec h hb
  simpa [cipher, hm] using this

/-- A refill is `Enc` of the buffer, and the cascade goes one block further
(spec/45_keysetup_prng.md R262). -/
theorem refill_spec {s : State} (h : Inv s) (hd : CanDraw s) {buf : Block} (hb : s.rbuf = some buf) :
    ∃ out, encBlock buf s = .ok out (advanceAll (order s) s) ∧ out.length = 32 ∧
      refill s = .ok () { advanceAll (order s) s with rbuf := some out, rpos := 0 } := by
  obtain ⟨hr, hm, hi, -⟩ := hd
  have hbl := h.rbuf_full buf hb
  obtain ⟨o, u, v, h1, h2, h3, -, -, h4, rfl, -⟩ := push_pull (h.live hr) hi (b := buf) (by omega)
  have h1' : encBlock buf s = .ok o (advanceAll (order s) s) := by simpa [cipher, hm] using h1
  refine ⟨o, h1', by omega, ?_⟩
  simp [refill, orNoValue, hb, h3, h4]

/-- `s` with the stages and the PRNG's buffer of `t`: what a draw can change. -/
def onDraw (s t : State) : State :=
  { s with slots := t.slots, counter := t.counter, rbuf := t.rbuf, rpos := t.rpos }

/-- A draw always goes through: the bytes are the next of the stream, and the state after them is sound
(spec/45_keysetup_prng.md R260, R263, R264). -/
theorem drawByte_spec {s : State} (h : Inv s) (hd : CanDraw s) :
    ∃ b t, drawByte s = .ok b t ∧ Inv t ∧ CanDraw t ∧ t = onDraw s t ∧
      (∀ bs u, Drawn t bs u → Drawn s (b :: bs) u) := by
  obtain ⟨buf, hb⟩ := Option.ne_none_iff_exists'.mp (h.seeded_rbuf hd.2.2.2)
  have hbl := h.rbuf_full buf hb
  have take : ∀ {s : State} {buf : Block}, Inv s → CanDraw s → s.rbuf = some buf → s.rpos < 32 →
      ∃ b, takeByte s = .ok b { s with rpos := s.rpos + 1 } ∧
        Inv { s with rpos := s.rpos + 1 } ∧ buf[s.rpos]? = some b := by
    intro s buf h hd hb hp
    have hbl := h.rbuf_full buf hb
    have hg : buf[s.rpos]? = some buf[s.rpos] := List.getElem?_eq_getElem (by omega)
    refine ⟨buf[s.rpos], by simp [takeByte, orNoValue, orBitIndexRange, hb, hg], ?_, hg⟩
    have := h.rng hbl (pos := s.rpos + 1) (by omega)
    rw [← hb] at this
    exact this
  by_cases hp : s.rpos = 32
  · obtain ⟨out, h1, h2, h3⟩ := refill_spec h hd hb
    have hi2 : Inv { advanceAll (order s) s with rbuf := some out, rpos := 0 } :=
      (inv_advanceAll h hd.1 _).rng h2 (by omega)
    have hd2 : CanDraw { advanceAll (order s) s with rbuf := some out, rpos := 0 } := by
      rw [advanceAll_onPipeline]; exact hd
    obtain ⟨b, h4, h5, h6⟩ := take hi2 hd2 rfl (by simp)
    refine ⟨b, _, by rw [drawByte, if_pos hp, h3, bind_ok, h4], h5, hd2, ?_, fun bs u hu => ?_⟩
    · rw [advanceAll_onPipeline]; rfl
    · exact .refill hb hp h1 (.take rfl (by simp) h6 hu)
  · have hp' : s.rpos < 32 := lt_of_le_of_ne h.rpos_le hp
    obtain ⟨b, h4, h5, h6⟩ := take h hd hb hp'
    exact ⟨b, _, by simp [drawByte, hp, h4], h5, hd, rfl, fun bs u hu => .take hb hp h6 hu⟩

theorem drawBytes_spec (n : Nat) {s : State} (h : Inv s) (hd : CanDraw s) :
    ∃ bs t, drawBytes n s = .ok bs t ∧ bs.length = n ∧ Inv t ∧ CanDraw t ∧ t = onDraw s t ∧
      Drawn s bs t := by
  induction n generalizing s with
  | zero => exact ⟨[], s, rfl, rfl, h, hd, rfl, .none s⟩
  | succ n ih =>
    obtain ⟨b, t, h1, h2, h3, h4, h5⟩ := drawByte_spec h hd
    obtain ⟨bs, u, g1, g2, g3, g4, g5, g6⟩ := ih h2 h3
    refine ⟨b :: bs, u, by simp [drawBytes, h1, g1], by simp [g2], g3, g4, ?_, h5 bs u g6⟩
    rw [g5, h4]; rfl

/-- A bounded draw always goes through and is in range (spec/45_keysetup_prng.md R266). -/
theorem uniformDraw_spec {n : Nat} (hn : 0 < n) {s : State} (h : Inv s) (hd : CanDraw s) :
    ∃ v t, uniformDraw n s = .ok v t ∧ v < n ∧ Inv t ∧ CanDraw t ∧ t = onDraw s t ∧
      ∃ bs, bs.length = uniformCount s n ∧ Drawn s bs t := by
  obtain ⟨bs, t, h1, h2, h3, h4, h5, h6⟩ := drawBytes_spec (uniformCount s n) h hd
  exact ⟨_, t, by rw [uniformDraw, h1]; rfl, Nat.mod_lt _ hn, h3, h4, h5, bs, h2, h6⟩

theorem Drawn.trans {s t u : State} {bs cs : List Byte} (h : Drawn s bs t) (h' : Drawn t cs u) :
    Drawn s (bs ++ cs) u := by
  induction h with
  | none s => exact h'
  | take a b c _ ih => exact .take a b c (ih h')
  | refill a b c _ ih => exact .refill a b c (ih h')

theorem uniformDraws_spec {ns : List Nat} (hn : ∀ n ∈ ns, 0 < n) {s : State} (h : Inv s)
    (hd : CanDraw s) :
    ∃ vs t, uniformDraws ns s = .ok vs t ∧ Inv t ∧ CanDraw t ∧ t = onDraw s t ∧
      ∃ bs, Drawn s bs t := by
  induction ns generalizing s with
  | nil => exact ⟨[], s, rfl, h, hd, rfl, [], .none s⟩
  | cons n ns ih =>
    obtain ⟨v, t, h1, -, h2, h3, h4, bs, -, h5⟩ := uniformDraw_spec (hn n (by simp)) h hd
    obtain ⟨vs, u, g1, g2, g3, g4, cs, g5⟩ := ih (fun m hm => hn m (by simp [hm])) h2 h3
    refine ⟨v :: vs, u, by simp [uniformDraws, h1, g1], g2, g3, ?_, bs ++ cs, h5.trans g5⟩
    rw [g4, h4]; rfl

theorem exchange_perm {α : Type} (i j : Nat) (l : List α) : (exchange i j l).Perm l := by
  unfold exchange
  split
  · rename_i a b ha hb
    obtain ⟨hi, rfl⟩ := List.getElem?_eq_some_iff.mp ha
    obtain ⟨hj, rfl⟩ := List.getElem?_eq_some_iff.mp hb
    exact List.set_set_perm hi hj
  · exact .refl l

/-- A shuffle holds the entries of the list, each as often (spec/45_keysetup_prng.md R267). -/
theorem shuffle_perm {α : Type} (swaps : List (Nat × Nat)) (l : List α) :
    (shuffle swaps l).Perm l := by
  unfold shuffle
  induction swaps generalizing l with
  | nil => exact .refl l
  | cons x xs ih => exact (ih _).trans (exchange_perm _ _ l)

/-- A drawn permutation always goes through (spec/45_keysetup_prng.md R267). -/
theorem permutationDraw_spec (n : Nat) {s : State} (h : Inv s) (hd : CanDraw s) :
    ∃ l t, permutationDraw n s = .ok l t ∧ l.Perm (List.range n) ∧ Inv t ∧ CanDraw t ∧
      t = onDraw s t ∧ ∃ bs, Drawn s bs t := by
  by_cases hn : n = 0
  · subst hn
    exact ⟨[], s, rfl, .refl _, h, hd, rfl, [], .none s⟩
  · obtain ⟨vs, t, h1, h2, h3, h4, h5⟩ := uniformDraws_spec
      (ns := (Config.permBounds n).map fun b => b % n + 1)
      (by intro m hm; obtain ⟨b, -, rfl⟩ := List.mem_map.mp hm; omega) h hd
    refine ⟨_, t, by rw [permutationDraw, if_neg hn, h1]; rfl, shuffle_perm _ _, h2, h3, h4, h5⟩

end Sys2Proof.Machine
end

