-- ==== Sys2Proof/Laws/Rekey.lean ====
section
/-! SUPPORT. What re-keying can do: with parameters that spec/00_scope.md R9 admits it never fails. -/

namespace Sys2Proof.Machine

theorem wf_iff {p : Params} :
    p.wf = true ↔ p.sizesWf = true ∧ p.primesWf = true ∧ p.tuplesWf = true ∧ p.proformaWf = true := by
  simp only [Params.wf, Bool.and_eq_true, and_assoc]

theorem primes_of_wf {p : Params} (h : p.wf = true) {n : Nat} (hn : n ∈ p.primeTable) :
    256 ≤ n ∧ n ≤ p.maxRotorBits := by
  have h := (wf_iff.mp h).2.1
  simp only [Params.primesWf, Bool.and_eq_true, List.all_eq_true, decide_eq_true_eq] at h
  have := h.2 n hn
  exact ⟨this.1.2, this.2⟩

theorem primes_nodup {p : Params} (h : p.wf = true) : p.primeTable.Nodup := by
  have h := (wf_iff.mp h).2.1
  simp only [Params.primesWf, Bool.and_eq_true, decide_eq_true_eq] at h
  exact h.1.2

theorem tuples_of_wf {p : Params} (h : p.wf = true) {t : List Nat} (ht : t ∈ p.cycleTuples) :
    t.length = 4 ∧ (∀ n ∈ t, 1 ≤ n) ∧ t.sum = 256 := by
  have h := (wf_iff.mp h).2.2.1
  simp only [Params.tuplesWf, Bool.and_eq_true, List.all_eq_true] at h
  have := h.2 t ht
  simp only [tupleWf, Bool.and_eq_true, List.all_eq_true, decide_eq_true_eq, beq_iff_eq] at this
  exact ⟨this.1.1.1, this.1.1.2, this.1.2⟩

theorem sizes_of_wf {p : Params} (h : p.wf = true) : 4 ≤ p.ncycMax ∧ p.nSlots ≤ 255 := by
  have h := (wf_iff.mp h).1
  simp only [Params.sizesWf, Bool.and_eq_true, decide_eq_true_eq] at h
  exact ⟨h.1.2, h.1.1.1.2⟩

theorem primeTable_pos {p : Params} (h : p.wf = true) : 0 < p.primeTable.length := by
  have h := (wf_iff.mp h).2.1
  simp only [Params.primesWf, Bool.and_eq_true] at h
  have := h.1.1
  cases hp : p.primeTable <;> simp_all

theorem cycleTuples_pos {p : Params} (h : p.wf = true) : 0 < p.cycleTuples.length := by
  have h := (wf_iff.mp h).2.2.1
  simp only [Params.tuplesWf, Bool.and_eq_true] at h
  have := h.1
  cases hp : p.cycleTuples <;> simp_all

/-- The draws of `ROT.UPDATE` always make legal parameters (spec/41_rotor.md R150). -/
theorem rotorParamsOk_of_draws {p : Params} (h : p.wf = true) {size start step : Nat}
    {data : List Byte} (hs : size ∈ p.primeTable) (h1 : start < size) (h2 : step < size - 1)
    (h3 : data.length = bytesFor size) : rotorParamsOk p size start (1 + step) data = true := by
  obtain ⟨h4, h5⟩ := primes_of_wf h hs
  simp only [rotorParamsOk, Bool.and_eq_true, decide_eq_true_eq]
  omega

theorem pick_range {α : Type} (l : List α) : pick l (List.range l.length) = l := by
  unfold pick
  induction l using List.reverseRecOn with
  | nil => rfl
  | append_singleton l a ih =>
    rw [List.length_append, List.length_singleton, List.range_succ, List.filterMap_append]
    have e : List.filterMap (fun k => (l ++ [a])[k]?) (List.range l.length) =
        List.filterMap (fun k => l[k]?) (List.range l.length) :=
      List.filterMap_congr fun i hi => List.getElem?_append_left (List.mem_range.mp hi)
    rw [e, ih]
    simp

theorem pick_perm {α : Type} {l : List α} {places : List Nat}
    (h : places.Perm (List.range l.length)) : (pick l places).Perm l := by
  have := List.Perm.filterMap (fun k => l[k]?) h
  have e := pick_range l
  unfold pick at e ⊢
  rwa [e] at this

theorem tableBytes_range : isBijection (tableBytes (List.range 256)) = true := by decide +kernel

theorem tableBytes_bijection {l : List Nat} (h : l.Perm (List.range 256)) :
    isBijection (tableBytes l) = true :=
  isBijection_perm (h.map _) tableBytes_range

/-- The draws of `PRM.UPDATE` always make legal parameters (spec/42_permutator.md R179). -/
theorem permutatorParamsOk_of_draws {p : Params} (h : p.wf = true) {tuple ord table : List Nat}
    (ht : tuple ∈ p.cycleTuples) (h1 : ord.Perm (List.range 4))
    (h2 : table.Perm (List.range 256)) :
    permutatorParamsOk p (pick tuple ord) (tableBytes table) = true := by
  obtain ⟨h3, h4, h5⟩ := tuples_of_wf h ht
  have hp := pick_perm (l := tuple) (places := ord) (by rw [h3]; exact h1)
  have hn := (sizes_of_wf h).1
  simp only [permutatorParamsOk, Bool.and_eq_true, decide_eq_true_eq, List.all_eq_true, bne_iff_ne,
    beq_iff_eq, hp.length_eq, hp.sum_eq, h3, h5, tableBytes_bijection h2, and_true]
  refine ⟨⟨by omega, hn⟩, fun n hm => ?_⟩
  have := h4 n (hp.mem_iff.mp hm)
  omega

/-- The bounds of spec/00_scope.md R9 that legal parameters keep (spec/41_rotor.md R141,
spec/42_permutator.md R171). -/
theorem rotorParamsOk_le {p : Params} {size start step : Nat} {data : List Byte}
    (h : rotorParamsOk p size start step data = true) : size ≤ p.maxRotorBits := by
  simp only [rotorParamsOk, Bool.and_eq_true, decide_eq_true_eq] at h
  omega

theorem permutatorBuild_stageOk {p : Params} {lengths : List Nat} {table : List Byte}
    (h : permutatorParamsOk p lengths table = true) :
    StageOk p (.permutator (permutatorBuild lengths table)) := by
  refine ⟨(permutatorBuild_spec h).1, ?_⟩
  have hl := congrArg List.length
    (show (permutatorBuild lengths table).cycles.map Cycle.length = lengths from cyclesFrom_lengths 0 _)
  simp only [permutatorParamsOk, Bool.and_eq_true, decide_eq_true_eq] at h
  rw [List.length_map] at hl
  omega

/-- A stage `KEYGEN` may make: a rotor whose size is an entry of `PRIME_TABLE`, a permutator whose
lengths are a reordering of an entry of `CYCLE_TUPLES` (spec/45_keysetup_prng.md R270). -/
def Keyed (p : Params) : Stage → Prop
  | .rotor r => r.size ∈ p.primeTable
  | .permutator q => ∃ tuple ∈ p.cycleTuples, (q.cycles.map Cycle.length).Perm tuple

theorem Keyed.rotor_le {p : Params} (h : p.wf = true) {r : Rotor} (hk : Keyed p (.rotor r)) :
    r.size ≤ p.maxRotorBits := (primes_of_wf h hk).2

theorem Keyed.cycles_le {p : Params} (h : p.wf = true) {q : Permutator} (hk : Keyed p (.permutator q)) :
    q.cycles.length ≤ p.ncycMax := by
  obtain ⟨tuple, hm, hp⟩ := hk
  have h1 := hp.length_eq
  rw [List.length_map, (tuples_of_wf h hm).1] at h1
  exact h1.trans_le (sizes_of_wf h).1

theorem rotating_spec {α : Type} {table : List α} (h : 0 < table.length) (first k : Nat) :
    ∃ x ∈ table, rotating table first k = some x := by
  have hlt := Nat.mod_lt (first + k) h
  exact ⟨_, List.getElem_mem hlt, List.getElem?_eq_getElem hlt⟩

/-- The rotor `KEYGEN` makes of an entry of `PRIME_TABLE` (spec/45_keysetup_prng.md R270). -/
theorem keygenRotor_spec {p : Params} (h : p.wf = true) (draw : Nat → Nat) {size : Nat}
    (hm : size ∈ p.primeTable) :
    ∃ r, keygenRotor p draw size = some r ∧ RotorOk r ∧ r.size = size := by
  obtain ⟨h1, h2⟩ := primes_of_wf h hm
  have hok : rotorParamsOk p size (draw 0 % size) (1 + draw 1 % (size - 1))
      ((List.range (bytesFor size)).map fun k => BitVec.ofNat 8 (draw (2 + k))) = true :=
    rotorParamsOk_of_draws h hm (Nat.mod_lt _ (by omega)) (Nat.mod_lt _ (by omega)) (by simp)
  obtain ⟨r, h3, h4, h5, -⟩ := rotorBuild_spec hok
  exact ⟨r, by simp [keygenRotor, hok, h3], h4, h5⟩

/-- The permutator `KEYGEN` makes of an entry of `CYCLE_TUPLES` (spec/45_keysetup_prng.md R270). -/
theorem keygenPermutator_spec {p : Params} (h : p.wf = true) (draw : Nat → Nat) {tuple : List Nat}
    (hm : tuple ∈ p.cycleTuples) :
    ∃ q, keygenPermutator p draw tuple = some q ∧ PermutatorOk q ∧
      (q.cycles.map Cycle.length).Perm tuple := by
  have hperm : (keygenPermutation draw 0 4).Perm (List.range 4) := shuffle_perm _ _
  have hok := permutatorParamsOk_of_draws h hm hperm
    (table := keygenPermutation draw 4 256) (shuffle_perm _ _)
  refine ⟨_, by simp only [keygenPermutator, hok, if_true], (permutatorBuild_spec hok).1, ?_⟩
  have hl : (permutatorBuild (pick tuple (keygenPermutation draw 0 4))
      (tableBytes (keygenPermutation draw 4 256))).cycles.map Cycle.length =
      pick tuple (keygenPermutation draw 0 4) := cyclesFrom_lengths 0 _
  rw [hl]
  exact pick_perm (by rw [(tuples_of_wf h hm).1]; exact hperm)

/-- The rotors of the updated cascade: sound, their sizes the entries of `PRIME_TABLE` in rotating order
(spec/41_rotor.md R150). -/
theorem keygenRotors_spec {p : Params} (h : p.wf = true) (a : KeygenArgs) :
    ∃ rs : List Rotor, keygenRotors p a = rs.map some ∧ (∀ r ∈ rs, RotorOk r) ∧
      (rs.map fun r => some r.size) =
        (List.range (slotsOfKind p .rotor)).map (rotating p.primeTable a.primeRot) := by
  have hf : ∀ k, ∃ r, (rotating p.primeTable a.primeRot k).bind
      (keygenRotor p (keygenDraws p a (2 + k))) = some r ∧ RotorOk r ∧
      some r.size = rotating p.primeTable a.primeRot k := by
    intro k
    obtain ⟨size, hm, hk⟩ := rotating_spec (primeTable_pos h) a.primeRot k
    obtain ⟨r, h1, h2, h3⟩ := keygenRotor_spec h (keygenDraws p a (2 + k)) hm
    exact ⟨r, by rw [hk, Option.bind_some, h1], h2, by rw [hk, h3]⟩
  choose f hf using hf
  refine ⟨(List.range (slotsOfKind p .rotor)).map f, ?_, ?_, ?_⟩
  · rw [keygenRotors, List.map_map]
    exact List.map_congr_left fun k _ => (hf k).1
  · intro r hr
    obtain ⟨k, -, rfl⟩ := List.mem_map.mp hr
    exact (hf k).2.1
  · rw [List.map_map]
    exact List.map_congr_left fun k _ => (hf k).2.2

/-- The permutators of the updated cascade: sound, their lengths reorderings of the entries of
`CYCLE_TUPLES` in rotating order (spec/42_permutator.md R179). -/
theorem keygenPermutators_spec {p : Params} (h : p.wf = true) (a : KeygenArgs) :
    ∃ (qs : List Permutator) (tuples : List (List Nat)), keygenPermutators p a = qs.map some ∧
      (∀ q ∈ qs, PermutatorOk q) ∧
      tuples.map some =
        (List.range (slotsOfKind p .permutator)).map (rotating p.cycleTuples a.tupleRot) ∧
      List.Forall₂ List.Perm (qs.map fun q => q.cycles.map Cycle.length) tuples := by
  have hf : ∀ k, ∃ (q : Permutator) (t : List Nat), (rotating p.cycleTuples a.tupleRot k).bind
      (keygenPermutator p (keygenDraws p a (2 + slotsOfKind p .rotor + k))) = some q ∧
      PermutatorOk q ∧ some t = rotating p.cycleTuples a.tupleRot k ∧
      (q.cycles.map Cycle.length).Perm t := by
    intro k
    obtain ⟨t, hm, hk⟩ := rotating_spec (cycleTuples_pos h) a.tupleRot k
    obtain ⟨q, h1, h2, h3⟩ :=
      keygenPermutator_spec h (keygenDraws p a (2 + slotsOfKind p .rotor + k)) hm
    exact ⟨q, t, by rw [hk, Option.bind_some, h1], h2, hk.symm, h3⟩
  choose f g hf using hf
  refine ⟨(List.range (slotsOfKind p .permutator)).map f,
    (List.range (slotsOfKind p .permutator)).map g, ?_, ?_, ?_, ?_⟩
  · rw [keygenPermutators, List.map_map]
    exact List.map_congr_left fun k _ => (hf k).1
  · intro q hq
    obtain ⟨k, -, rfl⟩ := List.mem_map.mp hq
    exact (hf k).2.1
  · rw [List.map_map]
    exact List.map_congr_left fun k _ => (hf k).2.2.1
  · rw [List.map_map, List.forall₂_map_left_iff, List.forall₂_map_right_iff, List.forall₂_same]
    exact fun k _ => (hf k).2.2.2

theorem pick_map {α β : Type} (f : α → β) (l : List α) (places : List Nat) :
    pick (l.map f) places = (pick l places).map f := by
  simp only [pick, List.getElem?_map, List.map_filterMap]

/-- Dealing loses nothing and keeps the layout. -/
theorem deal_spec (ks : List Kind) : ∀ (rs : List Rotor) (qs : List Permutator),
    rs.length = ks.countP (· == .rotor) → qs.length = ks.countP (· == .permutator) →
    ∃ stages : List Stage, deal ks (rs.map some) (qs.map some) = stages.map some ∧
      stages.map stageKind = ks ∧ stages.filterMap rotorOf = rs ∧
      stages.filterMap permutatorOf = qs := by
  induction ks with
  | nil =>
    intro rs qs hr hq
    exact ⟨[], rfl, rfl, (List.length_eq_zero_iff.mp hr).symm, (List.length_eq_zero_iff.mp hq).symm⟩
  | cons k ks ih =>
    intro rs qs hr hq
    cases k with
    | rotor =>
      cases rs with
      | nil => simp at hr
      | cons r rs =>
        obtain ⟨stages, h1, h2, h3, h4⟩ := ih rs qs (by simpa using hr) (by simpa using hq)
        exact ⟨.rotor r :: stages, by simp [deal, h1], by simp [stageKind, h2], by simp [rotorOf, h3],
          by simp [List.filterMap_cons, permutatorOf, h4]⟩
    | permutator =>
      cases qs with
      | nil => simp at hq
      | cons q qs =>
        obtain ⟨stages, h1, h2, h3, h4⟩ := ih rs qs (by simpa using hr) (by simpa using hq)
        exact ⟨.permutator q :: stages, by simp [deal, h1], by simp [stageKind, h2],
          by simp [List.filterMap_cons, rotorOf, h3], by simp [permutatorOf, h4]⟩

/-- The stages a key setup leaves take their sizes and their cycle lengths from the tables in rotating
order, whatever slot they end in (spec/45_keysetup_prng.md R271 steps 3 and 7). -/
def Rotated (p : Params) (a : KeygenArgs) (stages : List Stage) : Prop :=
  ((stages.filterMap rotorOf).map fun r => some r.size).Perm
      ((List.range (slotsOfKind p .rotor)).map (rotating p.primeTable a.primeRot)) ∧
    ∃ lens tuples : List (List Nat),
      lens.Perm ((stages.filterMap permutatorOf).map fun q => q.cycles.map Cycle.length) ∧
      tuples.map some =
        (List.range (slotsOfKind p .permutator)).map (rotating p.cycleTuples a.tupleRot) ∧
      List.Forall₂ List.Perm lens tuples

/-- Every rotor's size is an entry of `PRIME_TABLE` and every permutator's lengths are a reordering of an
entry of `CYCLE_TUPLES`. -/
theorem Rotated.keyed {p : Params} {a : KeygenArgs} {stages : List Stage} (h : Rotated p a stages) :
    ∀ st ∈ stages, Keyed p st := by
  obtain ⟨h1, lens, tuples, h2, h3, h4⟩ := h
  intro st hst
  cases st with
  | rotor r =>
    have hm := h1.mem_iff.mp (List.mem_map.mpr ⟨r, List.mem_filterMap.mpr ⟨_, hst, rfl⟩, rfl⟩)
    obtain ⟨k, -, hk⟩ := List.mem_map.mp hm
    exact List.mem_of_getElem? hk
  | permutator q =>
    have hm := h2.mem_iff.mpr (List.mem_map.mpr ⟨q, List.mem_filterMap.mpr ⟨_, hst, rfl⟩, rfl⟩)
    obtain ⟨n, hn, hl⟩ := List.mem_iff_getElem.mp hm
    have hn' : n < tuples.length := h4.length_eq ▸ hn
    have hp := List.forall₂_iff_get.mp h4 |>.2 n hn hn'
    simp only [List.get_eq_getElem, hl] at hp
    have ht : some tuples[n] ∈ tuples.map some := List.mem_map_of_mem (List.getElem_mem hn')
    rw [h3] at ht
    obtain ⟨k, -, hk⟩ := List.mem_map.mp ht
    exact ⟨tuples[n], List.mem_of_getElem? hk, hp⟩

/-- `KEYGEN` makes a sound stage of the layout's kind for every slot
(spec/45_keysetup_prng.md R270). -/
theorem keygenStages_spec {p : Params} (h : p.wf = true) (a : KeygenArgs) :
    ∃ stages : List Stage, keygenStages p a = stages.map some ∧ stages.map stageKind = p.layout ∧
      (∀ st ∈ stages, StageOk p st) ∧ Rotated p a stages := by
  obtain ⟨rs, h1, h2, h3⟩ := keygenRotors_spec h a
  obtain ⟨qs, tuples, h4, h5, h6, h7⟩ := keygenPermutators_spec h a
  have hr : rs.length = slotsOfKind p .rotor := by simpa using congrArg List.length h3
  have hq : qs.length = slotsOfKind p .permutator := by
    have e1 := congrArg List.length h6
    have e2 := h7.length_eq
    simp only [List.length_map, List.length_range] at e1 e2
    omega
  have pr : (pick rs (keygenPermutation (keygenDraws p a 0) 0 (slotsOfKind p .rotor))).Perm rs :=
    pick_perm (by rw [hr]; exact shuffle_perm _ _)
  have pq : (pick qs (keygenPermutation (keygenDraws p a 1) 0 (slotsOfKind p .permutator))).Perm qs :=
    pick_perm (by rw [hq]; exact shuffle_perm _ _)
  obtain ⟨stages, d1, d2, d3, d4⟩ := deal_spec p.layout _ _ (pr.length_eq.trans hr)
    (pq.length_eq.trans hq)
  have hrot : Rotated p a stages := by
    refine ⟨?_, _, tuples, ?_, h6, h7⟩
    · rw [d3, ← h3]; exact pr.map _
    · rw [d4]; exact (pq.map _).symm
  have hk := hrot.keyed
  refine ⟨stages, by rw [keygenStages, h1, h4, pick_map, pick_map]; exact d1, d2, fun st hst => ?_, hrot⟩
  · cases st with
    | rotor r =>
      exact ⟨h2 r (pr.mem_iff.mp (d3 ▸ List.mem_filterMap.mpr ⟨_, hst, rfl⟩)),
        Keyed.rotor_le h (hk _ hst)⟩
    | permutator q =>
      exact ⟨h5 q (pq.mem_iff.mp (d4 ▸ List.mem_filterMap.mpr ⟨_, hst, rfl⟩)),
        Keyed.cycles_le h (hk _ hst)⟩

theorem rotorOf_stageSeek (idx : Nat) (st : Stage) :
    rotorOf (stageSeek idx st) = (rotorOf st).map (rotorSeek idx) := by cases st <;> rfl

theorem permutatorOf_stageSeek (idx : Nat) (st : Stage) :
    permutatorOf (stageSeek idx st) = (permutatorOf st).map (permutatorSeek idx) := by cases st <;> rfl

/-- A seek keeps the sizes and the lengths. -/
theorem Rotated.stageSeek {p : Params} {a : KeygenArgs} {stages : List Stage} (h : Rotated p a stages)
    (idx : Nat) : Rotated p a (stages.map (stageSeek idx)) := by
  have hr : ((stages.map (Machine.stageSeek idx)).filterMap rotorOf) =
      (stages.filterMap rotorOf).map (rotorSeek idx) := by
    simp only [List.filterMap_map, Function.comp_def, rotorOf_stageSeek, List.map_filterMap]
  have hq : ((stages.map (Machine.stageSeek idx)).filterMap permutatorOf) =
      (stages.filterMap permutatorOf).map (permutatorSeek idx) := by
    simp only [List.filterMap_map, Function.comp_def, permutatorOf_stageSeek, List.map_filterMap]
  have hl (q : Permutator) : (permutatorSeek idx q).cycles.map Cycle.length = q.cycles.map Cycle.length :=
    lengths_map q.cycles _
  unfold Rotated
  rw [hr, hq, List.map_map, List.map_map]
  simp only [Function.comp_def, hl]
  exact h

theorem Loaded.all_isSome {s : State} (h : Loaded s) : s.slots.all Option.isSome = true := by
  refine List.all_eq_true.mpr fun q hq => ?_
  cases q with
  | none => exact absurd hq h.slots_sound.2.2
  | some st => rfl

theorem stageSeek_kind (idx : Nat) (st : Stage) : stageKind (stageSeek idx st) = stageKind st := by
  cases st <;> rfl

theorem stageSeek_ok {p : Params} {st : Stage} (h : StageOk p st) (idx : Nat) :
    StageOk p (stageSeek idx st) := by
  cases st with
  | rotor r => exact ⟨rotorSeek_ok h.1 idx, h.2⟩
  | permutator q => exact ⟨permutatorSeek_ok h.1 idx, (List.length_map _).trans_le h.2⟩

/-- Every stage and the Counter at index `idx`. -/
def soughtTo (idx : Nat) (s : State) : State :=
  { s with slots := s.slots.map (Option.map (stageSeek idx)), counter := idx }

/-- A loaded cascade seeks to any index (spec/44_cascade.md R227). -/
theorem seekAll_spec {s : State} (h : Loaded s) (idx : Nat) :
    seekAll idx s = .ok () (soughtTo idx s) ∧ Loaded (soughtTo idx s) := by
  refine ⟨by simp only [seekAll, h.all_isSome, if_true]; rfl, ?_, fun n k hk => ?_⟩
  · simpa [soughtTo, numSlots] using h.slots_length
  · obtain ⟨st, h1, h2, h3⟩ := h.full n k hk
    exact ⟨stageSeek idx st, by simp [soughtTo, h1], by rw [stageSeek_kind, h2], stageSeek_ok h3 idx⟩

/-- A seek on slots that all hold a stage (spec/44_cascade.md R227). -/
theorem seekAll_some {s : State} {stages : List Stage} (h : s.slots = stages.map some) (idx : Nat) :
    seekAll idx s =
      .ok () { s with slots := stages.map fun st => some (stageSeek idx st), counter := idx } := by
  have hall : s.slots.all Option.isSome = true := by rw [h]; simp
  rw [seekAll, if_pos hall, h]
  simp [Function.comp_def]

theorem stageMax_stageSeek (idx : Nat) (st : Stage) : stageMax (stageSeek idx st) = stageMax st := by
  cases st <;> rfl

theorem stageSeek_stageSeek {p : Params} {st : Stage} (h : StageOk p st) (i j : Nat) :
    stageSeek i (stageSeek j st) = stageSeek i st := by
  cases st with
  | rotor r => exact congrArg Stage.rotor (rotorSeek_rotorSeek r i j)
  | permutator q => exact congrArg Stage.permutator (permutatorSeek_permutatorSeek h.1 i j)

theorem stageAdvance_stageSeek {p : Params} {st : Stage} (h : StageOk p st) (i : Nat) :
    stageAdvance (stageSeek i st) = stageSeek (i + 1) st := by
  cases st with
  | rotor r => exact congrArg Stage.rotor (rotorAdvance_rotorSeek r i)
  | permutator q => exact congrArg Stage.permutator (permutatorAdvance_permutatorSeek h.1 i)

/-- The stages and the key `CAS.INIT` leaves, where the proforma cascade can be built
(spec/45_keysetup_prng.md R270). -/
theorem initCascade_ok {s : State} (h : s.params.wf = true)
    (hp : proformaBuilds s.params s.port.param.proformaSource = true) :
    ∃ (stages : List Stage) (key : List Byte),
      stages.map stageKind = s.params.layout ∧
      (∀ st ∈ stages, StageOk s.params st ∧ Keyed s.params st ∧ st = stageSeek 0 st) ∧
      Rotated s.params (keygenArgs s) stages ∧ key.length = s.params.tkBytes ∧
      initCascade s = .ok (.result (.trackingKey key)) { s with
        slots := stages.map some
        counter := 0
        maximalStates := some (stages.map stageMax).prod
        trackingKey := some key
        primeRot := (s.primeRot + s.params.layout.count .rotor) % s.params.primeTable.length
        tupleRot := (s.tupleRot + s.params.layout.count .permutator) % s.params.cycleTuples.length
        seeded := false
        fsm := .keyed } := by
  obtain ⟨stages, h1, h2, h3, h8⟩ := keygenStages_spec h (keygenArgs s)
  have hall : (stages.map some).all Option.isSome = true := by simp
  have hseek : stages.map (fun st => some (stageSeek 0 st)) = (stages.map (stageSeek 0)).map some := by
    simp
  have hmax : ((stages.map (stageSeek 0)).map stageMax).prod = (stages.map stageMax).prod := by
    simp [Function.comp_def, stageMax_stageSeek]
  refine ⟨stages.map (stageSeek 0), keygenTrackingKey s.params (keygenArgs s), ?_, ?_,
    h8.stageSeek 0, by simp [keygenTrackingKey], ?_⟩
  · rw [List.map_map, ← h2]
    exact List.map_congr_left fun st _ => stageSeek_kind 0 st
  · intro st hst
    obtain ⟨st', hm, rfl⟩ := List.mem_map.mp hst
    exact ⟨stageSeek_ok (h3 st' hm) 0, (h8.stageSeek 0).keyed _ hst,
      (stageSeek_stageSeek (h3 st' hm) 0 0).symm⟩
  · rw [initCascade, if_pos hp]
    simp only [h1, hall, if_true, adoptKeys]
    rw [seekAll_some (s := { s with slots := stages.map some }) rfl, hseek]
    simp only [bind_ok, cascadeMax, List.map_map, Function.comp_def, stageMax_stageSeek]
    rfl

/-- Key setup sees nothing of the state but the parameters and the arguments of `KEYGEN`
(spec/45_keysetup_prng.md R270, R272). -/
theorem initCascade_function {s s' t : State} {ret : Returned} (hp : s'.params = s.params)
    (ha : keygenArgs s' = keygenArgs s) (h : initCascade s = .ok ret t) :
    ∃ t', initCascade s' = .ok ret t' ∧ t'.slots = t.slots ∧ t'.trackingKey = t.trackingKey ∧
      t'.maximalStates = t.maximalStates := by
  have hsrc : s'.port.param.proformaSource = s.port.param.proformaSource :=
    congrArg KeygenArgs.proformaSource ha
  simp only [initCascade, adoptKeys, seekAll, hp, hsrc, ha] at h ⊢
  split at h
  · rename_i hb
    split at h
    · rename_i hall
      simp only [hall, if_true, bind_ok] at h ⊢
      cases h
      rw [if_pos hb]
      exact ⟨_, rfl, rfl, rfl, rfl⟩
    · cases h
  · cases h

theorem initCascade_bad {s : State}
    (hp : proformaBuilds s.params s.port.param.proformaSource = false) :
    initCascade s = .raise .configError (freeSlots s) := by
  simp [initCascade, hp]

end Sys2Proof.Machine
end

