-- ==== Sys2Proof/Laws/Alignment.lean ====
section
/-! SUPPORT. Seeking and stepping the whole cascade: aligned cascades stay aligned
(spec/43_counter_and_stage.md R207). -/

namespace Sys2Proof.Machine

/-- A seek aligns a loaded cascade (spec/44_cascade.md R227, spec/43_counter_and_stage.md R207). -/
theorem aligned_soughtTo {s : State} (hl : Loaded s) (i : Nat) : Aligned i (soughtTo i s) := by
  refine ⟨rfl, fun st hst => ?_⟩
  obtain ⟨q, hq, he⟩ := List.mem_map.mp hst
  obtain ⟨st', rfl, rfl⟩ := Option.map_eq_some_iff.mp he
  exact (stageSeek_stageSeek (hl.slots_sound.2.1 _ hq) i i).symm

/-- A block that passes through moves every stage and the Counter one position on. -/
theorem advanceAll_order {s : State} (hl : Loaded s) :
    (advanceAll (order s) s).slots = s.slots.map (Option.map stageAdvance) ∧
      (advanceAll (order s) s).counter = s.counter + 1 := by
  have gen : ∀ (ns : List Nat) (s : State), ns.Nodup →
      (∀ n : Nat, (advanceAll ns s).slots[n]? =
        if n ∈ ns ∧ n ≠ numSlots s then (s.slots[n]?).map (Option.map stageAdvance)
        else s.slots[n]?) ∧
      (advanceAll ns s).counter = if numSlots s ∈ ns then s.counter + 1 else s.counter := by
    intro ns
    induction ns with
    | nil => intro s _; simp
    | cons m ns ih =>
      intro s hnd
      obtain ⟨h1, h2⟩ := List.nodup_cons.mp hnd
      obtain ⟨i1, i2⟩ := ih (advanceAt m s) h2
      rw [advanceAll_cons]
      refine ⟨fun n => ?_, ?_⟩
      · rw [i1, advanceAt_numSlots, advanceAt_slots_eq]
        by_cases hm : m = numSlots s
        · rw [if_pos hm]
          by_cases hn : n = numSlots s
          · simp [hn]
          · simp [hn, hm]
        · rw [if_neg hm]
          simp only [List.getElem?_modify, List.mem_cons]
          by_cases hmn : m = n
          · subst hmn; simp [h1, hm]
          · have : n ≠ m := Ne.symm hmn
            simp [hmn, this]
      · rw [i2, advanceAt_numSlots, advanceAt_counter_eq]
        by_cases hm : m = numSlots s
        · subst hm; simp [h1]
        · have : numSlots s ≠ m := Ne.symm hm
          simp [hm, this]
  obtain ⟨g1, g2⟩ := gen (order s) s (order_nodup s)
  refine ⟨?_, by rw [g2, if_pos (mem_order.mpr (Nat.le_refl _))]⟩
  apply List.ext_getElem?
  intro n
  rw [g1, List.getElem?_map]
  by_cases hn : n < numSlots s
  · rw [if_pos ⟨mem_order.mpr (by omega), by omega⟩]
  · have : s.slots[n]? = none := List.getElem?_eq_none_iff.mpr (by rw [hl.slots_length]; omega)
    rw [this]; simp

/-- And leaves an aligned cascade aligned at the next index (spec/43_counter_and_stage.md R207). -/
theorem aligned_advanceAll {s : State} (hl : Loaded s) {i : Nat} (ha : Aligned i s) :
    Aligned (i + 1) (advanceAll (order s) s) := by
  obtain ⟨h1, h2⟩ := advanceAll_order hl
  refine ⟨by rw [h2, ha.1], ?_⟩
  rw [h1]
  intro st hst
  obtain ⟨q, hq, he⟩ := List.mem_map.mp hst
  obtain ⟨st', rfl, rfl⟩ := Option.map_eq_some_iff.mp he
  have hok := hl.slots_sound.2.1 _ hq
  conv_lhs => rw [ha.2 st' hq]
  rw [stageAdvance_stageSeek hok]
  have : stageAdvance st' = stageSeek (i + 1) st' := by
    conv_lhs => rw [ha.2 st' hq]
    exact stageAdvance_stageSeek hok i
  rw [this, stageSeek_stageSeek hok]

end Sys2Proof.Machine
end

