-- ==== Sys2Proof/Laws/Invariant.lean ====
section
/-! SUPPORT. What the operations do to the machine's invariant, and to the fields no rule touches. -/

namespace Sys2Proof.Machine

/-- What a rule leaves, where it goes to its end or raises an exception, has the property. -/
def Res.Leaves {α : Type} (R : State → Prop) (m : Res α) : Prop :=
  match m with
  | .ok _ s => R s
  | .raise _ s => R s
  | .refuse _ => True
  | .stuck _ => True

theorem Res.Leaves.bind {α β : Type} {R : State → Prop} {m : Res α} {k : α → State → Res β}
    (hm : m.Leaves R) (hk : ∀ a s, R s → (k a s).Leaves R) : (m.bind k).Leaves R := by
  cases m with
  | ok a s => exact hk a s hm
  | raise x s => exact hm
  | refuse r => trivial
  | stuck f => trivial

theorem Res.Leaves.mono {α : Type} {P R : State → Prop} (h : ∀ {s}, P s → R s) {m : Res α}
    (hm : m.Leaves P) : m.Leaves R := by
  cases m with
  | ok a s => exact h hm
  | raise x s => exact h hm
  | refuse r => trivial
  | stuck f => trivial

theorem Res.Leaves.ok {α : Type} {R : State → Prop} {m : Res α} (h : m.Leaves R) {a : α} {t : State}
    (he : m = .ok a t) : R t := by subst he; exact h

theorem Res.Leaves.raise {α : Type} {R : State → Prop} {m : Res α} (h : m.Leaves R) {x : Exn}
    {t : State} (he : m = .raise x t) : R t := by subst he; exact h

/-- The fields on the host's side of the block, which no rule of a command touches. -/
def SameHost (s t : State) : Prop :=
  t.port = s.port ∧ t.inProgress = s.inProgress ∧ t.commands = s.commands ∧ t.agenda = s.agenda

theorem SameHost.refl (s : State) : SameHost s s := ⟨rfl, rfl, rfl, rfl⟩

/-- The fields no rule but those of the state machine and of `CAS.SETMODE` touches. -/
def Steady (s t : State) : Prop :=
  t.params = s.params ∧ t.fsm = s.fsm ∧ t.mode = s.mode ∧ t.status = s.status ∧ t.fatal = s.fatal ∧
    SameHost s t

theorem Steady.refl (s : State) : Steady s s := ⟨rfl, rfl, rfl, rfl, rfl, SameHost.refl s⟩

theorem Steady.sameHost {s t : State} (h : Steady s t) : SameHost s t := h.2.2.2.2.2

theorem leaves_orNoValue {α : Type} {R : State → Prop} {a : Option α} {s : State} (h : R s) :
    (orNoValue a s).Leaves R := by
  cases a
  · trivial
  · exact h

theorem leaves_orBitIndexRange {α : Type} {R : State → Prop} {a : Option α} {s : State} (h : R s) :
    (orBitIndexRange a s).Leaves R := by
  cases a <;> exact h

theorem leaves_orBadParameters {α : Type} {R : State → Prop} {a : Option α} {s : State} (h : R s) :
    (orBadParameters a s).Leaves R := by
  cases a
  · trivial
  · exact h

section
variable {s0 s : State} (h : Steady s0 s)
include h

theorem steady_rotorApplyAt (d : Direction) (n : Nat) (b : Block) :
    (rotorApplyAt d n b s).Leaves (Steady s0) :=
  (leaves_orNoValue h).bind fun _ _ h => (leaves_orBitIndexRange h).bind fun _ _ h => h

theorem steady_permutatorApplyAt (d : Direction) (n : Nat) (b : Block) :
    (permutatorApplyAt d n b s).Leaves (Steady s0) :=
  (leaves_orNoValue h).bind fun _ _ h => (leaves_orBitIndexRange h).bind fun _ _ h => h

theorem steady_stageApply (d : Direction) (n : Nat) (b : Block) :
    (stageApply d n b s).Leaves (Steady s0) := by
  unfold stageApply
  split
  · exact h
  · split
    · exact steady_rotorApplyAt h d n b
    · exact steady_permutatorApplyAt h d n b
    · trivial

theorem steady_workerStep (j : Nat) : (workerStep j s).Leaves (Steady s0) := by
  unfold workerStep
  split
  · split
    · refine Res.Leaves.bind ?_ fun _ _ h => h
      unfold workerHandle
      split
      · exact h
      · exact steady_stageApply (s := writeQueue j none s) h _ _ _
    · exact h
  · exact h

theorem steady_awaitCond (cond : State → Bool) (f : Fault) (n : Nat) :
    (awaitCond cond f n s).Leaves (Steady s0) := by
  induction n generalizing s with
  | zero =>
    unfold awaitCond
    split
    · exact h
    · trivial
  | succ n ih =>
    unfold awaitCond
    split
    · exact h
    · split
      · trivial
      · exact (steady_workerStep h _).bind fun _ _ h => ih h

theorem steady_await (cond : State → Bool) (f : Fault) : (await cond f s).Leaves (Steady s0) :=
  steady_awaitCond h _ _ _

theorem steady_pushBlock (b : Block) : (pushBlock b s).Leaves (Steady s0) :=
  (steady_await h _ _).bind fun _ _ h => h

theorem steady_pullBlock : (pullBlock s).Leaves (Steady s0) := by
  unfold pullBlock
  split
  · trivial
  · refine (steady_await h _ _).bind fun _ _ h => ?_
    split
    · exact h
    · trivial

theorem steady_refill : (refill s).Leaves (Steady s0) :=
  (leaves_orNoValue h).bind fun _ _ h => (steady_pushBlock h _).bind fun _ _ h =>
    (steady_pullBlock h).bind fun _ _ h => h

theorem steady_takeByte : (takeByte s).Leaves (Steady s0) :=
  (leaves_orNoValue h).bind fun _ _ h => (leaves_orBitIndexRange h).bind fun _ _ h => h

theorem steady_drawByte : (drawByte s).Leaves (Steady s0) := by
  unfold drawByte
  split
  · exact (steady_refill h).bind fun _ _ h => steady_takeByte h
  · exact steady_takeByte h

theorem steady_drawBytes (n : Nat) : (drawBytes n s).Leaves (Steady s0) := by
  induction n generalizing s with
  | zero => exact h
  | succ n ih => exact (steady_drawByte h).bind fun _ _ h => (ih h).bind fun _ _ h => h

theorem steady_uniformDraw (n : Nat) : (uniformDraw n s).Leaves (Steady s0) :=
  (steady_drawBytes h _).bind fun _ _ h => h

theorem steady_uniformDraws (ns : List Nat) : (uniformDraws ns s).Leaves (Steady s0) := by
  induction ns generalizing s with
  | nil => exact h
  | cons n ns ih => exact (steady_uniformDraw h n).bind fun _ _ h => (ih h).bind fun _ _ h => h

theorem steady_permutationDraw (n : Nat) : (permutationDraw n s).Leaves (Steady s0) := by
  unfold permutationDraw
  split
  · exact h
  · exact (steady_uniformDraws h _).bind fun _ _ h => h

theorem steady_rotorNew (n size start step : Nat) (data : List Byte) :
    (rotorNew n size start step data s).Leaves (Steady s0) := by
  unfold rotorNew
  split
  · exact (leaves_orBitIndexRange h).bind fun _ _ h => h
  · exact h

theorem steady_permutatorNew (n : Nat) (lengths : List Nat) (table : List Byte) :
    (permutatorNew n lengths table s).Leaves (Steady s0) := by
  unfold permutatorNew
  split <;> exact h

theorem steady_rotorUpdate (n : Nat) : (rotorUpdate n s).Leaves (Steady s0) := by
  refine (leaves_orBadParameters h).bind fun size s h => ?_
  refine Res.Leaves.bind
    (steady_uniformDraw
      (s := { s with primeRot := (s.primeRot + 1) % s.params.primeTable.length }) h _) fun start s h => ?_
  exact (steady_uniformDraw h _).bind fun _ _ h => (steady_drawBytes h _).bind fun _ _ h =>
    steady_rotorNew h _ _ _ _ _

theorem steady_permutatorUpdate (n : Nat) : (permutatorUpdate n s).Leaves (Steady s0) := by
  refine (leaves_orBadParameters h).bind fun tuple s h => ?_
  refine Res.Leaves.bind
    (steady_permutationDraw
      (s := { s with tupleRot := (s.tupleRot + 1) % s.params.cycleTuples.length }) h _) fun ord s h => ?_
  exact (steady_permutationDraw h _).bind fun _ _ h => steady_permutatorNew h _ _ _

/-- Up to where the queues are discarded and the cascade is Closed, a close is worker steps. -/
theorem sameHost_closePipeline : (closePipeline s).Leaves (SameHost s0) :=
  Res.Leaves.bind (R := SameHost s0)
    (Res.Leaves.mono Steady.sameHost (steady_await h _ _)) fun _ u h1 =>
      Res.Leaves.bind (R := SameHost s0)
        (Res.Leaves.mono (fun h2 => ⟨h2.sameHost.1.trans h1.1, h2.sameHost.2.1.trans h1.2.1,
            h2.sameHost.2.2.1.trans h1.2.2.1, h2.sameHost.2.2.2.trans h1.2.2.2⟩)
          (steady_await (Steady.refl (writeQueue 0 (some []) u)) _ _)) fun _ _ h3 => h3

theorem steady_seekAll (idx : Nat) : (seekAll idx s).Leaves (Steady s0) := by
  unfold seekAll
  split
  · exact h
  · trivial

end

/-- A command that completes with `OK` keeps the invariant if its rule does. -/
theorem Inv.completeOk {s : State} (h : Inv s) (ret : Returned) : Inv (completeOk ret s) :=
  { h with status_lt := show (0 : BitVec 4).toNat < 5 by decide
           running := fun hr => ⟨(h.running hr).mode_set, (h.running hr).queues_length,
             (h.running hr).alive_all, (h.running hr).blocks, (h.running hr).inflight_counts⟩ }

/-- An exception keeps the invariant; a fatal one is never raised while Running. -/
theorem Inv.raiseException {s : State} (h : Inv s) {x : Exn}
    (hx : exnFatal x = true → s.fsm ≠ .running) : Inv (raiseException x s) := by
  have hs : (exnCode x).toNat < 5 := by cases x <;> decide
  refine { h with
    kinds := fun hf => h.kinds (by
      simp only [Machine.raiseException, Bool.or_eq_false_iff] at hf; exact hf.1)
    stages := fun hf => h.stages (by
      simp only [Machine.raiseException, Bool.or_eq_false_iff] at hf; exact hf.1)
    loaded := fun hf => h.loaded (by
      simp only [Machine.raiseException, Bool.or_eq_false_iff] at hf; exact hf.1)
    fatal_idle := ?_
    status_lt := hs
    running := fun hr => ⟨(h.running hr).mode_set, (h.running hr).queues_length,
      (h.running hr).alive_all, (h.running hr).blocks, (h.running hr).inflight_counts⟩ }
  intro hf
  simp only [Machine.raiseException, Bool.or_eq_true] at hf
  rcases hf with hf | hf
  · exact h.fatal_idle hf
  · exact hx hf

/-- A sound stage of the layout's kind in a slot keeps the invariant. -/
theorem Inv.writeSlot {s : State} (h : Inv s) {n : Nat} {st : Stage}
    (hk : s.params.layout[n]? = some (stageKind st)) (hs : StageOk s.params st) :
    Inv (writeSlot n st s) := by
  have hlt : n < s.slots.length := by
    rw [h.slots_length]; exact (List.getElem?_eq_some_iff.mp hk).1
  refine { h with
    slots_length := by simpa [numSlots] using h.slots_length
    kinds := ?_
    stages := ?_
    loaded := ?_
    running := fun hr => ⟨(h.running hr).mode_set, (h.running hr).queues_length,
      (h.running hr).alive_all, (h.running hr).blocks, (h.running hr).inflight_counts⟩ }
  · intro hf m st' hm
    simp only [writeSlot_slots, List.getElem?_set] at hm
    split at hm
    · rename_i e
      subst e
      cases hm
      exact hk
    · exact h.kinds hf m st' hm
  · intro hf st' hm
    rcases List.mem_or_eq_of_mem_set hm with hm | hm
    · exact h.stages hf st' hm
    · cases hm; exact hs
  · intro hf hu hc
    rcases List.mem_or_eq_of_mem_set hc with hc | hc
    · exact h.loaded hf hu hc
    · cases hc

/-- A step of the Counter keeps the invariant. -/
theorem Inv.counter {s : State} (h : Inv s) (c : Nat) : Inv { s with counter := c } :=
  { h with
    running := fun hr => ⟨(h.running hr).mode_set, (h.running hr).queues_length,
      (h.running hr).alive_all, (h.running hr).blocks, (h.running hr).inflight_counts⟩ }

/-- What the slots hold after a seek is sound. -/
theorem soughtTo_slots {s : State} (h : Inv s) (idx : Nat) : Inv (soughtTo idx s) := by
  have hmem : ∀ q, q ∈ (soughtTo idx s).slots → q ∈ s.slots.map (Option.map (stageSeek idx)) :=
    fun q hq => hq
  refine { h with
    slots_length := by simpa [soughtTo, numSlots] using h.slots_length
    kinds := ?_
    stages := ?_
    loaded := ?_
    running := fun hr => ⟨(h.running hr).mode_set, (h.running hr).queues_length,
      (h.running hr).alive_all, (h.running hr).blocks, (h.running hr).inflight_counts⟩ }
  · intro hf n st hn
    simp only [soughtTo, List.getElem?_map, Option.map_eq_some_iff] at hn
    obtain ⟨q, hq, st', rfl, rfl⟩ := hn
    rw [stageSeek_kind]
    exact h.kinds hf n st' hq
  · intro hf st hm
    obtain ⟨q, hq, he⟩ := List.mem_map.mp (hmem _ hm)
    obtain ⟨st', rfl, rfl⟩ := Option.map_eq_some_iff.mp he
    exact stageSeek_ok (h.stages hf st' hq) idx
  · intro hf hu hc
    obtain ⟨q, hq, he⟩ := List.mem_map.mp (hmem _ hc)
    cases q with
    | none => exact h.loaded hf hu hq
    | some st => cases he

/-- Where a transform outside the pipeline goes through, the slot holds the stage one position on. -/
theorem rotorApplyAt_eq_ok {d : Direction} {n : Nat} {b o : Block} {s t : State} :
    rotorApplyAt d n b s = .ok o t ↔
      ∃ r, s.slots[n]? = some (some (.rotor r)) ∧ rotorApply d r b = some (o, rotorAdvance r) ∧
        t = writeSlot n (.rotor (rotorAdvance r)) s := by
  simp only [rotorApplyAt, bind_eq_ok, orNoValue_eq_ok, orBitIndexRange_eq_ok, rotorAt_eq_some]
  constructor
  · rintro ⟨r, s1, ⟨h1, rfl⟩, ⟨o', r'⟩, s2, ⟨h2, rfl⟩, h3⟩
    cases h3
    have := rotorApply_snd h2
    subst this
    exact ⟨r, h1, h2, rfl⟩
  · rintro ⟨r, h1, h2, rfl⟩
    exact ⟨r, s, ⟨h1, rfl⟩, _, s, ⟨h2, rfl⟩, rfl⟩

theorem permutatorApplyAt_eq_ok {d : Direction} {n : Nat} {b o : Block} {s t : State} :
    permutatorApplyAt d n b s = .ok o t ↔
      ∃ p, s.slots[n]? = some (some (.permutator p)) ∧
        permutatorApply d p b = some (o, permutatorAdvance p) ∧
        t = writeSlot n (.permutator (permutatorAdvance p)) s := by
  simp only [permutatorApplyAt, bind_eq_ok, orNoValue_eq_ok, orBitIndexRange_eq_ok,
    permutatorAt_eq_some]
  constructor
  · rintro ⟨r, s1, ⟨h1, rfl⟩, ⟨o', r'⟩, s2, ⟨h2, rfl⟩, h3⟩
    cases h3
    have := permutatorApply_snd h2
    subst this
    exact ⟨r, h1, h2, rfl⟩
  · rintro ⟨r, h1, h2, rfl⟩
    exact ⟨r, s, ⟨h1, rfl⟩, _, s, ⟨h2, rfl⟩, rfl⟩

/-- `ROT.NEW` on legal parameters (spec/41_rotor.md R141). -/
theorem rotorNew_ok {n size start step : Nat} {data : List Byte} {s : State}
    (h : rotorParamsOk s.params size start step data = true) :
    ∃ r, rotorNew n size start step data s = .ok () (writeSlot n (.rotor r) s) ∧ RotorOk r ∧
      r.size = size ∧ r.start = start ∧ r.step = step ∧ r.current = start ∧
      ∀ k < size, bitGet r.buffer k = bitGet data k := by
  obtain ⟨r, h1, h2⟩ := rotorBuild_spec h
  exact ⟨r, by simp [rotorNew, h, h1, orBitIndexRange], h2⟩

theorem rotorNew_bad {n size start step : Nat} {data : List Byte} {s : State}
    (h : rotorParamsOk s.params size start step data = false) :
    rotorNew n size start step data s = .raise .configError s := by
  simp [rotorNew, h]

theorem permutatorNew_ok {n : Nat} {lengths : List Nat} {table : List Byte} {s : State}
    (h : permutatorParamsOk s.params lengths table = true) :
    permutatorNew n lengths table s =
      .ok () (writeSlot n (.permutator (permutatorBuild lengths table)) s) := by
  simp [permutatorNew, h]

theorem permutatorNew_bad {n : Nat} {lengths : List Nat} {table : List Byte} {s : State}
    (h : permutatorParamsOk s.params lengths table = false) :
    permutatorNew n lengths table s = .raise .configError s := by
  simp [permutatorNew, h]

/-- `ROT.UPDATE` always goes through (spec/41_rotor.md R150). -/
theorem rotorUpdate_spec {s : State} (h : Inv s) (hd : CanDraw s) (n : Nat) :
    ∃ (r : Rotor) (pre data : List Byte) (u : State),
      s.params.primeTable[s.primeRot]? = some r.size ∧ RotorOk r ∧ r.current = r.start ∧
      data.length = bytesFor r.size ∧ (∀ k < r.size, bitGet r.buffer k = bitGet data k) ∧
      Drawn { s with primeRot := (s.primeRot + 1) % s.params.primeTable.length } (pre ++ data) u ∧
      Inv u ∧
      u = onDraw { s with primeRot := (s.primeRot + 1) % s.params.primeTable.length } u ∧
      rotorUpdate n s = .ok () (writeSlot n (.rotor r) u) := by
  obtain ⟨size, hget⟩ : ∃ size, s.params.primeTable[s.primeRot]? = some size :=
    ⟨_, List.getElem?_eq_getElem h.prime_lt⟩
  have hm := List.mem_of_getElem? hget
  obtain ⟨hs1, hs2⟩ := primes_of_wf h.params_wf hm
  have hi : Inv { s with primeRot := (s.primeRot + 1) % s.params.primeTable.length } :=
    { h with
      prime_lt := Nat.mod_lt _ (primeTable_pos h.params_wf)
      running := fun hr => ⟨(h.running hr).mode_set, (h.running hr).queues_length,
        (h.running hr).alive_all, (h.running hr).blocks, (h.running hr).inflight_counts⟩ }
  obtain ⟨start, s1, a1, a2, a3, a4, a5, b1, -, a6⟩ := uniformDraw_spec (n := size) (by omega) hi hd
  obtain ⟨step, s2, c1, c2, c3, c4, c5, b2, -, c6⟩ := uniformDraw_spec (n := size - 1) (by omega) a3 a4
  obtain ⟨data, u, d1, d2, d3, d4, d5, d6⟩ := drawBytes_spec (bytesFor size) c3 c4
  have hu : u = onDraw { s with primeRot := (s.primeRot + 1) % s.params.primeTable.length } u := by
    rw [d5, c5, a5]; rfl
  have hp : u.params = s.params := by rw [hu]; rfl
  have hok := rotorParamsOk_of_draws (p := u.params) (by rw [hp]; exact h.params_wf) (by rw [hp]; exact hm)
    a2 c2 d2
  obtain ⟨r, e1, e2, e3, e4, e5, e6, e7⟩ := rotorNew_ok (n := n) hok
  refine ⟨r, b1 ++ b2, data, u, by rw [hget, e3], e2, by rw [e6, e4], by rw [e3]; exact d2,
    by rw [e3]; exact e7, ?_, d3, hu, ?_⟩
  · rw [List.append_assoc]; exact a6.trans (c6.trans d6)
  · rw [rotorUpdate, hget]
    simp only [orBadParameters, bind_ok, a1, c1, d1, e1]

/-- `PRM.UPDATE` always goes through (spec/42_permutator.md R179). -/
theorem permutatorUpdate_spec {s : State} (h : Inv s) (hd : CanDraw s) (n : Nat) :
    ∃ (p : Permutator) (tuple : List Nat) (bs : List Byte) (u : State),
      s.params.cycleTuples[s.tupleRot]? = some tuple ∧ (p.cycles.map Cycle.length).Perm tuple ∧
      PermutatorOk p ∧ p.currentState = 0 ∧ p.bitTable = p.tableSource ∧
      Drawn { s with tupleRot := (s.tupleRot + 1) % s.params.cycleTuples.length } bs u ∧
      Inv u ∧
      u = onDraw { s with tupleRot := (s.tupleRot + 1) % s.params.cycleTuples.length } u ∧
      permutatorUpdate n s = .ok () (writeSlot n (.permutator p) u) := by
  obtain ⟨tuple, hget⟩ : ∃ tuple, s.params.cycleTuples[s.tupleRot]? = some tuple :=
    ⟨_, List.getElem?_eq_getElem h.tuple_lt⟩
  have hm := List.mem_of_getElem? hget
  have hi : Inv { s with tupleRot := (s.tupleRot + 1) % s.params.cycleTuples.length } :=
    { h with
      tuple_lt := Nat.mod_lt _ (cycleTuples_pos h.params_wf)
      running := fun hr => ⟨(h.running hr).mode_set, (h.running hr).queues_length,
        (h.running hr).alive_all, (h.running hr).blocks, (h.running hr).inflight_counts⟩ }
  obtain ⟨ord, s1, a1, a2, a3, a4, a5, b1, a6⟩ := permutationDraw_spec 4 hi hd
  obtain ⟨table, u, c1, c2, c3, c4, c5, b2, c6⟩ := permutationDraw_spec 256 a3 a4
  have hu : u = onDraw { s with tupleRot := (s.tupleRot + 1) % s.params.cycleTuples.length } u := by
    rw [c5, a5]; rfl
  have hp : u.params = s.params := by rw [hu]; rfl
  have hok := permutatorParamsOk_of_draws (p := u.params) (by rw [hp]; exact h.params_wf)
    (by rw [hp]; exact hm) a2 c2
  obtain ⟨e1, e2⟩ := permutatorBuild_spec hok
  refine ⟨permutatorBuild (pick tuple ord) (tableBytes table), tuple, b1 ++ b2, u, hget, ?_, e1, rfl, e2,
    a6.trans c6, c3, hu, ?_⟩
  · have : (permutatorBuild (pick tuple ord) (tableBytes table)).cycles.map Cycle.length =
        pick tuple ord := cyclesFrom_lengths 0 _
    rw [this]
    exact pick_perm (by rw [(tuples_of_wf h.params_wf hm).1]; exact a2)
  · rw [permutatorUpdate, hget]
    simp only [orBadParameters, bind_ok, a1, c1, permutatorNew_ok hok]

end Sys2Proof.Machine
end

