-- ==== Sys2Proof/Laws/Operands.lean ====
section
/-! SUPPORT. Blocks at the ports. -/

namespace Sys2Proof.Machine

@[simp] theorem portBlock_length (d : BitVec 256) (n : Nat) : (portBlock d n).length = n := by
  simp [portBlock]

/-- Bit `i` of a block at a port is port bit `i` (spec/20_memory.md R64). -/
theorem portBlock_get (d : BitVec 256) (n : Nat) {i : Nat} (hi : i < 8 * n) :
    bitGet (portBlock d n) i = some (d.getLsbD i) := by
  have hlt : i / 8 < n := by omega
  simp only [bitGet, portBlock, List.getElem?_map, List.getElem?_range hlt, Option.map_some,
    Option.some.injEq, BitVec.getLsbD_extractLsb']
  have h2 : i % 8 < 8 := by omega
  simp only [h2, decide_true, Bool.true_and]
  congr 1
  omega

@[simp] theorem operandA_length (s : State) : (operandA s).length = s.port.len.toNat :=
  portBlock_length _ _

@[simp] theorem operandB_length (s : State) : (operandB s).length = s.port.len.toNat :=
  portBlock_length _ _

end Sys2Proof.Machine
end

