-- ==== Sys2Proof/Laws/Dispatch.lean ====
section
/-! SUPPORT. Every command's meaning as its legality and its rule under the one order of outcomes
(spec/60_exceptions.md R308). -/

namespace Sys2Proof.Machine

/-- In which states of the cascade a command is legal. -/
def legalOf (i : Instr) : State → Option Refusal :=
  match i with
  | .cmbAdd => alwaysLegal
  | .cmbSub => alwaysLegal
  | .cmbXor => alwaysLegal
  | .rotNew _ => legalOutsideRunning
  | .rotUpdate _ => legalDraw
  | .rotApplyf _ => legalOutsideRunning
  | .rotApplyi _ => legalOutsideRunning
  | .rotSeek _ => legalOutsideRunning
  | .rotIndex _ => legalOutsideRunning
  | .prmNew _ => legalOutsideRunning
  | .prmUpdate _ => legalDraw
  | .prmApplyf _ => legalOutsideRunning
  | .prmApplyi _ => legalOutsideRunning
  | .prmSeek _ => legalOutsideRunning
  | .prmIndex _ => legalOutsideRunning
  | .ctrNew _ => legalOutsideRunning
  | .ctrUpdate _ => legalOutsideRunning
  | .ctrApplyf _ => legalOutsideRunning
  | .ctrApplyi _ => legalOutsideRunning
  | .ctrSeek _ => legalOutsideRunning
  | .ctrIndex _ => legalOutsideRunning
  | .casInit => legalOutsideRunning
  | .casLoad => legalLoad
  | .casSetmode _ => legalKeyedOrClosed
  | .casBuild => legalBuild
  | .casSeek => legalSeek
  | .casIndex => legalIndex
  | .casClose => legalClose
  | .casPush => legalRunning
  | .casPull => legalRunning
  | .rngSeed => alwaysLegal
  | .rngRead => legalDraw
  | .rngUniform => legalDraw
  | .rngPerm => legalDraw

/-- The rule of a command. -/
def ruleOf (i : Instr) : State → Res Returned :=
  match i with
  | .cmbAdd => combine addBlock
  | .cmbSub => combine subBlock
  | .cmbXor => combine xorBlock
  | .rotNew slot =>
    fun s => (rotorNew slot.toNat s.port.param.size s.port.param.start s.port.param.step
      s.port.param.data s).bind fun _ s => .ok .nothing s
  | .rotUpdate slot => fun s => (rotorUpdate slot.toNat s).bind fun _ s => .ok .nothing s
  | .rotApplyf slot =>
    fun s => (rotorApplyAt .forward slot.toNat (operandA s) s).bind fun o s => .ok (returnBlock
      o) s
  | .rotApplyi slot =>
    fun s => (rotorApplyAt .inverse slot.toNat (operandA s) s).bind fun o s => .ok (returnBlock
      o) s
  | .rotSeek slot =>
    fun s => (orNoValue (rotorAt slot.toNat s) s).bind fun r s => .ok .nothing (writeSlot
      slot.toNat (.rotor (rotorSeek s.port.idx r)) s)
  | .rotIndex slot => fun s => (orNoValue (rotorAt slot.toNat s) s).bind fun _ s => notTracked s
  | .prmNew slot =>
    fun s => (permutatorNew slot.toNat s.port.param.cycleLengths s.port.param.tableSource
      s).bind fun _ s => .ok .nothing s
  | .prmUpdate slot => fun s => (permutatorUpdate slot.toNat s).bind fun _ s => .ok .nothing s
  | .prmApplyf slot =>
    fun s => (permutatorApplyAt .forward slot.toNat (operandA s) s).bind fun o s => .ok
      (returnBlock o) s
  | .prmApplyi slot =>
    fun s => (permutatorApplyAt .inverse slot.toNat (operandA s) s).bind fun o s => .ok
      (returnBlock o) s
  | .prmSeek slot =>
    fun s => (orNoValue (permutatorAt slot.toNat s) s).bind fun p s => .ok .nothing (writeSlot
      slot.toNat (.permutator (permutatorSeek s.port.idx p)) s)
  | .prmIndex slot =>
    fun s => (orNoValue (permutatorAt slot.toNat s) s).bind fun _ s => notTracked s
  | .ctrNew _ => fun s => .ok .nothing (counterSeek 0 s)
  | .ctrUpdate _ => fun s => .ok .nothing s
  | .ctrApplyf _ => fun s => (counterApply (operandA s) s).bind fun o s => .ok (returnBlock o) s
  | .ctrApplyi _ => fun s => (counterApply (operandA s) s).bind fun o s => .ok (returnBlock o) s
  | .ctrSeek _ => fun s => .ok .nothing (counterSeek s.port.idx s)
  | .ctrIndex _ => reportCounter
  | .casInit => initCascade
  | .casLoad => fun s => (loadCascade s).bind fun _ s => .ok .nothing s
  | .casSetmode code => setMode code
  | .casBuild => fun s => .ok .nothing (buildPipeline s)
  | .casSeek => fun s => (seekAll s.port.idx s).bind fun _ s => .ok .nothing s
  | .casIndex => reportCounter
  | .casClose => fun s => (closePipeline s).bind fun _ s => .ok .nothing s
  | .casPush => fun s => (pushBlock (operandA s) s).bind fun _ s => .ok .nothing s
  | .casPull => fun s => (pullBlock s).bind fun o s => .ok (returnBlock o) s
  | .rngSeed => fun s => .ok .nothing (seedPrng (operandA s) s)
  | .rngRead =>
    fun s => if operandN s < 0 then .raise .invalidArgument s else (drawBytes (operandN s).toNat
      s).bind fun bs s => .ok (.result (.bytes bs)) s
  | .rngUniform =>
    fun s => if operandN s ≤ 0 then .raise .invalidArgument s else (uniformDraw (operandN
      s).toNat s).bind fun v s => .ok (.result (.value v)) s
  | .rngPerm =>
    fun s => if operandN s < 0 then .raise .invalidArgument s else (permutationDraw (operandN
      s).toNat s).bind fun l s => .ok (.result (.list l)) s

/-- No rule touches the host's side of the block. -/
theorem ruleOf_sameHost (i : Instr) (s : State) : (ruleOf i s).Leaves (SameHost s) := by
  have h := Steady.refl s
  have keep {m : Res Returned} (hm : m.Leaves (Steady s)) : m.Leaves (SameHost s) :=
    hm.mono Steady.sameHost
  cases i with
  | rotNew slot => exact keep ((steady_rotorNew h _ _ _ _ _).bind fun _ _ h => h)
  | rotUpdate slot => exact keep ((steady_rotorUpdate h _).bind fun _ _ h => h)
  | rotApplyf slot => exact keep ((steady_rotorApplyAt h _ _ _).bind fun _ _ h => h)
  | rotApplyi slot => exact keep ((steady_rotorApplyAt h _ _ _).bind fun _ _ h => h)
  | rotSeek slot => exact keep ((leaves_orNoValue h).bind fun _ _ h => h)
  | rotIndex slot => exact keep ((leaves_orNoValue h).bind fun _ _ h => h)
  | prmNew slot => exact keep ((steady_permutatorNew h _ _ _).bind fun _ _ h => h)
  | prmUpdate slot => exact keep ((steady_permutatorUpdate h _).bind fun _ _ h => h)
  | prmApplyf slot => exact keep ((steady_permutatorApplyAt h _ _ _).bind fun _ _ h => h)
  | prmApplyi slot => exact keep ((steady_permutatorApplyAt h _ _ _).bind fun _ _ h => h)
  | prmSeek slot => exact keep ((leaves_orNoValue h).bind fun _ _ h => h)
  | prmIndex slot => exact keep ((leaves_orNoValue h).bind fun _ _ h => h)
  | casInit =>
    show (initCascade s).Leaves _
    unfold initCascade
    split
    · dsimp only
      split
      · refine Res.Leaves.bind (Res.Leaves.bind ?_ fun _ _ h => h) fun _ _ h => h
        unfold seekAll
        split
        · exact SameHost.refl s
        · trivial
      · trivial
    · exact SameHost.refl s
  | casLoad =>
    show Res.Leaves _ ((loadCascade s).bind _)
    refine Res.Leaves.bind (Res.Leaves.bind ?_ fun _ _ h => h) fun _ _ h => h
    unfold seekAll
    split
    · exact SameHost.refl s
    · trivial
  | casSetmode code =>
    show (setMode code s).Leaves _
    unfold setMode
    split <;> exact SameHost.refl s
  | casSeek => exact keep ((steady_seekAll h _).bind fun _ _ h => h)
  | casClose => exact (sameHost_closePipeline h).bind fun _ _ h => h
  | casPush => exact keep ((steady_pushBlock h _).bind fun _ _ h => h)
  | casPull => exact keep ((steady_pullBlock h).bind fun _ _ h => h)
  | rngRead =>
    show Res.Leaves _ (if _ then _ else _)
    split
    · exact SameHost.refl s
    · exact keep ((steady_drawBytes h _).bind fun _ _ h => h)
  | rngUniform =>
    show Res.Leaves _ (if _ then _ else _)
    split
    · exact SameHost.refl s
    · exact keep ((steady_uniformDraw h _).bind fun _ _ h => h)
  | rngPerm =>
    show Res.Leaves _ (if _ then _ else _)
    split
    · exact SameHost.refl s
    · exact keep ((steady_permutationDraw h _).bind fun _ _ h => h)
  | _ => exact SameHost.refl s

/-- Every command is its legality and its rule, the outcomes taken in the order of
spec/60_exceptions.md R308. -/
theorem exec_eq (i : Instr) (s : State) : exec i s = runCommand i (legalOf i) (ruleOf i) s := by
  cases i <;> rfl

/-- An admitted command in a legal state whose rule goes to its end completes with `OK`. -/
theorem exec_ok {i : Instr} {s t : State} {ret : Returned} (ha : Admitted i s)
    (hl : legalOf i s = none) (hr : ruleOf i s = .ok ret t) :
    exec i s = .next (completeOk ret t) :=
  (exec_eq i s).trans (runCommand_ok ha hl hr)

/-- An admitted command in a legal state whose rule raises an exception completes with its code. -/
theorem exec_raise {i : Instr} {s t : State} {x : Exn} (ha : Admitted i s)
    (hl : legalOf i s = none) (hr : ruleOf i s = .raise x t) :
    exec i s = .next (raiseException x t) :=
  (exec_eq i s).trans (runCommand_raise ha hl hr)

/-- Every way a command can give a next state, in the order of spec/60_exceptions.md R308. -/
theorem exec_eq_next {i : Instr} {s t : State} (h : exec i s = .next t) :
    s.fatal = false ∧
      ((encodingLegal i s = false ∧ t = raiseException .illegalCommand s) ∨
        (encodingLegal i s = true ∧ legalOf i s = none ∧ complete (ruleOf i s) = .next t)) :=
  runCommand_eq_next ((exec_eq i s).symm.trans h)

/-- A command is stuck exactly where it is admitted, legal, and its rule waits for what cannot come
(spec/60_exceptions.md R308, R310). -/
theorem exec_eq_fault {i : Instr} {s : State} {f : Fault} :
    exec i s = .fault f ↔ Admitted i s ∧ legalOf i s = none ∧ ruleOf i s = .stuck f := by
  rw [exec_eq]
  refine ⟨fun h => ?_, fun ⟨ha, hl, hr⟩ => by rw [runCommand_admitted ha hl, hr]; rfl⟩
  rw [runCommand] at h
  split at h
  · cases h
  · rename_i hf
    split at h
    · rename_i he
      split at h
      · cases h
      · rename_i hl
        refine ⟨⟨by simpa using hf, he⟩, hl, ?_⟩
        revert h
        cases ruleOf i s <;> simp [complete]
    · cases h

theorem rotorApplyAt_ne_stuck (d : Direction) (n : Nat) (b : Block) (s : State) (f : Fault) :
    rotorApplyAt d n b s ≠ .stuck f :=
  bind_ne_stuck (orNoValue_ne_stuck _ _)
    (fun _ _ => bind_ne_stuck (orBitIndexRange_ne_stuck _ _) (by simp)) f

theorem permutatorApplyAt_ne_stuck (d : Direction) (n : Nat) (b : Block) (s : State) (f : Fault) :
    permutatorApplyAt d n b s ≠ .stuck f :=
  bind_ne_stuck (orNoValue_ne_stuck _ _)
    (fun _ _ => bind_ne_stuck (orBitIndexRange_ne_stuck _ _) (by simp)) f

theorem seekAll_ne_stuck (idx : Nat) (s : State) (f : Fault) : seekAll idx s ≠ .stuck f := by
  unfold seekAll; split <;> simp

theorem loadCascade_ne_stuck (s : State) (f : Fault) : loadCascade s ≠ .stuck f :=
  bind_ne_stuck (seekAll_ne_stuck _ _) (by simp) f

/-- A rule that does not wait for the workers is never stuck (spec/60_exceptions.md R310). -/
theorem ruleOf_ne_stuck {i : Instr} (h : ¬ MayWait i) (s : State) (f : Fault) :
    ruleOf i s ≠ .stuck f := by
  cases i with
  | casPush => exact absurd (by simp [MayWait]) h
  | casPull => exact absurd (by simp [MayWait]) h
  | casClose => exact absurd (by simp [MayWait]) h
  | rngRead => exact absurd (by simp [MayWait]) h
  | rngUniform => exact absurd (by simp [MayWait]) h
  | rngPerm => exact absurd (by simp [MayWait]) h
  | rotUpdate slot => exact absurd (by simp [MayWait]) h
  | prmUpdate slot => exact absurd (by simp [MayWait]) h
  | rotNew slot =>
    refine bind_ne_stuck (fun f => ?_) (by simp) f
    unfold rotorNew
    split
    · exact bind_ne_stuck (orBitIndexRange_ne_stuck _ _) (by simp) f
    · simp
  | prmNew slot =>
    refine bind_ne_stuck (fun f => ?_) (by simp) f
    unfold permutatorNew
    split <;> simp
  | rotApplyf slot => exact bind_ne_stuck (rotorApplyAt_ne_stuck _ _ _ _) (by simp) f
  | rotApplyi slot => exact bind_ne_stuck (rotorApplyAt_ne_stuck _ _ _ _) (by simp) f
  | prmApplyf slot => exact bind_ne_stuck (permutatorApplyAt_ne_stuck _ _ _ _) (by simp) f
  | prmApplyi slot => exact bind_ne_stuck (permutatorApplyAt_ne_stuck _ _ _ _) (by simp) f
  | rotSeek slot => exact bind_ne_stuck (orNoValue_ne_stuck _ _) (by simp) f
  | rotIndex slot => exact bind_ne_stuck (orNoValue_ne_stuck _ _) (by simp [notTracked]) f
  | prmSeek slot => exact bind_ne_stuck (orNoValue_ne_stuck _ _) (by simp) f
  | prmIndex slot => exact bind_ne_stuck (orNoValue_ne_stuck _ _) (by simp [notTracked]) f
  | casInit =>
    show initCascade s ≠ _
    unfold initCascade
    split
    · dsimp only
      split
      · exact bind_ne_stuck (bind_ne_stuck (seekAll_ne_stuck _ _) (by simp)) (by simp) f
      · simp
    · simp
  | casLoad => exact bind_ne_stuck (loadCascade_ne_stuck _) (by simp) f
  | casSeek => exact bind_ne_stuck (seekAll_ne_stuck _ _) (by simp) f
  | casSetmode code =>
    show setMode code s ≠ _
    unfold setMode
    split <;> simp
  | _ => simp [ruleOf, combine, counterApply, counterSeek, reportCounter, Res.bind]

/-- No command touches the host's side of the block. -/
theorem exec_sameHost {i : Instr} {s t : State} (h : exec i s = .next t) : SameHost s t := by
  obtain ⟨-, ⟨-, rfl⟩ | ⟨-, -, h3⟩⟩ := exec_eq_next h
  · exact SameHost.refl s
  · have := ruleOf_sameHost i s
    cases hr : ruleOf i s <;> rw [hr] at h3 this <;> cases h3 <;> exact this

end Sys2Proof.Machine
end

