-- ==== Sys2Proof/Laws/Issue.lean ====
section
/-! SUPPORT. What a turn of the host, of a worker or of the reset line, and so one step, can do. -/

namespace Sys2Proof.Machine

theorem resetAhead_iff {s : State} : resetAhead s = true ↔ .reset ∈ s.agenda := by
  simp [resetAhead]

theorem runPort_decode {s : State} {i : Instr} (h : decode s.port.cmd = .ok i) :
    runPort s = exec i s := by
  rw [runPort, h]

/-- A command that is accepted either completes or is held by a reset that is still to come. -/
theorem acceptCommand_eq_next {s t : State} :
    acceptCommand s = .next t ↔
      runPort { s with inProgress := false } = .next t ∨
        (∃ f, runPort { s with inProgress := false } = .fault f) ∧ .reset ∈ s.agenda ∧
          t = { s with inProgress := true } := by
  cases h : runPort { s with inProgress := false } with
  | next u => simp [acceptCommand, h]
  | refused r => simp [acceptCommand, h]
  | fault f =>
    by_cases hr : resetAhead s = true
    · simp [acceptCommand, h, hr, resetAhead_iff.mp hr, eq_comm]
    · simp [acceptCommand, h, hr, mt resetAhead_iff.mpr hr]

/-- With no reset to come a command that is accepted is the command on the port, whatever its outcome. -/
theorem acceptCommand_eq_runPort {s : State}
    (h : (∀ f, runPort { s with inProgress := false } ≠ .fault f) ∨ .reset ∉ s.agenda) :
    acceptCommand s = runPort { s with inProgress := false } := by
  cases hp : runPort { s with inProgress := false } with
  | next u => simp [acceptCommand, hp]
  | refused r => simp [acceptCommand, hp]
  | fault f =>
    rcases h with h | h
    · exact absurd hp (h f)
    · simp [acceptCommand, hp, mt resetAhead_iff.mp h]

/-- What the host can do with its command: take up the one in progress, have none to issue, or issue the
next. -/
theorem withCommand_eq_next {act : State → Host.Outcome State Fault Refusal} {s t : State} :
    withCommand act s = .next t ↔
      (s.inProgress = true ∧ act s = .next t) ∨
        (s.inProgress = false ∧ s.commands = [] ∧ t = s) ∨
          ∃ c rest, s.inProgress = false ∧ s.commands = c :: rest ∧
            act (sampleCommand c rest s) = .next t := by
  cases hp : s.inProgress <;> cases hc : s.commands <;> simp [withCommand, hp, hc, eq_comm]

/-- A command that is started is left waiting, or accepted. -/
theorem startCommand_eq_next {s t : State} :
    startCommand s = .next t ↔
      (mustWait s = true ∧ t = { s with inProgress := true }) ∨
        (mustWait s = false ∧ acceptCommand s = .next t) := by
  cases h : mustWait s <;> simp [startCommand, h, eq_comm]

theorem mustWait_iff {s : State} :
    mustWait s = true ↔ ∃ f, runPort (haltWorkers { s with inProgress := false }) = .fault f := by
  unfold mustWait
  split <;> simp_all

/-- With no worker to move no worker step is enabled. -/
theorem firstEnabled_halt (s : State) : firstEnabled (haltWorkers s) = none := by
  refine List.find?_eq_none.mpr fun j _ => ?_
  simp only [haltWorkers, workerEnabled, List.getElem?_map, Bool.and_eq_true, not_and, beq_iff_eq]
  intro h
  cases hj : s.alive[j]? <;> simp [hj] at h

/-- With no worker to move a wait is over at once or never. -/
theorem await_halt (cond : State → Bool) (f : Fault) (s : State) :
    await cond f (haltWorkers s) =
      if cond (haltWorkers s) then .ok () (haltWorkers s) else .stuck f := by
  unfold await
  cases movesLeft (haltWorkers s).queues <;> simp [awaitCond, firstEnabled_halt]

/-- With no worker to move a read of more bytes than the buffer holds stops at its refill
(spec/45_keysetup_prng.md R262, R263). -/
theorem drawBytes_halt (n : Nat) {s : State} {buf : Block} (h0 : s.inflight = 0)
    (hq : s.queues = List.replicate (numSlots s + 2) none) (hb : s.rbuf = some buf)
    (hl : buf.length = 32) (h1 : s.rpos ≤ 32) (h2 : 32 < s.rpos + n) :
    ∃ f, drawBytes n (haltWorkers s) = .stuck f := by
  induction n generalizing s with
  | zero => omega
  | succ n ih =>
    by_cases hp : s.rpos = 32
    · have room : await (queueEmpty 0) .stuckPush (haltWorkers s) = .ok () (haltWorkers s) := by
        rw [await_halt, if_pos (by simp [queueEmpty_iff, haltWorkers, hq])]
      have pushed : enqueue buf (haltWorkers s) = haltWorkers (enqueue buf s) := rfl
      have flight : (haltWorkers (enqueue buf s)).inflight = 1 := by simp [haltWorkers, enqueue, h0]
      have block : await (fun s => (queueBlock (outQueue s) s).isSome) .stuckPull
          (haltWorkers (enqueue buf s)) = .stuck .stuckPull := by
        rw [await_halt, if_neg]
        simp [queueBlock, haltWorkers, enqueue, writeQueue, outQueue, hq, numSlots]
      have hp' : (haltWorkers s).rpos = 32 := hp
      have hb' : (haltWorkers s).rbuf = some buf := hb
      exact ⟨.stuckPull, by simp [drawBytes, drawByte, hp', refill, hb', orNoValue, pushBlock, room,
        pushed, pullBlock, flight, block]⟩
    · have hg : buf[s.rpos]? = some buf[s.rpos] := List.getElem?_eq_getElem (by omega)
      have taken : drawByte (haltWorkers s) =
          .ok buf[s.rpos] (haltWorkers { s with rpos := s.rpos + 1 }) := by
        simp [drawByte, haltWorkers, hp, takeByte, hb, orNoValue, orBitIndexRange, hg]
      obtain ⟨f, hf⟩ := ih (s := { s with rpos := s.rpos + 1 }) h0 hq hb
        (by show s.rpos + 1 ≤ 32; omega) (by show 32 < s.rpos + 1 + n; omega)
      exact ⟨f, by simp [drawBytes, taken, hf]⟩

/-- A command that blocks is legal and goes no further as long as no worker moves
(spec/10_state.md R22). -/
theorem Blocks.ruleOf_halt {i : Instr} {s : State} (hb : Blocks i s) (h : Inv s)
    (hr : s.fsm = .running) :
    legalOf i (haltWorkers s) = none ∧ ∃ f, ruleOf i (haltWorkers s) = .stuck f := by
  rcases hb with ⟨rfl, b, hb⟩ | ⟨rfl, hb⟩ | ⟨rfl, hb⟩ | ⟨rfl, hb, hn⟩
  · have : await (queueEmpty 0) .stuckPush (haltWorkers s) = .stuck .stuckPush := by
      rw [await_halt, if_neg (by simp [haltWorkers, queueEmpty_iff, hb])]
    exact ⟨by simp [legalOf, legalRunning, haltWorkers, hr], .stuckPush, by
      simp [ruleOf, pushBlock, this]⟩
  · have : await (fun s => (queueBlock (outQueue s) s).isSome) .stuckPull (haltWorkers s) =
        .stuck .stuckPull := by
      rw [await_halt, if_neg (by simp [queueBlock, haltWorkers, outQueue, numSlots, hb])]
    refine ⟨by simp [legalOf, legalRunning, haltWorkers, hr], .stuckPull, ?_⟩
    simp only [ruleOf, pullBlock]
    split <;> simp [this]
  · have hq := queues_idle (h.live hr) hb
    have room : await (queueEmpty 0) .stuckClose (haltWorkers s) = .ok () (haltWorkers s) := by
      rw [await_halt, if_pos (by simp [queueEmpty_iff, haltWorkers, hq])]
    have put : writeQueue 0 (some []) (haltWorkers s) = haltWorkers (writeQueue 0 (some []) s) := rfl
    have block : await (fun s => queueBlock (outQueue s) s == some []) .stuckClose
        (haltWorkers (writeQueue 0 (some []) s)) = .stuck .stuckClose := by
      rw [await_halt, if_neg (by simp [queueBlock, haltWorkers, writeQueue, outQueue, hq, numSlots])]
    exact ⟨by simp [legalOf, legalClose, haltWorkers, hr, hb], .stuckClose, by
      simp [ruleOf, closePipeline, room, put, block]⟩
  · obtain ⟨h1, h2, h3, h4⟩ := hb
    obtain ⟨buf, hbuf⟩ := Option.ne_none_iff_exists'.mp (h.seeded_rbuf h4)
    have hp := h.rpos_le
    have hn : 32 < (s.rpos : Int) + operandN s := hn
    obtain ⟨f, hf⟩ := drawBytes_halt (operandN s).toNat h3 (queues_idle (h.live h1) h3) hbuf
      (h.rbuf_full _ hbuf) hp (by omega)
    refine ⟨by simp [legalOf, legalDraw, haltWorkers, h1, h2, h3, h4], f, ?_⟩
    have hN : operandN (haltWorkers s) = operandN s := rfl
    show (if _ then _ else _) = _
    rw [if_neg (by omega), hN, hf]; rfl

/-- What happens when nothing is scheduled: the host's turn, the step of an enabled worker, or nothing. -/
theorem freeTurn_eq_next {s t : State} :
    freeTurn s = .next t ↔
      ((s.inProgress = true ∨ s.commands ≠ []) ∧ hostTurn s = .next t) ∨
        (s.inProgress = false ∧ s.commands = [] ∧
          ((firstEnabled s = none ∧ t = s) ∨ ∃ j, firstEnabled s = some j ∧ workerTurn j s = .next t)) := by
  have hc : s.commands.isEmpty = true ↔ s.commands = [] := List.isEmpty_iff
  by_cases hw : s.inProgress = true ∨ s.commands ≠ []
  · have h : (s.inProgress || !s.commands.isEmpty) = true := by simpa [hc] using hw
    rw [freeTurn, if_pos h]
    refine ⟨fun ht => .inl ⟨hw, ht⟩, ?_⟩
    rintro (⟨-, ht⟩ | ⟨h1, h2, -⟩)
    · exact ht
    · simp [h1, h2] at hw
  · have h : ¬ (s.inProgress || !s.commands.isEmpty) = true := by simpa [hc] using hw
    obtain ⟨h1, h2⟩ : s.inProgress = false ∧ s.commands = [] := by simpa using hw
    rw [freeTurn, if_neg h]
    refine Iff.trans ?_ ⟨fun ht => .inr ⟨h1, h2, ht⟩, fun ht => (ht.resolve_left (hw ·.1)).2.2⟩
    cases firstEnabled s with
    | none => simp [eq_comm]
    | some j => simp

/-- What one step can do. -/
theorem step_eq_next {s t : State} :
    step s = .next t ↔
      (s.agenda = [] ∧ freeTurn s = .next t) ∨
        ∃ rest, (s.agenda = .host :: rest ∧ hostTurn { s with agenda := rest } = .next t) ∨
          (s.agenda = .issue :: rest ∧ issueTurn { s with agenda := rest } = .next t) ∨
          (∃ j, s.agenda = .worker j :: rest ∧ workerTurn j { s with agenda := rest } = .next t) ∨
          (s.agenda = .reset :: rest ∧ t = resetEvent { s with agenda := rest }) := by
  cases ha : s.agenda with
  | nil => simp [step, ha]
  | cons a rest =>
    cases a with
    | host => simp [step, ha, agentTurn]
    | issue => simp [step, ha, agentTurn]
    | worker j => simp [step, ha, agentTurn]
    | reset =>
      simp only [step, ha, agentTurn, Host.Outcome.next.injEq]
      refine ⟨fun h => .inr ⟨rest, .inr (.inr (.inr ⟨rfl, h.symm⟩))⟩, ?_⟩
      rintro (⟨h, -⟩ | ⟨r, ⟨h, -⟩ | ⟨h, -⟩ | ⟨j, h, -⟩ | ⟨h, rfl⟩⟩) <;> cases h
      rfl

end Sys2Proof.Machine
end

