-- ==== Sys2Proof/Laws/PerInstr.lean ====
section
/-! SUPPORT. Every command against its row of spec/opcode_table.json: the row is in the table, and the
command's word matches it under the row's mask. -/

namespace Sys2Proof.Laws.TableRow

/-- The match and the mask of a command's row (spec/30_encoding.md R95). -/
def row : Instr → CmdWord × CmdWord
  | .cmbAdd => (0x0000, 0xFFFF)
  | .cmbSub => (0x0100, 0xFFFF)
  | .cmbXor => (0x0200, 0xFFFF)
  | .rotNew _ => (0x1000, 0xFF00)
  | .rotUpdate _ => (0x1100, 0xFF00)
  | .rotApplyf _ => (0x1200, 0xFF00)
  | .rotApplyi _ => (0x1300, 0xFF00)
  | .rotSeek _ => (0x1400, 0xFF00)
  | .rotIndex _ => (0x1500, 0xFF00)
  | .prmNew _ => (0x2000, 0xFF00)
  | .prmUpdate _ => (0x2100, 0xFF00)
  | .prmApplyf _ => (0x2200, 0xFF00)
  | .prmApplyi _ => (0x2300, 0xFF00)
  | .prmSeek _ => (0x2400, 0xFF00)
  | .prmIndex _ => (0x2500, 0xFF00)
  | .ctrNew _ => (0x3000, 0xFF00)
  | .ctrUpdate _ => (0x3100, 0xFF00)
  | .ctrApplyf _ => (0x3200, 0xFF00)
  | .ctrApplyi _ => (0x3300, 0xFF00)
  | .ctrSeek _ => (0x3400, 0xFF00)
  | .ctrIndex _ => (0x3500, 0xFF00)
  | .casInit => (0x4000, 0xFFFF)
  | .casLoad => (0x4100, 0xFFFF)
  | .casSetmode _ => (0x4200, 0xFF00)
  | .casBuild => (0x4300, 0xFFFF)
  | .casSeek => (0x4400, 0xFFFF)
  | .casIndex => (0x4500, 0xFFFF)
  | .casClose => (0x4600, 0xFFFF)
  | .casPush => (0x4700, 0xFFFF)
  | .casPull => (0x4800, 0xFFFF)
  | .rngSeed => (0x5000, 0xFFFF)
  | .rngRead => (0x5100, 0xFFFF)
  | .rngUniform => (0x5200, 0xFFFF)
  | .rngPerm => (0x5300, 0xFFFF)

/-- The command's row is in the table and its word matches that row. -/
def Statement (i : Instr) : Prop :=
  row i ∈ Machine.opcodeRows ∧ encode i &&& (row i).2 = (row i).1

theorem cmbAdd : Statement .cmbAdd := ⟨by decide, by decide⟩
theorem cmbSub : Statement .cmbSub := ⟨by decide, by decide⟩
theorem cmbXor : Statement .cmbXor := ⟨by decide, by decide⟩
theorem rotNew (slot : BitVec 8) : Statement (.rotNew slot) :=
  ⟨show ((0x1000, 0xFF00) : CmdWord × CmdWord) ∈ _ by decide, by decide +revert +kernel⟩
theorem rotUpdate (slot : BitVec 8) : Statement (.rotUpdate slot) :=
  ⟨show ((0x1100, 0xFF00) : CmdWord × CmdWord) ∈ _ by decide, by decide +revert +kernel⟩
theorem rotApplyf (slot : BitVec 8) : Statement (.rotApplyf slot) :=
  ⟨show ((0x1200, 0xFF00) : CmdWord × CmdWord) ∈ _ by decide, by decide +revert +kernel⟩
theorem rotApplyi (slot : BitVec 8) : Statement (.rotApplyi slot) :=
  ⟨show ((0x1300, 0xFF00) : CmdWord × CmdWord) ∈ _ by decide, by decide +revert +kernel⟩
theorem rotSeek (slot : BitVec 8) : Statement (.rotSeek slot) :=
  ⟨show ((0x1400, 0xFF00) : CmdWord × CmdWord) ∈ _ by decide, by decide +revert +kernel⟩
theorem rotIndex (slot : BitVec 8) : Statement (.rotIndex slot) :=
  ⟨show ((0x1500, 0xFF00) : CmdWord × CmdWord) ∈ _ by decide, by decide +revert +kernel⟩
theorem prmNew (slot : BitVec 8) : Statement (.prmNew slot) :=
  ⟨show ((0x2000, 0xFF00) : CmdWord × CmdWord) ∈ _ by decide, by decide +revert +kernel⟩
theorem prmUpdate (slot : BitVec 8) : Statement (.prmUpdate slot) :=
  ⟨show ((0x2100, 0xFF00) : CmdWord × CmdWord) ∈ _ by decide, by decide +revert +kernel⟩
theorem prmApplyf (slot : BitVec 8) : Statement (.prmApplyf slot) :=
  ⟨show ((0x2200, 0xFF00) : CmdWord × CmdWord) ∈ _ by decide, by decide +revert +kernel⟩
theorem prmApplyi (slot : BitVec 8) : Statement (.prmApplyi slot) :=
  ⟨show ((0x2300, 0xFF00) : CmdWord × CmdWord) ∈ _ by decide, by decide +revert +kernel⟩
theorem prmSeek (slot : BitVec 8) : Statement (.prmSeek slot) :=
  ⟨show ((0x2400, 0xFF00) : CmdWord × CmdWord) ∈ _ by decide, by decide +revert +kernel⟩
theorem prmIndex (slot : BitVec 8) : Statement (.prmIndex slot) :=
  ⟨show ((0x2500, 0xFF00) : CmdWord × CmdWord) ∈ _ by decide, by decide +revert +kernel⟩
theorem ctrNew (slot : BitVec 8) : Statement (.ctrNew slot) :=
  ⟨show ((0x3000, 0xFF00) : CmdWord × CmdWord) ∈ _ by decide, by decide +revert +kernel⟩
theorem ctrUpdate (slot : BitVec 8) : Statement (.ctrUpdate slot) :=
  ⟨show ((0x3100, 0xFF00) : CmdWord × CmdWord) ∈ _ by decide, by decide +revert +kernel⟩
theorem ctrApplyf (slot : BitVec 8) : Statement (.ctrApplyf slot) :=
  ⟨show ((0x3200, 0xFF00) : CmdWord × CmdWord) ∈ _ by decide, by decide +revert +kernel⟩
theorem ctrApplyi (slot : BitVec 8) : Statement (.ctrApplyi slot) :=
  ⟨show ((0x3300, 0xFF00) : CmdWord × CmdWord) ∈ _ by decide, by decide +revert +kernel⟩
theorem ctrSeek (slot : BitVec 8) : Statement (.ctrSeek slot) :=
  ⟨show ((0x3400, 0xFF00) : CmdWord × CmdWord) ∈ _ by decide, by decide +revert +kernel⟩
theorem ctrIndex (slot : BitVec 8) : Statement (.ctrIndex slot) :=
  ⟨show ((0x3500, 0xFF00) : CmdWord × CmdWord) ∈ _ by decide, by decide +revert +kernel⟩
theorem casInit : Statement .casInit := ⟨by decide, by decide⟩
theorem casLoad : Statement .casLoad := ⟨by decide, by decide⟩
theorem casSetmode (code : BitVec 8) : Statement (.casSetmode code) :=
  ⟨show ((0x4200, 0xFF00) : CmdWord × CmdWord) ∈ _ by decide, by decide +revert +kernel⟩
theorem casBuild : Statement .casBuild := ⟨by decide, by decide⟩
theorem casSeek : Statement .casSeek := ⟨by decide, by decide⟩
theorem casIndex : Statement .casIndex := ⟨by decide, by decide⟩
theorem casClose : Statement .casClose := ⟨by decide, by decide⟩
theorem casPush : Statement .casPush := ⟨by decide, by decide⟩
theorem casPull : Statement .casPull := ⟨by decide, by decide⟩
theorem rngSeed : Statement .rngSeed := ⟨by decide, by decide⟩
theorem rngRead : Statement .rngRead := ⟨by decide, by decide⟩
theorem rngUniform : Statement .rngUniform := ⟨by decide, by decide⟩
theorem rngPerm : Statement .rngPerm := ⟨by decide, by decide⟩

end Sys2Proof.Laws.TableRow
end

