-- ==== Sys2Proof/Laws/Rules.lean ====
section
/-! SUPPORT. Everything the rule of a command can do in a state that keeps the invariant: go to its end,
raise an exception, find no value in its slot, or be stuck. -/

namespace Sys2Proof.Machine

/-- The ways the rule of a command can end in a sound state. -/
inductive RuleEnds (i : Instr) (s : State) : Res Returned → Prop
  | done (ret : Returned) (t : State) : ReadsValue i s → Inv t → t.fatal = false →
      RuleEnds i s (.ok ret t)
  | raised (x : Exn) (t : State) : ReadsValue i s → Inv (raiseException x t) →
      x = .invalidArgument ∨ x = .configError → t.fsm = s.fsm → t.fatal = false →
      RuleEnds i s (.raise x t)
  | noValue : ¬ ReadsValue i s → RuleEnds i s (.refuse .noValue)
  | stuckPull : i = .casPull → s.inflight = 0 → RuleEnds i s (.stuck .stuckPull)
  | stuckPush : i = .casPush → s.inflight = numSlots s + 2 → RuleEnds i s (.stuck .stuckPush)

/-- The slot of an admitted rotor command is a rotor slot (spec/30_encoding.md R94, R98). -/
theorem slot_rotor {i : Instr} {s : State} {n : BitVec 8} (ha : Admitted i s)
    (hw : i.wf s.params.layout = slotHasKind s.params.layout .rotor n) :
    s.params.layout[n.toNat]? = some .rotor := by
  have := ha.2
  simp only [encodingLegal, hw, slotHasKind, Bool.and_eq_true, beq_iff_eq] at this
  exact this.1

/-- The slot of an admitted permutator command is a permutator slot (spec/30_encoding.md R94, R98). -/
theorem slot_permutator {i : Instr} {s : State} {n : BitVec 8} (ha : Admitted i s)
    (hw : i.wf s.params.layout = slotHasKind s.params.layout .permutator n) :
    s.params.layout[n.toNat]? = some .permutator := by
  have := ha.2
  simp only [encodingLegal, hw, slotHasKind, Bool.and_eq_true, beq_iff_eq] at this
  exact this.1

/-- A rotor slot holds a sound rotor or no value. -/
theorem rotorAt_cases {s : State} (h : Inv s) (hf : s.fatal = false) {n : Nat}
    (hk : s.params.layout[n]? = some .rotor) :
    (rotorAt n s = none ∧ ¬ ∃ st, s.slots[n]? = some (some st)) ∨
      ∃ r, rotorAt n s = some r ∧ s.slots[n]? = some (some (.rotor r)) ∧
        StageOk s.params (.rotor r) := by
  cases hs : s.slots[n]? with
  | none => exact .inl ⟨by simp [rotorAt, hs], by simp⟩
  | some q =>
    cases q with
    | none => exact .inl ⟨by simp [rotorAt, hs], by simp⟩
    | some st =>
      have hk' := h.kinds hf n st hs
      rw [hk] at hk'
      cases st with
      | permutator p => cases hk'
      | rotor r => exact .inr ⟨r, by simp [rotorAt, hs], rfl, h.stages hf _ (List.mem_of_getElem? hs)⟩

/-- A permutator slot holds a sound permutator or no value. -/
theorem permutatorAt_cases {s : State} (h : Inv s) (hf : s.fatal = false) {n : Nat}
    (hk : s.params.layout[n]? = some .permutator) :
    (permutatorAt n s = none ∧ ¬ ∃ st, s.slots[n]? = some (some st)) ∨
      ∃ p, permutatorAt n s = some p ∧ s.slots[n]? = some (some (.permutator p)) ∧
        StageOk s.params (.permutator p) := by
  cases hs : s.slots[n]? with
  | none => exact .inl ⟨by simp [permutatorAt, hs], by simp⟩
  | some q =>
    cases q with
    | none => exact .inl ⟨by simp [permutatorAt, hs], by simp⟩
    | some st =>
      have hk' := h.kinds hf n st hs
      rw [hk] at hk'
      cases st with
      | rotor r => cases hk'
      | permutator p =>
        exact .inr ⟨p, by simp [permutatorAt, hs], rfl, h.stages hf _ (List.mem_of_getElem? hs)⟩

/-- `LEN` of an admitted command that takes a block for a stage (spec/30_encoding.md R98). -/
theorem len_stage {i : Instr} {s : State} (ha : Admitted i s)
    (hl : lenLegal s.port.len i = lenStage s.port.len) :
    1 ≤ s.port.len.toNat ∧ s.port.len.toNat ≤ 32 := by
  have := ha.2
  simp only [encodingLegal, hl, lenStage, Bool.and_eq_true, decide_eq_true_eq] at this
  exact this.2

/-- The slots of a loaded cascade. -/
theorem slots_loaded {s : State} (hl : everySlotLoaded s = true) :
    ∃ stages : List Stage, s.slots = stages.map some ∧ stages.map stageKind = s.params.layout := by
  have hm : s.slots.map (Option.map stageKind) = s.params.layout.map some := by
    simpa [everySlotLoaded] using hl
  generalize s.slots = sl at hm
  generalize s.params.layout = ks at hm
  induction sl generalizing ks with
  | nil => cases ks <;> simp_all
  | cons q qs ih =>
    cases ks with
    | nil => simp at hm
    | cons k ks =>
      simp only [List.map_cons, List.cons.injEq] at hm
      obtain ⟨st, rfl, h2⟩ := Option.map_eq_some_iff.mp hm.1
      obtain ⟨stages, h3, h4⟩ := ih ks hm.2
      exact ⟨st :: stages, by simp [h3], by simp [h2, h4]⟩

section
variable {s : State} (h : Inv s)
include h

theorem ends_rotorNew {slot : BitVec 8} (ha : Admitted (.rotNew slot) s) (hr : s.fsm ≠ .running) :
    RuleEnds (.rotNew slot) s (ruleOf (.rotNew slot) s) := by
  by_cases hp : rotorParamsOk s.params s.port.param.size s.port.param.start s.port.param.step
      s.port.param.data = true
  · obtain ⟨r, h1, h2, h3, -⟩ := rotorNew_ok (n := slot.toNat) hp
    have e : ruleOf (.rotNew slot) s = _ := bind_of_ok h1 _
    rw [e]
    exact .done _ _ trivial (h.writeSlot (slot_rotor ha rfl) ⟨h2, h3.trans_le (rotorParamsOk_le hp)⟩) ha.1
  · have e : ruleOf (.rotNew slot) s = _ :=
      bind_of_raise (rotorNew_bad (n := slot.toNat) (by simpa using hp)) _
    rw [e]
    exact .raised _ _ trivial (h.raiseException fun _ => hr) (.inr rfl) rfl ha.1

theorem ends_permutatorNew {slot : BitVec 8} (ha : Admitted (.prmNew slot) s)
    (hr : s.fsm ≠ .running) : RuleEnds (.prmNew slot) s (ruleOf (.prmNew slot) s) := by
  by_cases hp : permutatorParamsOk s.params s.port.param.cycleLengths s.port.param.tableSource = true
  · have e : ruleOf (.prmNew slot) s = _ := bind_of_ok (permutatorNew_ok (n := slot.toNat) hp) _
    rw [e]
    exact .done _ _ trivial
      (h.writeSlot (st := .permutator _) (slot_permutator ha rfl) (permutatorBuild_stageOk hp)) ha.1
  · have e : ruleOf (.prmNew slot) s = _ :=
      bind_of_raise (permutatorNew_bad (n := slot.toNat) (by simpa using hp)) _
    rw [e]
    exact .raised _ _ trivial (h.raiseException fun _ => hr) (.inr rfl) rfl ha.1

theorem ends_rotorApply {i : Instr} {d : Direction} {slot : BitVec 8} (ha : Admitted i s)
    (hk : s.params.layout[slot.toNat]? = some .rotor) (hn : s.port.len.toNat ≤ 32)
    (hv : ReadsValue i s ↔ ∃ st, s.slots[slot.toNat]? = some (some st)) :
    RuleEnds i s ((rotorApplyAt d slot.toNat (operandA s) s).bind fun o s => .ok (returnBlock o) s) := by
  rcases rotorAt_cases h ha.1 hk with ⟨h1, h2⟩ | ⟨r, -, h2, h3⟩
  · have e : rotorApplyAt d slot.toNat (operandA s) s = .refuse .noValue := by
      simp [rotorApplyAt, h1, orNoValue]
    rw [e]
    exact .noValue (fun hc => h2 (hv.mp hc))
  · obtain ⟨o, h4, -⟩ := rotorApply_spec h3.1 d (b := operandA s) (by simpa using hn)
    rw [bind_of_ok (rotorApplyAt_eq_ok.mpr ⟨r, h2, h4, rfl⟩)]
    exact .done _ _ (hv.mpr ⟨_, h2⟩) (h.writeSlot hk (stageAdvance_ok h3)) ha.1

theorem ends_permutatorApply {i : Instr} {d : Direction} {slot : BitVec 8} (ha : Admitted i s)
    (hk : s.params.layout[slot.toNat]? = some .permutator)
    (hv : ReadsValue i s ↔ ∃ st, s.slots[slot.toNat]? = some (some st)) :
    RuleEnds i s
      ((permutatorApplyAt d slot.toNat (operandA s) s).bind fun o s => .ok (returnBlock o) s) := by
  rcases permutatorAt_cases h ha.1 hk with ⟨h1, h2⟩ | ⟨p, -, h2, h3⟩
  · have e : permutatorApplyAt d slot.toNat (operandA s) s = .refuse .noValue := by
      simp [permutatorApplyAt, h1, orNoValue]
    rw [e]
    exact .noValue (fun hc => h2 (hv.mp hc))
  · obtain ⟨o, h4, -⟩ := permutatorApply_spec h3.1 d (b := operandA s)
    rw [bind_of_ok (permutatorApplyAt_eq_ok.mpr ⟨p, h2, h4, rfl⟩)]
    exact .done _ _ (hv.mpr ⟨_, h2⟩) (h.writeSlot hk (stageAdvance_ok h3)) ha.1

/-- A free value used up is no matter of the invariant. -/
theorem Inv.freeCount (n : Nat) : Inv { s with freeCount := n } :=
  { h with
    running := fun hr => ⟨(h.running hr).mode_set, (h.running hr).queues_length,
      (h.running hr).alive_all, (h.running hr).blocks, (h.running hr).inflight_counts⟩ }

theorem ends_rotorRead {i : Instr} {slot : BitVec 8} {k : Rotor → State → Res Returned}
    (ha : Admitted i s) (hk : s.params.layout[slot.toNat]? = some .rotor)
    (hv : ReadsValue i s ↔ ∃ st, s.slots[slot.toNat]? = some (some st))
    (hd : ∀ r, StageOk s.params (.rotor r) → ∃ ret t, k r s = .ok ret t ∧ Inv t ∧ t.fatal = s.fatal) :
    RuleEnds i s ((orNoValue (rotorAt slot.toNat s) s).bind k) := by
  rcases rotorAt_cases h ha.1 hk with ⟨h1, h2⟩ | ⟨r, h1, h2, h3⟩
  · rw [h1]
    exact .noValue (fun hc => h2 (hv.mp hc))
  · obtain ⟨ret, t, h4, h5, h6⟩ := hd r h3
    rw [h1]
    show RuleEnds i s (k r s)
    rw [h4]
    exact .done _ _ (hv.mpr ⟨_, h2⟩) h5 (h6.trans ha.1)

theorem ends_permutatorRead {i : Instr} {slot : BitVec 8} {k : Permutator → State → Res Returned}
    (ha : Admitted i s) (hk : s.params.layout[slot.toNat]? = some .permutator)
    (hv : ReadsValue i s ↔ ∃ st, s.slots[slot.toNat]? = some (some st))
    (hd : ∀ p, StageOk s.params (.permutator p) → ∃ ret t, k p s = .ok ret t ∧ Inv t ∧ t.fatal = s.fatal) :
    RuleEnds i s ((orNoValue (permutatorAt slot.toNat s) s).bind k) := by
  rcases permutatorAt_cases h ha.1 hk with ⟨h1, h2⟩ | ⟨p, h1, h2, h3⟩
  · rw [h1]
    exact .noValue (fun hc => h2 (hv.mp hc))
  · obtain ⟨ret, t, h4, h5, h6⟩ := hd p h3
    rw [h1]
    show RuleEnds i s (k p s)
    rw [h4]
    exact .done _ _ (hv.mpr ⟨_, h2⟩) h5 (h6.trans ha.1)

/-- The cascade of stages that are all loaded and sound, in Keyed. -/
theorem inv_keyed {stages : List Stage} {t : State} (hr : s.fsm ≠ .running)
    (hk : stages.map stageKind = s.params.layout) (hs : ∀ st ∈ stages, StageOk s.params st)
    (hp : t.params = s.params) (hsl : t.slots = stages.map some) (hfsm : t.fsm = .keyed)
    (hq : t.queues = s.queues) (hal : t.alive = s.alive)
    (hin : t.inflight = s.inflight) (hrb : t.rbuf = s.rbuf) (hrp : t.rpos = s.rpos)
    (hse : t.seeded = true → s.seeded = true) (hpr : t.primeRot < s.params.primeTable.length)
    (htu : t.tupleRot < s.params.cycleTuples.length)
    (hkey : ∀ key, t.trackingKey = some key → key.length = s.params.tkBytes) (hst : t.status = s.status) : Inv t := by
  have hn : numSlots t = numSlots s := by unfold numSlots; rw [hp]
  have hlen : stages.length = s.params.layout.length := by rw [← hk, List.length_map]
  exact {
    params_wf := by rw [hp]; exact h.params_wf
    slots_length := by rw [hsl, hn, List.length_map]; exact hlen
    kinds := fun _ n st hm => by
      rw [hsl, List.getElem?_map, Option.map_eq_some_iff] at hm
      obtain ⟨st', h1, h2⟩ := hm
      cases h2
      rw [hp, ← hk, List.getElem?_map, h1]; rfl
    stages := fun _ st hm => by
      rw [hsl, List.mem_map] at hm
      obtain ⟨st', h1, h2⟩ := hm
      cases h2
      rw [hp]
      exact hs _ h1
    key_bytes := by rw [hp]; exact hkey
    loaded := fun _ _ hc => by
      rw [hsl, List.mem_map] at hc
      obtain ⟨st', -, h2⟩ := hc
      cases h2
    fatal_idle := fun _ hc => by rw [hfsm] at hc; cases hc
    running := fun hc => by rw [hfsm] at hc; cases hc
    idle := fun _ => by rw [hq, hal, hin]; exact h.idle hr
    rpos_le := by rw [hrp]; exact h.rpos_le
    rbuf_full := by rw [hrb]; exact h.rbuf_full
    seeded_rbuf := fun hc => by rw [hrb]; exact h.seeded_rbuf (hse hc)
    prime_lt := by rw [hp]; exact hpr
    tuple_lt := by rw [hp]; exact htu
    status_lt := by rw [hst]; exact h.status_lt }

/-- `CAS.LOAD` finds every slot loaded exactly if no slot is without a value
(spec/44_cascade.md R221). -/
theorem everySlotLoaded_iff (hf : s.fatal = false) : everySlotLoaded s = true ↔ none ∉ s.slots := by
  constructor
  · intro hl hc
    obtain ⟨stages, h1, -⟩ := slots_loaded hl
    rw [h1] at hc
    simp at hc
  · intro hn
    have hlen : s.slots.length = s.params.layout.length := h.slots_length
    simp only [everySlotLoaded, beq_iff_eq]
    refine List.ext_getElem (by simp [hlen]) fun n h1 h2 => ?_
    have hlt : n < s.slots.length := by simpa using h1
    simp only [List.getElem_map]
    cases hs : s.slots[n] with
    | none => exact absurd (hs ▸ List.getElem_mem hlt) hn
    | some st =>
      have hk := h.kinds hf n st (by rw [List.getElem?_eq_getElem hlt, hs])
      rw [List.getElem?_eq_getElem (by omega)] at hk
      exact hk.symm

theorem ends_casInit (ha : Admitted .casInit s) (hr : s.fsm ≠ .running) :
    RuleEnds .casInit s (ruleOf .casInit s) := by
  by_cases hp : proformaBuilds s.params s.port.param.proformaSource = true
  · obtain ⟨stages, key, h1, h2, -, hkey, h3⟩ := initCascade_ok h.params_wf hp
    have e : ruleOf .casInit s = _ := h3
    rw [e]
    exact .done _ _ trivial
      (inv_keyed h hr h1 (fun st hst => (h2 st hst).1) rfl rfl rfl rfl rfl rfl rfl rfl
        (fun hc => by cases hc) (Nat.mod_lt _ (primeTable_pos h.params_wf))
        (Nat.mod_lt _ (cycleTuples_pos h.params_wf)) (fun k hk => by cases hk; exact hkey) rfl) ha.1
  · have e : ruleOf .casInit s = _ := initCascade_bad (by simpa using hp)
    rw [e]
    refine .raised _ _ trivial ?_ (.inr rfl) rfl ha.1
    exact { h with
      slots_length := by simp [raiseException, freeSlots, numSlots]
      kinds := fun hf => by simp [raiseException, exnFatal] at hf
      stages := fun hf => by simp [raiseException, exnFatal] at hf
      loaded := fun hf => by simp [raiseException, exnFatal] at hf
      fatal_idle := fun _ => hr
      running := fun hc => absurd hc hr
      status_lt := show (2 : BitVec 4).toNat < 5 by decide }

theorem ends_casLoad (ha : Admitted .casLoad s) (hl : legalLoad s = none) :
    RuleEnds .casLoad s (ruleOf .casLoad s) := by
  obtain ⟨hr, hl⟩ := legalLoad_eq_none.mp hl
  obtain ⟨stages, h1, h2⟩ := slots_loaded hl
  have h3 : loadCascade s = _ :=
    bind_of_ok (seekAll_some (s := { s with maximalStates := some (cascadeMax s) }) h1 0) _
  have e : ruleOf .casLoad s = _ := bind_of_ok h3 _
  rw [e]
  refine .done _ _ trivial (inv_keyed h (stages := stages.map (stageSeek 0)) hr ?_ ?_ rfl ?_ rfl rfl rfl rfl
    rfl rfl id h.prime_lt h.tuple_lt h.key_bytes rfl) ha.1
  · rw [List.map_map, ← h2]
    exact List.map_congr_left fun st _ => stageSeek_kind 0 st
  · intro st hst
    obtain ⟨st', hm, rfl⟩ := List.mem_map.mp hst
    exact stageSeek_ok (h.stages ha.1 st' (by rw [h1]; exact List.mem_map_of_mem hm)) 0
  · simp

theorem ends_casSetmode {code : BitVec 8} (ha : Admitted (.casSetmode code) s)
    (hl : legalKeyedOrClosed s = none) :
    RuleEnds (.casSetmode code) s (ruleOf (.casSetmode code) s) := by
  have hr : s.fsm ≠ .running := by
    rcases legalKeyedOrClosed_eq_none.mp hl with hk | hk <;> rw [hk] <;> exact fun hc => by cases hc
  show RuleEnds _ s (setMode code s)
  unfold setMode
  split
  · refine .done _ _ trivial ?_ ha.1
    exact { h with running := fun hc => absurd hc hr }
  · exact .raised _ _ trivial (h.raiseException fun _ => hr) (.inr rfl) rfl ha.1

theorem ends_casBuild (ha : Admitted .casBuild s) (hl : legalBuild s = none) :
    RuleEnds .casBuild s (ruleOf .casBuild s) := by
  obtain ⟨hk, hm⟩ := legalBuild_eq_none.mp hl
  have hu : s.fsm ≠ .unkeyed := by rcases hk with hk | hk <;> rw [hk] <;> exact fun hc => by cases hc
  refine .done _ _ trivial ?_ ha.1
  exact { h with
    loaded := fun hf _ => h.loaded hf hu
    fatal_idle := fun hf => by
      have := ha.1
      rw [show (buildPipeline s).fatal = s.fatal from rfl, this] at hf
      cases hf
    running := fun _ => ⟨hm, by simp [buildPipeline, numSlots], rfl, by simp [buildPipeline], by
      simp [buildPipeline, List.countP_replicate]⟩
    idle := fun hc => absurd rfl hc }

theorem ends_casSeek (ha : Admitted .casSeek s) (hl : legalSeek s = none) :
    RuleEnds .casSeek s (ruleOf .casSeek s) := by
  have hu : s.fsm ≠ .unkeyed := by
    rcases legalSeek_eq_none.mp hl with hk | ⟨hk, -⟩ <;> rw [hk] <;> exact fun hc => by cases hc
  have e : ruleOf .casSeek s = _ := bind_of_ok (seekAll_spec (h.full ha.1 hu) s.port.idx).1 _
  rw [e]
  exact .done _ _ trivial (soughtTo_slots h _) ha.1

theorem ends_casClose (ha : Admitted .casClose s) (hl : legalClose s = none) :
    RuleEnds .casClose s (ruleOf .casClose s) := by
  obtain ⟨hr, h0⟩ := legalClose_eq_none.mp hl
  have e : ruleOf .casClose s = _ := bind_of_ok (closePipeline_spec (h.live hr) h0) _
  rw [e]
  refine .done _ _ trivial ?_ ha.1
  exact { h with
    loaded := fun hf _ => h.loaded hf (by rw [hr]; exact fun hc => by cases hc)
    fatal_idle := fun _ hc => by cases hc
    running := fun hc => by cases hc
    idle := fun _ => ⟨rfl, rfl, h0⟩ }

theorem inflight_le (hr : s.fsm = .running) : s.inflight ≤ numSlots s + 2 := by
  have hp := h.running hr
  rw [hp.inflight_counts, ← hp.queues_length]
  exact List.countP_le_length

theorem ends_casPush (ha : Admitted .casPush s) (hl : legalRunning s = none) :
    RuleEnds .casPush s (ruleOf .casPush s) := by
  have hr := legalRunning_eq_none.mp hl
  have hv := h.live hr
  by_cases hi : s.inflight ≤ numSlots s + 1
  · obtain ⟨t, h1, h2, h3⟩ := pushBlock_spec hv hi (operandA s)
    have e : ruleOf .casPush s = _ := bind_of_ok h3 _
    rw [e]
    have hlen := len_stage ha rfl
    have hpl := pushed_live (h1.live hv) h2 (b := operandA s) (by simpa using hlen)
    have hon : enqueue (operandA s) t = onPipeline s (enqueue (operandA s) t) := by
      rw [h1.frame hv]; rfl
    refine .done _ _ trivial (hon ▸ inv_onPipeline h hr (hon ▸ hpl)) ?_
    rw [hon]; exact ha.1
  · have hfull : s.inflight = numSlots s + 2 := by have := inflight_le h hr; omega
    have e : ruleOf .casPush s = .stuck .stuckPush := by
      show (pushBlock (operandA s) s).bind _ = _
      rw [pushBlock_full hv hfull]; rfl
    rw [e]
    exact .stuckPush rfl hfull

theorem ends_casPull (ha : Admitted .casPull s) (hl : legalRunning s = none) :
    RuleEnds .casPull s (ruleOf .casPull s) := by
  have hr := legalRunning_eq_none.mp hl
  have hv := h.live hr
  by_cases hi : s.inflight = 0
  · have e : ruleOf .casPull s = .stuck .stuckPull := by
      show (pullBlock s).bind _ = _
      rw [pullBlock, if_pos hi]; rfl
    rw [e]
    exact .stuckPull rfl hi
  · obtain ⟨t, b, h1, h2, h3⟩ := pullBlock_spec hv hi
    have e : ruleOf .casPull s = _ := bind_of_ok h3 _
    rw [e]
    have hpl := (pulled_live (h1.live hv) (by rw [h1.numSlots_eq hv]; exact h2)).1
    have hon : dequeue t = onPipeline s (dequeue t) := by
      rw [h1.frame hv]; rfl
    refine .done _ _ trivial (hon ▸ inv_onPipeline h hr (hon ▸ hpl)) ?_
    rw [hon]; exact ha.1

/-- A negative or empty request of the PRNG (spec/60_exceptions.md R301). -/
theorem ends_invalidArgument {i : Instr} (ha : Admitted i s) (hv : ReadsValue i s) :
    RuleEnds i s (.raise .invalidArgument s) :=
  .raised _ _ hv (h.raiseException fun hc => by cases hc) (.inl rfl) rfl ha.1

end

/-- Everything the rule of a command can do in a state that keeps the invariant. -/
theorem rule_ends {i : Instr} {s : State} (h : Inv s) (ha : Admitted i s) (hl : legalOf i s = none) :
    RuleEnds i s (ruleOf i s) := by
  cases i with
  | cmbAdd => exact .done _ _ trivial h ha.1
  | cmbSub => exact .done _ _ trivial h ha.1
  | cmbXor => exact .done _ _ trivial h ha.1
  | rotNew slot => exact ends_rotorNew h ha (legalOutsideRunning_eq_none.mp hl)
  | rotUpdate slot =>
    obtain ⟨r, pre, data, u, h1, h2, -, -, -, -, h3, h4, h5⟩ :=
      rotorUpdate_spec h (legalDraw_eq_none.mp hl) slot.toNat
    have e : ruleOf (.rotUpdate slot) s = _ := bind_of_ok h5 _
    rw [e]
    have hp : u.params = s.params := by rw [h4]; rfl
    have hf : u.fatal = s.fatal := by rw [h4]; rfl
    exact .done _ _ trivial
      (h3.writeSlot (st := .rotor r) (by rw [hp]; exact slot_rotor ha rfl)
        ⟨h2, hp ▸ Keyed.rotor_le h.params_wf (List.mem_of_getElem? h1)⟩) (hf.trans ha.1)
  | rotApplyf slot =>
    exact ends_rotorApply h ha (slot_rotor ha rfl) (len_stage ha rfl).2 Iff.rfl
  | rotApplyi slot =>
    exact ends_rotorApply h ha (slot_rotor ha rfl) (len_stage ha rfl).2 Iff.rfl
  | rotSeek slot =>
    exact ends_rotorRead h ha (slot_rotor ha rfl) Iff.rfl fun r hr =>
      ⟨_, _, rfl, h.writeSlot (slot_rotor ha rfl) (stageSeek_ok hr _), rfl⟩
  | rotIndex slot =>
    exact ends_rotorRead h ha (slot_rotor ha rfl) Iff.rfl fun r _ => ⟨_, _, rfl, h.freeCount _, rfl⟩
  | prmNew slot => exact ends_permutatorNew h ha (legalOutsideRunning_eq_none.mp hl)
  | prmUpdate slot =>
    obtain ⟨p, tuple, bs, u, h1, h6, h2, -, -, -, h3, h4, h5⟩ :=
      permutatorUpdate_spec h (legalDraw_eq_none.mp hl) slot.toNat
    have e : ruleOf (.prmUpdate slot) s = _ := bind_of_ok h5 _
    rw [e]
    have hp : u.params = s.params := by rw [h4]; rfl
    have hf : u.fatal = s.fatal := by rw [h4]; rfl
    exact .done _ _ trivial
      (h3.writeSlot (st := .permutator p) (by rw [hp]; exact slot_permutator ha rfl)
        ⟨h2, hp ▸ Keyed.cycles_le h.params_wf ⟨tuple, List.mem_of_getElem? h1, h6⟩⟩) (hf.trans ha.1)
  | prmApplyf slot => exact ends_permutatorApply h ha (slot_permutator ha rfl) Iff.rfl
  | prmApplyi slot => exact ends_permutatorApply h ha (slot_permutator ha rfl) Iff.rfl
  | prmSeek slot =>
    exact ends_permutatorRead h ha (slot_permutator ha rfl) Iff.rfl fun p hp =>
      ⟨_, _, rfl, h.writeSlot (slot_permutator ha rfl) (stageSeek_ok hp _), rfl⟩
  | prmIndex slot =>
    exact ends_permutatorRead h ha (slot_permutator ha rfl) Iff.rfl fun p _ =>
      ⟨_, _, rfl, h.freeCount _, rfl⟩
  | ctrNew slot => exact .done _ _ trivial (h.counter _) ha.1
  | ctrUpdate slot => exact .done _ _ trivial h ha.1
  | ctrApplyf slot => exact .done _ _ trivial (h.counter _) ha.1
  | ctrApplyi slot => exact .done _ _ trivial (h.counter _) ha.1
  | ctrSeek slot => exact .done _ _ trivial (h.counter _) ha.1
  | ctrIndex slot => exact .done _ _ trivial h ha.1
  | casInit => exact ends_casInit h ha (legalOutsideRunning_eq_none.mp hl)
  | casLoad => exact ends_casLoad h ha hl
  | casSetmode code => exact ends_casSetmode h ha hl
  | casBuild => exact ends_casBuild h ha hl
  | casSeek => exact ends_casSeek h ha hl
  | casIndex => exact .done _ _ trivial h ha.1
  | casClose => exact ends_casClose h ha hl
  | casPush => exact ends_casPush h ha hl
  | casPull => exact ends_casPull h ha hl
  | rngSeed =>
    have hlen : s.port.len.toNat = 32 := by
      have := ha.2
      simpa [encodingLegal, Instr.wf, lenLegal, lenFull] using this
    refine .done _ _ trivial ?_ ha.1
    have h1 := h.rng (buf := operandA s) (pos := 32) (by simpa using hlen) (Nat.le_refl _)
    exact { h1 with
      seeded_rbuf := fun _ => by simp [seedPrng]
      running := fun hr => ⟨(h.running hr).mode_set, (h.running hr).queues_length,
        (h.running hr).alive_all, (h.running hr).blocks, (h.running hr).inflight_counts⟩ }
  | rngRead =>
    show RuleEnds _ s (if operandN s < 0 then _ else _)
    split
    · exact ends_invalidArgument h ha trivial
    · obtain ⟨bs, t, h1, -, h2, -, h3, -⟩ :=
        drawBytes_spec (operandN s).toNat h (legalDraw_eq_none.mp hl)
      rw [bind_of_ok h1]
      exact .done _ _ trivial h2 (by rw [h3]; exact ha.1)
  | rngUniform =>
    show RuleEnds _ s (if operandN s ≤ 0 then _ else _)
    split
    · exact ends_invalidArgument h ha trivial
    · obtain ⟨v, t, h1, -, h2, -, h3, -⟩ :=
        uniformDraw_spec (n := (operandN s).toNat) (by omega) h (legalDraw_eq_none.mp hl)
      rw [bind_of_ok h1]
      exact .done _ _ trivial h2 (by rw [h3]; exact ha.1)
  | rngPerm =>
    show RuleEnds _ s (if operandN s < 0 then _ else _)
    split
    · exact ends_invalidArgument h ha trivial
    · obtain ⟨l, t, h1, -, h2, -, h3, -⟩ :=
        permutationDraw_spec (operandN s).toNat h (legalDraw_eq_none.mp hl)
      rw [bind_of_ok h1]
      exact .done _ _ trivial h2 (by rw [h3]; exact ha.1)

end Sys2Proof.Machine
end

