-- ==== Sys2Proof/Tests/Slice0.lean ====
section
/-! SUPPORT. The model's own tests. Decoding: words written from spec/30_encoding.md R91 and R95. Values:
spec/95_test_vectors.md, the section named at each test. Witnesses: states and operands that meet the
hypotheses of the statements. -/

open Sys2Proof Sys2Proof.Machine

namespace Sys2Proof.Tests

/-! ### Decoding: `UNIT`, `OP` and `ARG` bit by bit -/

theorem test_decode_cmb :
    decode 0b0000000000000000 = .ok .cmbAdd ∧ decode 0b0000000100000000 = .ok .cmbSub ∧
      decode 0b0000001000000000 = .ok .cmbXor := by
  refine ⟨?_, ?_, ?_⟩ <;> rfl

theorem test_decode_rot :
    decode 0b0001000000000101 = .ok (.rotNew 5) ∧ decode 0b0001000110000000 = .ok (.rotUpdate 128) ∧
      decode 0b0001001000000001 = .ok (.rotApplyf 1) ∧ decode 0b0001001111111110 = .ok (.rotApplyi 254) ∧
      decode 0b0001010000000010 = .ok (.rotSeek 2) ∧ decode 0b0001010101000000 = .ok (.rotIndex 64) := by
  refine ⟨?_, ?_, ?_, ?_, ?_, ?_⟩ <;> rfl

theorem test_decode_prm :
    decode 0b0010000000000001 = .ok (.prmNew 1) ∧ decode 0b0010000100000011 = .ok (.prmUpdate 3) ∧
      decode 0b0010001000100000 = .ok (.prmApplyf 32) ∧ decode 0b0010001100000001 = .ok (.prmApplyi 1) ∧
      decode 0b0010010000010000 = .ok (.prmSeek 16) ∧ decode 0b0010010100001000 = .ok (.prmIndex 8) := by
  refine ⟨?_, ?_, ?_, ?_, ?_, ?_⟩ <;> rfl

theorem test_decode_ctr :
    decode 0b0011000000000010 = .ok (.ctrNew 2) ∧ decode 0b0011000111111111 = .ok (.ctrUpdate 255) ∧
      decode 0b0011001000000010 = .ok (.ctrApplyf 2) ∧ decode 0b0011001100000100 = .ok (.ctrApplyi 4) ∧
      decode 0b0011010000000010 = .ok (.ctrSeek 2) ∧ decode 0b0011010100000010 = .ok (.ctrIndex 2) := by
  refine ⟨?_, ?_, ?_, ?_, ?_, ?_⟩ <;> rfl

theorem test_decode_cas :
    decode 0b0100000000000000 = .ok .casInit ∧ decode 0b0100000100000000 = .ok .casLoad ∧
      decode 0b0100001000000001 = .ok (.casSetmode 1) ∧ decode 0b0100001100000000 = .ok .casBuild ∧
      decode 0b0100010000000000 = .ok .casSeek ∧ decode 0b0100010100000000 = .ok .casIndex ∧
      decode 0b0100011000000000 = .ok .casClose ∧ decode 0b0100011100000000 = .ok .casPush ∧
      decode 0b0100100000000000 = .ok .casPull := by
  refine ⟨?_, ?_, ?_, ?_, ?_, ?_, ?_, ?_, ?_⟩ <;> rfl

theorem test_decode_rng :
    decode 0b0101000000000000 = .ok .rngSeed ∧ decode 0b0101000100000000 = .ok .rngRead ∧
      decode 0b0101001000000000 = .ok .rngUniform ∧ decode 0b0101001100000000 = .ok .rngPerm := by
  refine ⟨?_, ?_, ?_, ?_⟩ <;> rfl

/-- spec/30_encoding.md R98: reserved units, unlisted `OP`s, an `ARG` that must be 0. -/
theorem test_decode_refused :
    decode 0x6000 = .error .reservedUnit ∧ decode 0xF000 = .error .reservedUnit ∧
      decode 0x0300 = .error .unlistedOp ∧ decode 0x1600 = .error .unlistedOp ∧
      decode 0x2F00 = .error .unlistedOp ∧ decode 0x3600 = .error .unlistedOp ∧
      decode 0x4900 = .error .unlistedOp ∧ decode 0x5400 = .error .unlistedOp ∧
      decode 0x0001 = .error .argNotZero ∧ decode 0x4801 = .error .argNotZero ∧
      decode 0x5080 = .error .argNotZero := by
  refine ⟨?_, ?_, ?_, ?_, ?_, ?_, ?_, ?_, ?_, ?_, ?_⟩ <;> rfl

theorem test_table_word :
    decodeTableWord 16 0x4300 = some .casBuild ∧ decodeTableWord 16 0x6000 = none := by
  refine ⟨?_, ?_⟩ <;> rfl

/-! ### Well-formedness: an ill-formed term for each check -/

theorem test_wf_rotor_slot :
    Instr.wf [.rotor, .permutator] (.rotSeek 0) = true ∧
      Instr.wf [.rotor, .permutator] (.rotSeek 1) = false ∧
      Instr.wf [.rotor, .permutator] (.rotSeek 2) = false := by decide

theorem test_wf_permutator_slot :
    Instr.wf [.rotor, .permutator] (.prmNew 1) = true ∧
      Instr.wf [.rotor, .permutator] (.prmNew 0) = false ∧
      Instr.wf [.rotor, .permutator] (.prmNew 2) = false := by decide

theorem test_wf_counter_slot :
    Instr.wf [.rotor, .permutator] (.ctrSeek 2) = true ∧
      Instr.wf [.rotor, .permutator] (.ctrSeek 1) = false ∧
      Instr.wf [.rotor, .permutator] (.ctrSeek 3) = false := by decide

theorem test_wf_mode_code :
    Instr.wf [.rotor] (.casSetmode 3) = true ∧ Instr.wf [.rotor] (.casSetmode 4) = false := by decide

theorem test_wf_params : fixtureParams.wf = true := by decide +kernel

theorem test_wf_sizes :
    ({ fixtureParams with layout := [] } : Params).wf = false ∧
      ({ fixtureParams with layout := List.replicate 256 .rotor } : Params).wf = false ∧
      ({ fixtureParams with maxRotorBits := 255, primeTable := [] } : Params).sizesWf = false ∧
      ({ fixtureParams with ncycMax := 3 } : Params).wf = false ∧
      ({ fixtureParams with ncycMax := 257 } : Params).wf = false := by decide +kernel

theorem test_wf_primes :
    ({ fixtureParams with primeTable := [] } : Params).wf = false ∧
      ({ fixtureParams with primeTable := [257, 257] } : Params).wf = false ∧
      ({ fixtureParams with primeTable := [259] } : Params).wf = false ∧
      ({ fixtureParams with primeTable := [251] } : Params).wf = false ∧
      ({ fixtureParams with maxRotorBits := 256 } : Params).wf = false := by decide +kernel

theorem test_wf_tuples :
    ({ fixtureParams with cycleTuples := [] } : Params).wf = false ∧
      tupleWf [61, 63, 132] = false ∧ tupleWf [0, 61, 63, 132] = false ∧
      tupleWf [61, 63, 65, 66] = false ∧ tupleWf [60, 64, 65, 67] = false := by decide +kernel

theorem test_wf_proforma :
    proformaFits fixtureParams [] = false ∧
      proformaFits fixtureParams fixtureParams.proforma.reverse = false ∧
      ({ fixtureParams with proforma := [] } : Params).wf = false ∧
      ({ fixtureParams with proforma := fixtureParams.proforma.reverse } : Params).wf = false := by
  decide +kernel

/-- spec/30_encoding.md R98, the `LEN` cases at their boundaries. -/
theorem test_wf_len :
    lenLegal 0 .cmbAdd = true ∧ lenLegal 32 .cmbXor = true ∧ lenLegal 33 .cmbSub = false ∧
      lenLegal 0 (.rotApplyf 0) = false ∧ lenLegal 1 (.prmApplyi 1) = true ∧
      lenLegal 32 (.ctrApplyf 2) = true ∧ lenLegal 33 (.ctrApplyi 2) = false ∧
      lenLegal 0 .casPush = false ∧ lenLegal 31 .rngSeed = false ∧ lenLegal 32 .rngSeed = true := by
  decide

/-! ### Small states: the fixtures of spec/95_test_vectors.md -/

/-- The rotor `T1` at index 0, its buffer as section 2.3 prints it. -/
def t1 : Rotor where
  size := 257
  start := 5
  step := 100
  current := 5
  buffer :=
    [0x0B, 0x30, 0x55, 0x7A, 0x9F, 0xC4, 0xE9, 0x0E, 0x33, 0x58, 0x7D, 0xA2, 0xC7, 0xEC, 0x11, 0x36,
     0x5B, 0x80, 0xA5, 0xCA, 0xEF, 0x14, 0x39, 0x5E, 0x83, 0xA8, 0xCD, 0xF2, 0x17, 0x3C, 0x61, 0x86,
     0x17, 0x60, 0xAA, 0xF4, 0x3E, 0x89, 0xD3, 0x1D, 0x66, 0xB0, 0xFA, 0x44, 0x8F, 0xD9, 0x23, 0x6C,
     0xB6, 0x00, 0x4B, 0x95, 0xDF, 0x29, 0x72, 0xBC, 0x06, 0x51, 0x9B, 0xE5, 0x2F, 0x78, 0xC2, 0x0C,
     0x01]

/-- The permutator `T2`. -/
def t2 : Permutator := permutatorBuild [61, 63, 65, 67] fixtureTable

/-- The block `A`: bytes 1 to 32. -/
def blockA : Block := (List.range 32).map fun k => BitVec.ofNat 8 (k + 1)

/-- Bytes of a block. -/
def block (l : List Nat) : Block := l.map (BitVec.ofNat 8)

/-- The cascade `K1`: both slots loaded, in a state of the cascade and a mode. -/
def k1 (fsm : Fsm) (mode : Mode) : State :=
  { State.reset with slots := [some (.rotor t1), some (.permutator t2)], fsm := fsm, mode := mode }

/-- `K1` running, with blocks in its queues. -/
def running (mode : Mode) (queues : List (Option Block)) : State :=
  { k1 .running mode with
    queues := queues
    alive := [true, true, true]
    inflight := queues.countP Option.isSome }

/-- The empty queues of `K1`. -/
def idleQueues : List (Option Block) := [none, none, none, none]

/-- Operands on the ports. -/
def onPorts (a b : Block) : Command :=
  { Command.empty with len := BitVec.ofNat 6 a.length, dinA := blockPort a, dinB := blockPort b }

/-- One step of the host with a command. -/
def issue (w : CmdWord) (c : Command) (s : State) : Option State :=
  match step { s with commands := [{ c with cmd := w }] } with
  | .next t => some t
  | .fault _ => none
  | .refused _ => none

/-- What one step of the host leaves in two fields. -/
def answer (w : CmdWord) (c : Command) (s : State) : Option (BitVec 4 × Returned) :=
  (issue w c s).map fun t => (t.status, t.returned)

/-- The refusal a command meets. -/
def refusal (w : CmdWord) (c : Command) (s : State) : Option Refusal :=
  match step { s with commands := [{ c with cmd := w }] } with
  | .next _ => none
  | .fault _ => none
  | .refused r => some r

/-- The fault a command meets. -/
def stop (w : CmdWord) (c : Command) (s : State) : Option Fault :=
  match step { s with commands := [{ c with cmd := w }] } with
  | .next _ => none
  | .fault f => some f
  | .refused _ => none

/-! ### Block Combiner (spec/95_test_vectors.md 2.2) -/

theorem test_add_carries :
    answer 0x0000 (onPorts [0x01, 0xFF] [0x00, 0x01]) State.reset =
      some (0, .block 0x0002 2) := by decide +kernel

theorem test_add_wraps :
    answer 0x0000 (onPorts [0xFF, 0xFF] [0x00, 0x01]) State.reset =
      some (0, .block 0x0000 2) := by decide +kernel

theorem test_sub_borrows :
    answer 0x0100 (onPorts [0x02, 0x00] [0x00, 0x01]) State.reset =
      some (0, .block 0xFF01 2) := by decide +kernel

theorem test_xor :
    answer 0x0200 (onPorts [0x0F, 0x0F] [0xFF, 0x00]) State.reset =
      some (0, .block 0x0FF0 2) := by decide +kernel

theorem test_cmb_len :
    (answer 0x0000 (onPorts [] []) State.reset = some (0, .block 0 0)) ∧
      answer 0x0200 { Command.empty with len := 33 } State.reset = some (4, .nothing) := by
  decide +kernel

/-! ### Bit utilities (spec/95_test_vectors.md 2.1) -/

theorem test_bit_utilities :
    bitGet [0x81, 0x02] 7 = some true ∧ bitGet [0x81, 0x02] 8 = some false ∧
      bitGet [0x81, 0x02] 9 = some true ∧ bitGet [0x81, 0x02] 16 = none ∧
      bitSet [0x00, 0x00] 9 = some [0x00, 0x02] ∧ bitClr [0xFF, 0xFF] 15 = some [0xFF, 0x7F] := by
  decide

/-! ### Rotor (spec/95_test_vectors.md 2.3) -/

/-- `T1` and the other rotors on its data, as `ROT.NEW` takes them. -/
def rotorParams (size start step : Nat) : Command :=
  { Command.empty with
    param := { ParamPort.empty with size := size, start := start, step := step, data := fixtureRotorData } }

theorem test_rot_new :
    ((issue 0x1000 (rotorParams 257 5 100) State.reset).map fun t => t.slots) =
      some [some (.rotor t1), none] := by decide +kernel

theorem test_rot_new_bad :
    ((issue 0x1000 (rotorParams 257 5 0) State.reset).map fun t => (t.status, t.fatal, t.slots)) =
      some (2, true, [none, none]) := by decide +kernel

theorem test_rot_applyf :
    ((issue 0x1200 (onPorts blockA []) (k1 .keyed .unset)).map fun t => t.returned) =
      some (.block (blockPort (block
        [0x81, 0xAB, 0xD5, 0xFF, 0x29, 0x54, 0x7E, 0xA0, 0xCA, 0xF4, 0x1E, 0x49, 0x73, 0x9D, 0xBF, 0xE9,
         0x13, 0x3E, 0x68, 0x92, 0xBC, 0xDF, 0x08, 0x32, 0x5D, 0x87, 0xB1, 0xDB, 0xFD, 0x27, 0x52,
         0xDC])) 32) := by decide +kernel

/-- The other rotors of 2.3: a window through the extension, `current` 256 to 255. -/
theorem test_rot_applyf_extension :
    (rotorApply .forward { t1 with start := 256, step := 256, current := 256 } [0, 0, 0, 0]).map (fun o => (o.1, o.2.current)) =
        some (block [0x17, 0x60, 0xAA, 0xF4], 255) ∧
      (rotorApply .forward { t1 with start := 250, step := 7, current := 250 } [0, 0]).map (fun o => (o.1, o.2.current)) =
        some (block [0xE1, 0x05], 0) := by decide +kernel

theorem test_rot_applyi :
    answer 0x1300 (onPorts [0xF6, 0x08, 0x9B, 0x2C] [])
        { k1 .keyed .unset with slots := [some (.rotor (rotorSeek 1 t1)), some (.permutator t2)] } =
      some (0, .block 0xFFFFFFFF 4) := by decide +kernel

theorem test_rot_seek :
    (rotorSeek 2 t1).current = 205 ∧ (rotorSeek (10 ^ 30) t1).current = 1 ∧
      ((issue 0x1400 { Command.empty with idx := 2 } (k1 .keyed .unset)).map fun t => t.slots) =
        some [some (.rotor { t1 with current := 205 }), some (.permutator t2)] := by decide +kernel

/-- `TRACKED = 0`; `IDX_OUT` is open. -/
theorem test_rot_index :
    ((issue 0x1500 Command.empty (k1 .keyed .unset)).map fun t =>
      match t.returned with
      | .index tracked _ => some tracked
      | _ => none) = some (some false) := by rfl

/-- spec/95_test_vectors.md Program 4 step 7: "refused: slot 0 holds no value (rule R331)". -/
theorem test_rot_not_loaded : refusal 0x1400 Command.empty State.reset = some .noValue := by decide +kernel

/-! ### Permutator (spec/95_test_vectors.md 2.4) -/

/-- Permutator parameters on the ports. -/
def permutatorParams (lengths : List Nat) : Command :=
  { Command.empty with
    param := { ParamPort.empty with cycleLengths := lengths, tableSource := fixtureTable } }

theorem test_prm_new :
    t2.maximalStates = 16736265 ∧ t2.bitTable = fixtureTable ∧
      ((issue 0x2001 (permutatorParams [61, 63, 65, 67]) State.reset).map fun t => t.slots) =
        some [none, some (.permutator t2)] := by decide +kernel

theorem test_prm_new_bad :
    ((issue 0x2001 (permutatorParams [64, 64, 64, 63]) State.reset).map fun t => (t.status, t.fatal)) =
        some (2, true) ∧
      ((issue 0x2001 (permutatorParams [256, 0]) State.reset).map fun t => (t.status, t.fatal)) =
        some (2, true) := by decide +kernel

theorem fixture_bijection : isBijection fixtureTable = true := by decide +kernel

/-- Cycle lengths that are not coprime are accepted. -/
theorem test_prm_new_not_coprime :
    permutatorParamsOk fixtureParams [64, 64, 64, 64] fixtureTable = true ∧
      (permutatorBuild [64, 64, 64, 64] fixtureTable).maximalStates = 16777216 :=
  ⟨by simp [permutatorParamsOk, fixtureParams, fixture_bijection], by decide⟩

theorem test_prm_applyf :
    ((issue 0x2201 (onPorts blockA []) (k1 .keyed .unset)).map fun t => t.returned) =
      some (.block (blockPort (block
        [0x1A, 0x36, 0x04, 0x21, 0x16, 0x3A, 0x0C, 0x2A, 0x1E, 0x30, 0x00, 0x26, 0x12, 0x3C, 0x08, 0x2E,
         0x18, 0x34, 0x06, 0x22, 0x14, 0x38, 0x0E, 0x28, 0x1C, 0x32, 0x02, 0x24, 0x10, 0x3E, 0x0A,
         0x2C])) 32) := by decide +kernel

/-- A partial block passes through and the permutator advances all the same. -/
theorem test_prm_applyf_partial :
    (permutatorApply .forward t2 [1, 2, 3]).map
        (fun o => (o.1, o.2.currentState, o.2.cycles.map Machine.Cycle.current, o.2.bitTable[60]?)) =
      some ([1, 2, 3], 1, [1, 1, 1, 1], some 0x0D) := by decide +kernel

/-- Step 6: the inverse at state 1. -/
theorem test_prm_applyi :
    ((permutatorApply .inverse (permutatorSeek 1 t2) (block
        [0x13, 0x09, 0x1E, 0x04, 0x17, 0x0C, 0x1A, 0x03, 0x11, 0x0A, 0x1C, 0x06, 0x14, 0x0E, 0x19, 0x01,
         0x12, 0x08, 0x1F, 0x05, 0x16, 0x0D, 0x1B, 0x82, 0x10, 0x0B, 0x1D, 0x06, 0x15, 0x0F, 0x1A,
         0x00])).map Prod.fst) = some blockA := by decide +kernel

theorem test_prm_seek :
    (permutatorSeek 1000003 t2).cycles.map Machine.Cycle.current = [30, 4, 43, 28] ∧
      (permutatorSeek 1000003 t2).bitTable.take 4 = block [0x9F, 0x46, 0xED, 0x94] ∧
      (permutatorSeek 16736266 t2).currentState = 1 := by decide +kernel

theorem test_prm_seek_large :
    (permutatorSeek (10 ^ 30) t2).currentState = 1110565 ∧
      ((issue 0x2401 { Command.empty with idx := 1 } (k1 .keyed .unset)).map fun t => t.slots[1]?) =
        some (some (some (.permutator (permutatorAdvance t2)))) := by decide +kernel

theorem test_prm_index :
    ((issue 0x2501 Command.empty (k1 .keyed .unset)).map fun t =>
      match t.returned with
      | .index tracked _ => some tracked
      | _ => none) = some (some false) := by rfl

/-! ### Counter (spec/95_test_vectors.md 2.5) -/

theorem test_ctr_seek_new :
    ((issue 0x3402 { Command.empty with idx := 5 } State.reset).map fun t => t.counter) = some 5 ∧
      ((issue 0x3002 Command.empty { State.reset with counter := 7 }).map fun t => t.counter) = some 0 := by
  decide +kernel

theorem test_ctr_apply :
    ((issue 0x3202 (onPorts [0xAA, 0xBB] []) { State.reset with counter := 5 }).map fun t =>
        (t.counter, t.returned)) = some (6, .block 0xBBAA 2) ∧
      ((issue 0x3302 (onPorts blockA []) { State.reset with counter := 6 }).map fun t =>
        (t.counter, t.returned)) = some (7, .block (blockPort blockA) 32) := by decide +kernel

theorem test_ctr_update_index :
    ((issue 0x3102 Command.empty { State.reset with counter := 7 }).map fun t => t.counter) = some 7 ∧
      ((issue 0x3502 Command.empty { State.reset with counter := 7 }).map fun t => t.returned) =
        some (.index true 7) ∧
      answer 0x3202 Command.empty State.reset = some (4, .nothing) ∧
      answer 0x3400 Command.empty State.reset = some (4, .nothing) := by decide +kernel

/-! ### Cascade (spec/95_test_vectors.md 2.6, 2.8, Programs 3 and 4) -/

theorem test_cas_load :
    ((issue 0x4100 Command.empty (k1 .unkeyed .unset)).map fun t =>
        (t.fsm, t.maximalStates, t.counter)) = some (.keyed, some 4301220105, 0) ∧
      refusal 0x4100 Command.empty State.reset = some .noValue := by decide +kernel

theorem test_cas_setmode :
    ((issue 0x4200 Command.empty (k1 .keyed .unset)).map fun t => t.mode) = some .encrypt ∧
      ((issue 0x4201 Command.empty (k1 .closed .encrypt)).map fun t => t.mode) = some .decrypt ∧
      ((issue 0x4203 Command.empty (k1 .keyed .unset)).map fun t => (t.status, t.fatal, t.mode)) =
        some (2, true, .unset) ∧
      answer 0x4204 Command.empty (k1 .keyed .unset) = some (4, .nothing) := by decide +kernel

theorem test_cas_build :
    ((issue 0x4300 Command.empty (k1 .keyed .encrypt)).map fun t =>
        (t.fsm, t.queues, t.alive, t.inflight)) =
        some (.running, idleQueues, [true, true, true], 0) ∧
      refusal 0x4300 Command.empty (k1 .keyed .unset) = some .modeUnset := by decide +kernel

theorem test_cas_seek_index :
    ((issue 0x4400 { Command.empty with idx := 2 } (k1 .keyed .encrypt)).map fun t =>
        (t.slots.head?, t.counter)) = some (some (some (.rotor { t1 with current := 205 })), 2) ∧
      ((issue 0x4500 Command.empty { k1 .closed .encrypt with counter := 3 }).map fun t => t.returned) =
        some (.index true 3) ∧
      refusal 0x4400 Command.empty (k1 .closed .encrypt) = some .wrongState := by decide +kernel

theorem test_cas_close :
    ((issue 0x4600 Command.empty (running .encrypt idleQueues)).map fun t =>
        (t.fsm, t.queues, t.alive)) = some (.closed, [], []) ∧
      refusal 0x4600 Command.empty (running .encrypt [some blockA, none, none, none]) =
        some .blocksInFlight := by decide +kernel

/-- A push into a full first queue makes room first: the block there goes through the rotor. -/
theorem test_cas_push :
    ((issue 0x4700 (onPorts [0xDE] []) (running .encrypt [some blockA, none, none, none])).map fun t =>
        (t.inflight, t.queues.head?, t.queues[1]?)) =
        some (2, some (some [0xDE]), some (some (block
          [0x81, 0xAB, 0xD5, 0xFF, 0x29, 0x54, 0x7E, 0xA0, 0xCA, 0xF4, 0x1E, 0x49, 0x73, 0x9D, 0xBF, 0xE9,
           0x13, 0x3E, 0x68, 0x92, 0xBC, 0xDF, 0x08, 0x32, 0x5D, 0x87, 0xB1, 0xDB, 0xFD, 0x27, 0x52,
           0xDC]))) ∧
      answer 0x4700 Command.empty (running .encrypt idleQueues) = some (4, .nothing) := by decide +kernel

theorem test_cas_push_stuck :
    stop 0x4700 (onPorts [1] []) (running .encrypt [some [1], some [1], some [1], some [1]]) =
      some .stuckPush := by decide +kernel

/-- Row 1 of 2.6: `Enc(A)` from index 0. -/
theorem test_cas_pull :
    ((issue 0x4800 Command.empty (running .encrypt [some blockA, none, none, none])).map fun t =>
        (t.returned, t.counter, t.inflight)) =
      some (.block (blockPort (block
        [0x19, 0xF3, 0xCC, 0x22, 0x4C, 0x32, 0xDD, 0x86, 0xF7, 0x77, 0x3E, 0xD3, 0xE7, 0x1C, 0x7B, 0x28,
         0xE2, 0xA9, 0xC2, 0xDD, 0x23, 0x6D, 0xAB, 0xFE, 0x56, 0x0E, 0x4E, 0x97, 0xF4, 0xB6, 0x2D,
         0x43])) 32, 1, 0) := by decide +kernel

/-- `Dec` of row 1 gives `A` back; and a pull with nothing in flight is stuck. -/
theorem test_cas_pull_decrypt :
    ((issue 0x4800 Command.empty (running .decrypt [some (block
        [0x19, 0xF3, 0xCC, 0x22, 0x4C, 0x32, 0xDD, 0x86, 0xF7, 0x77, 0x3E, 0xD3, 0xE7, 0x1C, 0x7B, 0x28,
         0xE2, 0xA9, 0xC2, 0xDD, 0x23, 0x6D, 0xAB, 0xFE, 0x56, 0x0E, 0x4E, 0x97, 0xF4, 0xB6, 0x2D,
         0x43]), none, none, none])).map fun t => t.returned) =
        some (.block (blockPort blockA) 32) ∧
      stop 0x4800 Command.empty (running .encrypt idleQueues) = some .stuckPull := by decide +kernel

/-- Parameters with a proforma of the layout's kinds from which no stage can be built. -/
def badProforma : Params :=
  { fixtureParams with proforma := [.rotor 0 0 0 [], .permutator [] []] }

/-- spec/45_keysetup_prng.md R270: a proforma cascade that cannot be built is `ConfigError`. -/
theorem test_cas_init_bad :
    ((issue 0x4000 Command.empty (State.resetWith badProforma)).map fun t =>
      (t.status, t.fatal, t.fsm)) = some (2, true, .unkeyed) := by rfl

/-! ### PRNG (spec/95_test_vectors.md 2.7) -/

/-- `K1` running in encrypt mode with the PRNG seeded. -/
def seeded (buf : Block) (pos : Nat) : State :=
  { running .encrypt idleQueues with rbuf := some buf, rpos := pos, seeded := true }

theorem test_rng_seed :
    ((issue 0x5000 (onPorts blockA []) State.reset).map fun t => (t.rbuf, t.rpos, t.seeded)) =
        some (some blockA, 32, true) ∧
      answer 0x5000 (onPorts [1] []) State.reset = some (4, .nothing) := by decide +kernel

theorem test_rng_read :
    ((issue 0x5100 { Command.empty with n := 3 } (seeded blockA 32)).map fun t =>
        (t.returned, t.rpos, t.counter)) =
        some (.result (.bytes (block [0x19, 0xF3, 0xCC])), 3, 1) ∧
      ((issue 0x5100 Command.empty (seeded blockA 32)).map fun t => (t.returned, t.rpos)) =
        some (.result (.bytes []), 32) := by decide +kernel

theorem test_rng_read_bad :
    ((issue 0x5100 { Command.empty with n := -1 } (seeded blockA 11)).map fun t =>
        (t.status, t.fatal, t.rpos)) = some (1, false, 11) ∧
      refusal 0x5100 { Command.empty with n := 1 } (running .encrypt idleQueues) = some .notSeeded ∧
      refusal 0x5100 { Command.empty with n := 1 } (running .decrypt idleQueues) = some .notEncrypting := by
  decide +kernel

theorem test_rng_uniform :
    answer 0x5200 Command.empty (seeded blockA 11) = some (1, .nothing) := by decide +kernel

theorem test_rng_perm :
    answer 0x5300 { Command.empty with n := -1 } (seeded blockA 11) = some (1, .nothing) ∧
      answer 0x5300 Command.empty (seeded blockA 11) = some (0, .result (.list [])) := by decide +kernel

/-! ### `FATAL` and reset (spec/95_test_vectors.md Program 4) -/

theorem test_fatal :
    refusal 0x4200 Command.empty { k1 .keyed .unset with fatal := true } = some .fatalSet ∧
      refusal 0x6000 Command.empty { k1 .keyed .unset with fatal := true } = some .fatalSet := by
  decide +kernel

theorem test_reset :
    (match step { k1 .keyed .unset with fatal := true, status := 2, agenda := [.reset] } with
      | .next t => some (t.fsm, t.fatal, t.status, t.slots)
      | .fault _ => none
      | .refused _ => none) = some (.unkeyed, false, 0, [none, none]) := by decide +kernel

/-- spec/70_reset_and_hazards.md R330: a reset ends a stuck pull, and the pull is abandoned. -/
theorem test_reset_of_stuck :
    ((stepMany 2 { running .encrypt idleQueues with
        commands := [{ Command.empty with cmd := 0x4800 }], agenda := [.host, .reset] }).map fun t =>
      (t.fsm, t.inProgress, t.commands, t.agenda)) = some (.unkeyed, false, [], []) := by decide +kernel

/-- A push whose queue is full. -/
def blockedPush (agenda : List Agent) : State :=
  { running .encrypt [some [1], none, none, none] with
    commands := [{ onPorts [1] [] with cmd := 0x4700 }], agenda := agenda }

/-- spec/70_reset_and_hazards.md R330: a reset during a blocked push abandons it; before the reset it has
written neither `STATUS` nor `inflight`, and a worker has moved. -/
theorem test_reset_of_blocked :
    ((stepMany 2 (blockedPush [.issue, .worker 0, .reset])).map fun t =>
      (t.inProgress, t.inflight, t.queues.map Option.isSome)) =
        some (true, 1, [false, true, false, false]) ∧
      ((stepMany 2 (blockedPush [.issue, .reset])).map fun t =>
        (t.fsm, t.inProgress, t.inflight, t.queues.length, t.commands.length)) =
          some (.unkeyed, false, 0, 0, 0) := by decide +kernel

/-- spec/44_cascade.md R230: the same push completes once the worker has taken the block before it. -/
theorem test_blocked_completes :
    ((stepMany 3 (blockedPush [.issue, .worker 0, .host])).map fun t =>
      (t.inProgress, t.inflight, t.status, t.queues.map Option.isSome)) =
        some (false, 2, 0, [true, true, false, false]) := by decide +kernel

/-- spec/60_exceptions.md R310: while a stuck command is in progress no later one is accepted. -/
theorem test_stuck_accepts_nothing :
    ((stepMany 2 { running .encrypt idleQueues with
        commands := [{ Command.empty with cmd := 0x4800 }, { Command.empty with cmd := 0x4500 }],
        agenda := [.host, .host, .reset] }).map fun t =>
      (t.inProgress, t.port.cmd, t.commands.length, t.status, t.returned)) =
        some (true, 0x4800, 1, 0, .nothing) := by decide +kernel

/-- spec/44_cascade.md R232: with nothing scheduled the enabled workers move until none is left. -/
theorem test_workers_not_starved :
    ((stepMany 3 (running .encrypt [some [1], none, none, none])).map fun t =>
      (t.queues.map Option.isSome, t.counter)) = some ([false, false, false, true], 1) := by
  decide +kernel

/-- A word given by `withFetchWord` is what the very next step runs. -/
theorem test_fetch_word :
    (match step (State.reset.withFetchWord 16 0x0000) with
      | .next t => some (t.status, t.returned)
      | .fault _ => none
      | .refused _ => none) = some (0, .block 0 0) := by decide +kernel

/-! ### Witnesses: states that meet the hypotheses of the statements -/

theorem t1_build : rotorBuild 257 5 100 fixtureRotorData = some t1 := by decide +kernel

theorem t1_ok : RotorOk t1 := by
  obtain ⟨r, h1, h2, -⟩ := rotorBuild_spec (p := fixtureParams) (size := 257) (start := 5)
    (step := 100) (data := fixtureRotorData) (by decide +kernel)
  rw [t1_build] at h1
  cases h1
  exact h2

theorem t2_params : permutatorParamsOk fixtureParams [61, 63, 65, 67] fixtureTable = true := by
  simp [permutatorParamsOk, fixtureParams, fixture_bijection]

theorem t2_ok : PermutatorOk t2 := (permutatorBuild_spec t2_params).1

/-- `K1` keeps the invariant outside Running. -/
theorem k1_inv (fsm : Fsm) (mode : Mode) (hf : fsm ≠ .running) : Inv (k1 fsm mode) where
  params_wf := test_wf_params
  slots_length := rfl
  kinds := fun _ n st hn => by
    match n, hn with
    | 0, hn => cases hn; rfl
    | 1, hn => cases hn; rfl
    | n + 2, hn => simp [k1] at hn
  stages := fun _ st hm => by
    simp only [k1, List.mem_cons, Option.some.injEq, List.not_mem_nil, or_false] at hm
    rcases hm with rfl | rfl
    · exact ⟨t1_ok, show 257 ≤ 8192 by decide⟩
    · exact ⟨t2_ok, show 4 ≤ 16 by decide⟩
  loaded := fun _ _ hc => by simp [k1] at hc
  fatal_idle := fun hc => by cases hc
  running := fun hc => absurd hc hf
  idle := fun _ => ⟨rfl, rfl, rfl⟩
  rpos_le := Nat.le_refl _
  rbuf_full := fun b hb => by cases hb
  seeded_rbuf := fun hc => by cases hc
  key_bytes := fun key hk => by cases hk
  prime_lt := show 0 < 1 by decide
  tuple_lt := show 0 < 1 by decide
  status_lt := show (0 : BitVec 4).toNat < 5 by decide

/-- `K1` running keeps the invariant, whatever blocks are in its queues. -/
theorem running_inv (mode : Mode) (queues : List (Option Block)) (hm : mode ≠ .unset)
    (hl : queues.length = 4)
    (hb : (queues.all fun q => (q.getD [0]).length != 0 && (q.getD [0]).length ≤ 32) = true) :
    Inv (running mode queues) :=
  { k1_inv .keyed mode (by decide) with
    loaded := fun _ _ hc => by simp [running, k1] at hc
    fatal_idle := fun hc => by cases hc
    running := fun _ => ⟨hm, hl, rfl, fun b hm => by
      have := List.all_eq_true.mp hb (some b) hm
      simp only [Option.getD_some, Bool.and_eq_true, bne_iff_ne, decide_eq_true_eq] at this
      omega, rfl⟩
    idle := fun hc => absurd rfl hc }

theorem idle_inv (mode : Mode) (hm : mode ≠ .unset) : Inv (running mode idleQueues) :=
  running_inv mode idleQueues hm rfl (by decide)

/-- `K1` with the PRNG seeded keeps the invariant and can be drawn from. -/
theorem seeded_inv (buf : Block) (pos : Nat) (hb : buf.length = 32) (hp : pos ≤ 32) :
    Inv (seeded buf pos) ∧ CanDraw (seeded buf pos) := by
  have h := (idle_inv .encrypt (by decide)).rng (buf := buf) (pos := pos) hb hp
  exact ⟨{ h with
    seeded_rbuf := fun _ => by simp [seeded]
    running := fun hr => ⟨(h.running hr).mode_set, (h.running hr).queues_length,
      (h.running hr).alive_all, (h.running hr).blocks, (h.running hr).inflight_counts⟩ }, rfl, rfl, rfl, rfl⟩

/-- A state with operands on its ports. -/
def withPort (c : Command) (s : State) : State := { s with port := c }

theorem withPort_inv {s : State} (h : Inv s) (c : Command) : Inv (withPort c s) :=
  { h with
    running := fun hr => ⟨(h.running hr).mode_set, (h.running hr).queues_length,
      (h.running hr).alive_all, (h.running hr).blocks, (h.running hr).inflight_counts⟩ }

theorem witness_encode_of_decode : decode 0x1402 = .ok (.rotSeek 2) := rfl

/-- The ways to the host's next command, one in progress, one without a wait, and one that is stuck. -/
theorem witness_step_runs_decoded_command :
    decode (onPorts [1] []).cmd = .ok .cmbAdd ∧ State.reset.inProgress = false ∧
      ({ State.reset with commands := [onPorts [1] []] } : State).agenda = [] ∧
      ({ State.reset with agenda := [.host, .reset] } : State).agenda = .host :: [.reset] ∧
      ({ State.reset with agenda := [.issue, .reset] } : State).agenda = .issue :: [.reset] ∧
      ¬ MayWait .cmbAdd ∧
      (withPort (onPorts [1] []) { State.reset with inProgress := true }).inProgress = true ∧
      (onPorts [1] []).cmd.toNat < 2 ^ 16 ∧
      exec .casPull (running .encrypt idleQueues) = .fault .stuckPull := by
  refine ⟨?_, ?_, ?_, ?_, ?_, ?_, ?_, ?_, ?_⟩ <;> first | rfl | decide | simp [MayWait]

/-- One word or `LEN` for each case of spec/30_encoding.md R98, at the boundary. -/
theorem witness_illegal_encoding_completes :
    IllegalEncoding [.rotor, .permutator] 0x6000 0 ∧ IllegalEncoding [.rotor, .permutator] 0x0300 0 ∧
      IllegalEncoding [.rotor, .permutator] 0x1600 1 ∧ IllegalEncoding [.rotor, .permutator] 0x4900 0 ∧
      IllegalEncoding [.rotor, .permutator] 0x5400 0 ∧ IllegalEncoding [.rotor, .permutator] 0x0001 0 ∧
      IllegalEncoding [.rotor, .permutator] 0x4801 0 ∧ IllegalEncoding [.rotor, .permutator] 0x1402 0 ∧
      IllegalEncoding [.rotor, .permutator] 0x1401 0 ∧ IllegalEncoding [.rotor, .permutator] 0x2000 0 ∧
      IllegalEncoding [.rotor, .permutator] 0x3401 0 ∧ IllegalEncoding [.rotor, .permutator] 0x4204 0 ∧
      IllegalEncoding [.rotor, .permutator] 0x0000 33 ∧ IllegalEncoding [.rotor, .permutator] 0x1200 0 ∧
      IllegalEncoding [.rotor, .permutator] 0x4700 33 ∧ IllegalEncoding [.rotor, .permutator] 0x5000 31 ∧
      ¬ IllegalEncoding [.rotor, .permutator] 0x0000 32 ∧
      ¬ IllegalEncoding [.rotor, .permutator] 0x3402 0 ∧ State.reset.fatal = false := by
  simp [IllegalEncoding, unitField, opField, argField, State.reset, State.resetWith]

theorem witness_illegal_or_command : State.reset.port = Command.empty := rfl

/-- A reset that comes next, and one behind a command that is stuck. -/
theorem witness_reset_event :
    ({ k1 .keyed .unset with agenda := [.reset] } : State).agenda = .reset :: [] ∧
      decode 0x4800 = .ok .casPull ∧
      ({ running .encrypt idleQueues with agenda := [.host, .reset] } : State).agenda =
        .host :: .reset :: [] ∧
      (running .encrypt idleQueues).inProgress = false ∧
      exec .casPull { running .encrypt idleQueues with
        agenda := [.reset], port := { Command.empty with cmd := 0x4800 }, commands := [] } =
          .fault .stuckPull :=
  ⟨rfl, rfl, rfl, rfl, rfl⟩

/-- A reset behind each of the commands that block: a push and a pull with one block in the first queue, a
close, and a read of one byte more than the buffer holds. -/
theorem witness_reset_of_blocked :
    Inv (blockedPush [.issue, .reset]) ∧ (blockedPush [.issue, .reset]).fsm = .running ∧
      decode 0x4700 = .ok .casPush ∧
      Admitted .casPush (withPort { onPorts [1] [] with cmd := 0x4700 } (blockedPush [.reset])) ∧
      Blocks .casPush (blockedPush [.reset]) ∧
      Admitted .casPull (blockedPush [.reset]) ∧ Blocks .casPull (blockedPush [.reset]) ∧
      Inv (running .encrypt idleQueues) ∧ Admitted .casClose (running .encrypt idleQueues) ∧
      Blocks .casClose (running .encrypt idleQueues) ∧
      Inv (withPort { Command.empty with n := 2 } (seeded blockA 31)) ∧
      Admitted .rngRead (withPort { Command.empty with n := 2 } (seeded blockA 31)) ∧
      Blocks .rngRead (withPort { Command.empty with n := 2 } (seeded blockA 31)) := by
  have hr := running_inv .encrypt [some [1], none, none, none] (by decide) rfl (by decide)
  have hd := seeded_inv blockA 31 rfl (by decide)
  refine ⟨{ hr with running := fun h => ⟨(hr.running h).mode_set, (hr.running h).queues_length,
      (hr.running h).alive_all, (hr.running h).blocks, (hr.running h).inflight_counts⟩ }, rfl, rfl,
    ⟨rfl, by decide +kernel⟩, .inl ⟨rfl, [1], rfl⟩, ⟨rfl, rfl⟩, .inr (.inl ⟨rfl, rfl⟩),
    idle_inv _ (by decide), ⟨rfl, rfl⟩, .inr (.inr (.inl ⟨rfl, rfl⟩)), withPort_inv hd.1 _, ⟨rfl, rfl⟩,
    .inr (.inr (.inr ⟨rfl, hd.2, by decide⟩))⟩

theorem witness_fatal_refuses_until_reset :
    ({ State.reset with fatal := true, agenda := [.reset] } : State).fatal = true ∧
      step { State.reset with fatal := true, agenda := [.reset] } = .next State.reset ∧
      State.reset.fatal = false := ⟨rfl, rfl, rfl⟩

theorem witness_outcome_codes :
    exec .cmbAdd State.reset = .next { State.reset with returned := .block 0 0 } := rfl

theorem witness_bit_index_range_unreachable :
    Inv (running .encrypt idleQueues) ∧
      exec .casIndex (running .encrypt idleQueues) =
        .next { running .encrypt idleQueues with returned := .index true 0 } ∧
      workerTurn 0 (running .encrypt idleQueues) = .next (running .encrypt idleQueues) :=
  ⟨idle_inv .encrypt (by decide), rfl, rfl⟩

/-- The last bit inside a buffer and the first outside it. -/
theorem witness_bit_utilities :
    ([0x81, 0x02] : List Byte)[15 / 8]? = some 0x02 ∧ ([0x81, 0x02] : List Byte).length ≤ 16 / 8 := by
  decide

theorem witness_port_layout : 32 ≤ 32 ∧ blockA.length ≤ 32 := by decide

/-- `LEN` at its two ends. -/
theorem witness_combiner :
    State.reset.fatal = false ∧ State.reset.port.len.toNat ≤ 32 ∧
      (withPort (onPorts blockA blockA) State.reset).port.len.toNat ≤ 32 := by decide +kernel

theorem witness_combiner_xor :
    (operandA (withPort (onPorts [0x0F] [0xFF]) State.reset))[0]? = some 0x0F ∧
      (operandB (withPort (onPorts [0x0F] [0xFF]) State.reset))[0]? = some 0xFF := by decide +kernel

theorem witness_combiner_laws : blockA.length = blockA.reverse.length := by decide

/-- Parameters in range at `size = 256`, `start` and `step` the largest, `data` the shortest; and one
bound of each kind broken. -/
theorem witness_rotor_new :
    Admitted (.rotNew 0) State.reset ∧ State.reset.fsm ≠ .running ∧
      rotorParamsOk fixtureParams 256 255 255 (List.replicate 32 0) = true ∧
      rotorParamsOk fixtureParams 8192 0 1 (List.replicate 1024 0) = true ∧
      rotorParamsOk fixtureParams 255 5 1 (List.replicate 32 0) = false ∧
      rotorParamsOk fixtureParams 8193 5 1 (List.replicate 1025 0) = false ∧
      rotorParamsOk fixtureParams 257 257 1 fixtureRotorData = false ∧
      rotorParamsOk fixtureParams 257 5 257 fixtureRotorData = false ∧
      rotorParamsOk fixtureParams 257 5 0 fixtureRotorData = false ∧
      rotorParamsOk fixtureParams 257 5 1 (List.replicate 32 0) = false := by
  unfold Admitted
  decide +kernel

/-- A rotor slot that is loaded, with `LEN` at its two ends. -/
theorem witness_rotor_apply :
    Admitted (.rotApplyf 0) (withPort (onPorts [1] []) (k1 .keyed .unset)) ∧
      Admitted (.rotApplyi 0) (withPort (onPorts blockA []) (k1 .closed .unset)) ∧
      (k1 .keyed .unset).fsm ≠ .running ∧
      (k1 .keyed .unset).slots[(0 : BitVec 8).toNat]? = some (some (.rotor t1)) ∧ RotorOk t1 :=
  ⟨⟨rfl, by decide +kernel⟩, ⟨rfl, by decide +kernel⟩, by decide, rfl, t1_ok⟩

theorem witness_rotor_seek :
    Admitted (.rotSeek 0) (k1 .keyed .unset) ∧ Admitted (.rotIndex 0) (k1 .unkeyed .unset) ∧
      (k1 .keyed .unset).fsm ≠ .running ∧
      (k1 .keyed .unset).slots[(0 : BitVec 8).toNat]? = some (some (.rotor t1)) :=
  ⟨⟨rfl, rfl⟩, ⟨rfl, rfl⟩, by decide, rfl⟩

theorem witness_rotor_seek_is_stepping :
    RotorOk t1 ∧ ∀ b ∈ [blockA, [], [1]], b.length ≤ 32 := ⟨t1_ok, by decide⟩

theorem witness_stage_round_trip :
    RotorOk t1 ∧ PermutatorOk t2 ∧ blockA.length ≤ 32 ∧ ([] : Block).length ≤ 32 :=
  ⟨t1_ok, t2_ok, by decide, by decide⟩

/-- One window at a byte boundary and one off it. -/
theorem witness_window_shift_merge :
    RotorOk t1 ∧ (rotorWindow t1 4).isSome = true ∧ t1.current % 8 ≠ 0 ∧
      (rotorAdvance (rotorSeek 2 t1)).current % 8 = 0 ∧ RotorOk (rotorAdvance (rotorSeek 2 t1)) ∧
      (t1.buffer[t1.current / 8 + 3]?).isSome = true ∧
      (t1.buffer[t1.current / 8 + 3 + 1]?).isSome = true :=
  ⟨t1_ok, by decide +kernel, by decide +kernel, by decide +kernel,
    rotorAdvance_ok (rotorSeek_ok t1_ok 2), by decide +kernel, by decide +kernel⟩

/-- Parameters in range, and one bound of each kind broken. -/
theorem witness_permutator_new :
    Admitted (.prmNew 1) State.reset ∧ State.reset.fsm ≠ .running ∧
      permutatorParamsOk fixtureParams [61, 63, 65, 67] fixtureTable = true ∧
      permutatorParamsOk fixtureParams [] fixtureTable = false ∧
      permutatorParamsOk fixtureParams (List.replicate 17 1) fixtureTable = false ∧
      permutatorParamsOk fixtureParams [256, 0] fixtureTable = false ∧
      permutatorParamsOk fixtureParams [255] fixtureTable = false ∧
      permutatorParamsOk fixtureParams [256] (List.replicate 256 0) = false :=
  ⟨⟨rfl, rfl⟩, by decide, t2_params, by decide +kernel, by decide +kernel, by decide +kernel,
    by decide +kernel, by decide +kernel⟩

/-- A permutator slot that is loaded, with a full and a partial block. -/
theorem witness_permutator_apply :
    Admitted (.prmApplyf 1) (withPort (onPorts blockA []) (k1 .keyed .unset)) ∧
      Admitted (.prmApplyi 1) (withPort (onPorts [1] []) (k1 .keyed .unset)) ∧
      Admitted (.prmSeek 1) (k1 .keyed .unset) ∧ Admitted (.prmIndex 1) (k1 .keyed .unset) ∧
      (k1 .keyed .unset).fsm ≠ .running ∧
      (k1 .keyed .unset).slots[(1 : BitVec 8).toNat]? = some (some (.permutator t2)) ∧
      PermutatorOk t2 ∧ (t2.bitTable[255]?).isSome = true :=
  ⟨⟨rfl, by decide +kernel⟩, ⟨rfl, by decide +kernel⟩, ⟨rfl, rfl⟩, ⟨rfl, rfl⟩, by decide, rfl, t2_ok,
    by decide +kernel⟩

theorem witness_permutator_seek_is_stepping :
    PermutatorOk t2 ∧ ∀ b ∈ [blockA, [], [1]], b.length ≤ 32 := ⟨t2_ok, by decide⟩

theorem witness_counter_commands :
    State.reset.fsm ≠ .running ∧ Admitted (.ctrNew 2) State.reset ∧ Admitted (.ctrSeek 2) State.reset ∧
      Admitted (.ctrUpdate 2) State.reset ∧ Admitted (.ctrIndex 2) State.reset ∧
      Admitted (.ctrApplyf 2) (withPort (onPorts [1] []) State.reset) ∧
      Admitted (.ctrApplyi 2) (withPort (onPorts blockA []) State.reset) :=
  ⟨by decide, ⟨rfl, rfl⟩, ⟨rfl, rfl⟩, ⟨rfl, rfl⟩, ⟨rfl, rfl⟩, ⟨rfl, by decide +kernel⟩,
    ⟨rfl, by decide +kernel⟩⟩

/-- The three states in which `CAS.INDEX` is legal. -/
theorem witness_index_reports_counter :
    Admitted .casIndex (k1 .keyed .unset) ∧ (k1 .keyed .unset).fsm = .keyed ∧
      (k1 .closed .unset).fsm = .closed ∧ (running .encrypt idleQueues).fsm = .running ∧
      (running .encrypt idleQueues).inflight = 0 := ⟨⟨rfl, rfl⟩, rfl, rfl, rfl, rfl⟩

theorem witness_cascade_load :
    Admitted .casLoad (k1 .unkeyed .unset) ∧ (k1 .unkeyed .unset).fsm ≠ .running ∧
      (k1 .unkeyed .unset).slots = [Stage.rotor t1, Stage.permutator t2].map some ∧
      [Stage.rotor t1, Stage.permutator t2].map stageKind = (k1 .unkeyed .unset).params.layout :=
  ⟨⟨rfl, rfl⟩, by decide, rfl, rfl⟩

theorem witness_cascade_setmode :
    Admitted (.casSetmode 0) (k1 .keyed .unset) ∧ Admitted (.casSetmode 1) (k1 .closed .unset) ∧
      Admitted (.casSetmode 2) (k1 .keyed .unset) ∧ Admitted (.casSetmode 3) (k1 .keyed .unset) :=
  ⟨⟨rfl, rfl⟩, ⟨rfl, rfl⟩, ⟨rfl, rfl⟩, ⟨rfl, rfl⟩⟩

theorem witness_cascade_build :
    Admitted .casBuild (k1 .keyed .encrypt) ∧ (k1 .keyed .encrypt).mode ≠ .unset ∧
      (k1 .closed .decrypt).mode ≠ .unset := ⟨⟨rfl, rfl⟩, by decide, by decide⟩

theorem witness_cascade_seek :
    Admitted .casSeek (k1 .keyed .unset) ∧ Admitted .casSeek (running .encrypt idleQueues) ∧
      (running .encrypt idleQueues).inflight = 0 ∧
      (running .encrypt idleQueues).slots = [Stage.rotor t1, Stage.permutator t2].map some :=
  ⟨⟨rfl, rfl⟩, ⟨rfl, rfl⟩, rfl, rfl⟩

theorem witness_cascade_close :
    Inv (running .decrypt idleQueues) ∧ Admitted .casClose (running .decrypt idleQueues) ∧
      (running .decrypt idleQueues).fsm = .running ∧ (running .decrypt idleQueues).inflight = 0 :=
  ⟨idle_inv _ (by decide), ⟨rfl, rfl⟩, rfl, rfl⟩

/-- With nothing in flight, and with all queues but one full. -/
theorem witness_cascade_push :
    Inv (withPort (onPorts [1] []) (running .encrypt idleQueues)) ∧
      Admitted .casPush (withPort (onPorts [1] []) (running .encrypt idleQueues)) ∧
      (running .encrypt idleQueues).inflight ≤ 3 ∧
      Inv (running .encrypt [some [1], some [1], none, some blockA]) ∧
      (running .encrypt [some [1], some [1], none, some blockA]).inflight ≤ 3 :=
  ⟨withPort_inv (idle_inv _ (by decide)) _, ⟨rfl, by decide +kernel⟩, by decide,
    running_inv _ _ (by decide) rfl (by decide), by decide⟩

theorem witness_cascade_pull :
    Inv (running .encrypt [some [1], none, none, none]) ∧
      Admitted .casPull (running .encrypt [some [1], none, none, none]) ∧
      (running .encrypt [some [1], none, none, none]).inflight ≠ 0 :=
  ⟨running_inv _ _ (by decide) rfl (by decide), ⟨rfl, rfl⟩, by decide⟩

/-- Both stuck cases are met. -/
theorem witness_stuck_cases :
    Inv (running .encrypt idleQueues) ∧ Admitted .casPull (running .encrypt idleQueues) ∧
      (running .encrypt idleQueues).inflight = 0 ∧
      Inv (withPort (onPorts [1] []) (running .encrypt [some [1], some [1], some [1], some [1]])) ∧
      Admitted .casPush (withPort (onPorts [1] []) (running .encrypt [some [1], some [1], some [1], some [1]])) ∧
      (running .encrypt [some [1], some [1], some [1], some [1]]).inflight = 4 :=
  ⟨idle_inv _ (by decide), ⟨rfl, rfl⟩, rfl,
    withPort_inv (running_inv _ _ (by decide) rfl (by decide)) _, ⟨rfl, by decide +kernel⟩, rfl⟩

/-- An enabled worker with a data block, one with the sentinel, and workers that are not enabled: without
a block, with a full queue after them, and one that is not alive. -/
theorem witness_worker_step :
    Inv (running .encrypt [some [1], none, none, none]) ∧
      (running .encrypt [some [1], none, none, none]).alive[0]? = some true ∧
      (running .encrypt [some [1], none, none, none]).queues[0]? = some (some [1]) ∧
      (running .encrypt [some [1], none, none, none]).queues[0 + 1]? = some none ∧
      (running .encrypt [none, none, some [], none]).queues[2]? = some (some []) ∧
      (running .encrypt [none, none, some [], none]).queues[2 + 1]? = some none ∧
      workerEnabled (running .encrypt idleQueues) 0 = false ∧
      (¬ ∃ b, (running .encrypt idleQueues).queues[0]? = some (some b)) ∧
      workerEnabled (running .encrypt [some [1], some [1], none, none]) 0 = false ∧
      (running .encrypt [some [1], some [1], none, none]).queues[0 + 1]? ≠ some none ∧
      (running .encrypt idleQueues).alive[3]? ≠ some true :=
  ⟨running_inv _ _ (by decide) rfl (by decide), rfl, rfl, rfl, rfl, rfl, rfl,
    by simp [running, idleQueues], rfl, by decide, by decide⟩

/-- A full and a short block, a rotor in slot 0, a permutator in slot 1, and the Counter. -/
theorem witness_stage_transforms :
    blockA.length = 32 ∧ ([1] : Block).length ≤ 32 ∧
      (running .encrypt idleQueues).params.layout[0]? = some .rotor ∧
      (running .encrypt idleQueues).slots[0]? = some (some (.rotor t1)) ∧ RotorOk t1 ∧
      (running .encrypt idleQueues).params.layout[1]? = some .permutator ∧
      (running .encrypt idleQueues).slots[1]? = some (some (.permutator t2)) ∧ PermutatorOk t2 ∧
      (running .encrypt idleQueues).params.layout.length = 2 :=
  ⟨rfl, by decide, rfl, rfl, t1_ok, rfl, rfl, t2_ok, rfl⟩

theorem fixture_proforma : proformaBuilds fixtureParams none = true := by
  have h : rotorParamsOk fixtureParams 257 5 100 fixtureRotorData = true := by decide +kernel
  show (true && [rotorParamsOk fixtureParams 257 5 100 fixtureRotorData,
    permutatorParamsOk fixtureParams [61, 63, 65, 67] fixtureTable].all id) = true
  rw [h, t2_params]
  rfl

/-- Parameters with two primes for the one rotor slot. -/
def twoPrimes : Params := { fixtureParams with primeTable := [257, 263] }

/-- A freshly reset block keeps the invariant, with each of the parameters used here. -/
theorem fresh_inv (p : Params) (hp : p ∈ [fixtureParams, badProforma, twoPrimes]) :
    Inv (State.resetWith p) := by
  have hw : p.wf = true := by
    simp only [List.mem_cons, List.not_mem_nil, or_false] at hp
    rcases hp with rfl | rfl | rfl <;> decide +kernel
  exact { k1_inv .unkeyed .unset (by decide) with
    params_wf := hw
    slots_length := by simp [State.resetWith, numSlots]
    kinds := fun _ n st hn => by simp [State.resetWith, List.getElem?_replicate] at hn
    stages := fun _ st hm => by simp [State.resetWith, List.mem_replicate] at hm
    loaded := fun _ hc => absurd rfl hc
    running := fun hc => by cases hc
    key_bytes := fun key hk => by cases hk
    prime_lt := primeTable_pos hw
    tuple_lt := cycleTuples_pos hw }

theorem twoPrimes_proforma : proformaBuilds twoPrimes none = true := by
  have h : recordFits twoPrimes = recordFits fixtureParams := by
    funext k r
    cases k <;> cases r <;> rfl
  show proformaFits twoPrimes fixtureParams.proforma = true
  rw [proformaFits, h]
  exact fixture_proforma

theorem twoPrimes_init {t : State} (hp : t.params = twoPrimes) (hs : t.port.param.proformaSource = none)
    (ha : Admitted .casInit t) (hr : t.fsm ≠ .running) : ∃ u, exec .casInit t = .next u := by
  obtain ⟨_, _, -, -, -, -, h⟩ := initCascade_ok (s := t) (by rw [hp]; decide +kernel)
    (by rw [hp, hs]; exact twoPrimes_proforma)
  exact ⟨_, exec_ok ha (legalOutsideRunning_eq_none.mpr hr) h⟩

/-- A proforma cascade that can be built, one that cannot, and two key setups with a prime left over. -/
theorem witness_cascade_init :
    Inv State.reset ∧ Admitted .casInit State.reset ∧ State.reset.fsm ≠ .running ∧
      proformaBuilds State.reset.params State.reset.port.param.proformaSource = true ∧
      State.reset.params.layout.count .rotor ≤ State.reset.params.primeTable.length ∧
      Inv (State.resetWith badProforma) ∧ proformaBuilds badProforma none = false ∧
      Inv (State.resetWith twoPrimes) ∧ 0 < twoPrimes.layout.count .rotor ∧
      twoPrimes.layout.count .rotor < twoPrimes.primeTable.length ∧
      (∃ t u, exec .casInit (State.resetWith twoPrimes) = .next t ∧ exec .casInit t = .next u) ∧
      Inv (k1 .keyed .unset) ∧ Admitted .casInit (k1 .keyed .unset) ∧
      (k1 .keyed .unset).fsm ≠ .running ∧ (k1 .keyed .unset).params = State.reset.params ∧
      (k1 .keyed .unset).primeRot = State.reset.primeRot ∧
      (k1 .keyed .unset).tupleRot = State.reset.tupleRot ∧
      (k1 .keyed .unset).port = State.reset.port ∧
      (k1 .keyed .unset).slots ≠ State.reset.slots ∧ ∃ t, exec .casInit State.reset = .next t := by
  obtain ⟨_, _, -, -, -, -, h⟩ := initCascade_ok (s := State.resetWith twoPrimes)
    (by decide +kernel) twoPrimes_proforma
  have e := exec_ok (i := .casInit) ⟨rfl, rfl⟩ rfl h
  obtain ⟨_, _, -, -, -, -, h'⟩ := initCascade_ok (s := State.reset) test_wf_params fixture_proforma
  have e' := exec_ok (i := .casInit) ⟨rfl, rfl⟩ rfl h'
  exact ⟨fresh_inv _ (by simp), ⟨rfl, rfl⟩, by decide, fixture_proforma, by decide,
    fresh_inv _ (by simp), by decide +kernel, fresh_inv _ (by simp), by decide, by decide,
    ⟨_, (twoPrimes_init rfl rfl ⟨rfl, rfl⟩ (by simp [completeOk])).choose, e,
      (twoPrimes_init rfl rfl ⟨rfl, rfl⟩ (by simp [completeOk])).choose_spec⟩,
    k1_inv _ _ (by decide), ⟨rfl, rfl⟩, by decide, rfl, rfl, rfl, rfl,
    fun hc => (by cases (List.cons.inj hc).1), _, e'⟩

/-- A schedule that pushes, lets a worker move and pulls goes through. -/
theorem witness_pipeline_is_composition :
    Inv (running .encrypt idleQueues) ∧ (running .encrypt idleQueues).inflight = 0 ∧
      (∀ m ∈ [Move.push 1 7, Move.worker 0, Move.pull], m.lenOk) ∧
      (plays [Move.push 1 7, Move.worker 0, Move.pull] (running .encrypt idleQueues)).isSome = true :=
  ⟨idle_inv _ (by decide), rfl, by simp [Move.lenOk], by decide +kernel⟩

/-- `K1` sought to index 0, in a state of the cascade and a mode. -/
def sought (mode : Mode) : State := soughtTo 0 (k1 .keyed mode)

theorem sought_inv (mode : Mode) : Inv (sought mode) :=
  soughtTo_slots (k1_inv .keyed mode (by decide)) 0

theorem sought_aligned (mode : Mode) : Aligned 0 (sought mode) :=
  aligned_soughtTo ((k1_inv .keyed mode (by decide)).full rfl (by simp [k1])) 0

theorem witness_lockstep :
    Inv (sought .encrypt) ∧ Admitted .casSeek (sought .encrypt) ∧
      (∃ t, exec .casSeek (sought .encrypt) = .next t) ∧ (sought .encrypt).fatal = false ∧
      (sought .encrypt).fsm ≠ .unkeyed ∧ Aligned 0 (sought .encrypt) ∧ 1 ≤ blockA.length ∧
      blockA.length ≤ 32 :=
  ⟨sought_inv _, ⟨rfl, rfl⟩, ⟨_, rfl⟩, rfl, by decide, sought_aligned _, by decide, by decide⟩

theorem witness_cascade_round_trip :
    Inv (sought .encrypt) ∧ Inv (sought .decrypt) ∧ (sought .decrypt).fatal = false ∧
      (sought .decrypt).fsm ≠ .unkeyed ∧ (sought .encrypt).params = (sought .decrypt).params ∧
      (sought .encrypt).slots.map (Option.map (stageSeek 0)) =
        (sought .decrypt).slots.map (Option.map (stageSeek 0)) ∧
      Aligned 0 (sought .encrypt) ∧ Aligned 0 (sought .decrypt) ∧
      (sought .encrypt).mode = .encrypt ∧ (sought .decrypt).mode = .decrypt ∧
      ∀ x ∈ [blockA, [1]], 1 ≤ x.length ∧ x.length ≤ 32 :=
  ⟨sought_inv _, sought_inv _, rfl, by decide, rfl, rfl, sought_aligned _, sought_aligned _, rfl, rfl,
    by decide⟩

theorem witness_seeking_equivalence :
    Inv (sought .encrypt) ∧ (sought .encrypt).mode = .encrypt ∧ Aligned 0 (sought .encrypt) ∧
      (∃ ys t, cipherAll [[1]] (sought .encrypt) = .ok ys t) ∧ [[1]][0]? = some [1] ∧
      ∃ u, seekAll 0 (sought .encrypt) = .ok () u := by
  obtain ⟨o, ho, -⟩ := cipher_spec ((sought_inv .encrypt).full rfl (by decide)) (b := [1]) (by decide)
  exact ⟨sought_inv _, rfl, sought_aligned _, ⟨[o], _, bind_of_ok ho _⟩, rfl, _, rfl⟩

theorem witness_cascade_period :
    Inv (k1 .keyed .encrypt) ∧ (∃ u, seekAll 0 (k1 .keyed .encrypt) = .ok () u) ∧
      ∃ v, seekAll (0 + cascadeMax (k1 .keyed .encrypt)) (k1 .keyed .encrypt) = .ok () v :=
  ⟨k1_inv _ _ (by decide), ⟨_, rfl⟩, _, rfl⟩

theorem witness_prng_seed :
    (withPort (onPorts blockA []) State.reset).fatal = false ∧
      (withPort (onPorts blockA []) State.reset).port.len = 32 := ⟨rfl, by decide⟩

/-- A seeded pipeline, with arguments at the boundaries of each of the PRNG's commands. -/
theorem witness_prng :
    Inv (withPort { Command.empty with n := 1 } (seeded blockA 32)) ∧
      CanDraw (withPort { Command.empty with n := 1 } (seeded blockA 32)) ∧
      Admitted .rngRead (seeded blockA 32) ∧ Admitted .rngPerm (seeded blockA 32) ∧
      Admitted .rngUniform (withPort { Command.empty with n := 1 } (seeded blockA 32)) ∧
      0 ≤ (0 : BitVec 64).toInt ∧ 0 < (1 : BitVec 64).toInt := by
  obtain ⟨h1, h2⟩ := seeded_inv blockA 32 (by decide) (Nat.le_refl _)
  exact ⟨withPort_inv h1 _, h2, ⟨rfl, rfl⟩, ⟨rfl, rfl⟩, ⟨rfl, rfl⟩, by decide, by decide⟩

theorem witness_prng_invalid_argument :
    CanDraw (seeded blockA 32) ∧
      Admitted .rngRead (withPort { Command.empty with n := -1 } (seeded blockA 32)) ∧
      Admitted .rngPerm (withPort { Command.empty with n := -1 } (seeded blockA 32)) ∧
      Admitted .rngUniform (seeded blockA 32) ∧ (-1 : BitVec 64).toInt < 0 ∧
      (seeded blockA 32).port.n.toInt ≤ 0 :=
  ⟨⟨rfl, rfl, rfl, rfl⟩, ⟨rfl, rfl⟩, ⟨rfl, rfl⟩, ⟨rfl, rfl⟩, by decide, by decide⟩

theorem witness_updates :
    Inv (seeded blockA 32) ∧ Admitted (.rotUpdate 0) (seeded blockA 32) ∧
      Admitted (.prmUpdate 1) (seeded blockA 32) ∧ CanDraw (seeded blockA 32) := by
  obtain ⟨h1, h2⟩ := seeded_inv blockA 32 (by decide) (Nat.le_refl _)
  exact ⟨h1, ⟨rfl, rfl⟩, ⟨rfl, rfl⟩, h2⟩

theorem witness_reset_keeps_invariant : fixtureParams.wf = true := test_wf_params

theorem witness_step_keeps_invariant :
    Inv (k1 .keyed .encrypt) ∧ step (k1 .keyed .encrypt) = .next (k1 .keyed .encrypt) :=
  ⟨k1_inv _ _ (by decide), rfl⟩

/-- One completion for each arrow of the state machine but `CAS.INIT`'s, which goes as `CAS.LOAD`'s. -/
theorem witness_fsm_transitions :
    Inv (k1 .unkeyed .unset) ∧ (∃ t, exec .casLoad (k1 .unkeyed .unset) = .next t ∧ t.status = 0) ∧
      Inv (k1 .keyed .encrypt) ∧ (∃ t, exec .casBuild (k1 .keyed .encrypt) = .next t ∧ t.status = 0) ∧
      Inv (running .encrypt idleQueues) ∧
      (∃ t, exec .casClose (running .encrypt idleQueues) = .next t ∧ t.status = 0) ∧
      workerTurn 0 (running .encrypt idleQueues) = .next (running .encrypt idleQueues) :=
  ⟨k1_inv _ _ (by decide), ⟨_, rfl, rfl⟩, k1_inv _ _ (by decide), ⟨_, rfl, rfl⟩,
    idle_inv _ (by decide), ⟨_, rfl, rfl⟩, rfl⟩

theorem witness_refused_exactly :
    Inv (k1 .keyed .encrypt) ∧ Admitted .casPush (withPort (onPorts [1] []) (k1 .keyed .encrypt)) ∧
      Admitted .casLoad State.reset :=
  ⟨k1_inv _ _ (by decide), ⟨rfl, by decide +kernel⟩, ⟨rfl, rfl⟩⟩

end Sys2Proof.Tests
end

section
/-! SUPPORT. Reset and the invariant of the block (spec/10_state.md): what reset leaves, that the state
after reset is sound, and that every step keeps a sound state sound. The proof goes up from the operations
of Laws/Invariant.lean and Laws/Rules.lean through a command, a worker's turn and a turn of the host to
`step`. -/

namespace Sys2Proof.Machine

/-! ### The state after reset -/

/-- Settles O8: each register is the field `State.resetWith` writes (spec/10_state.md R34). -/
theorem resetValues : Obligations.reset_values := fun _ =>
  ⟨rfl, rfl, rfl, rfl, rfl, rfl, rfl, rfl, rfl, rfl, rfl, rfl, rfl, rfl, rfl, rfl⟩

/-- After reset no slot holds a value, so nothing is asked of the stages, and no pipeline runs; what is left
is that both rotation indices have a table entry to name (spec/10_state.md R24, R34). -/
theorem inv_resetWith {p : Params} (hp : p.wf = true) : Inv (State.resetWith p) where
  params_wf := hp
  slots_length := List.length_replicate
  kinds := fun _ _ _ hs => nomatch List.eq_of_mem_replicate (List.mem_of_getElem? hs)
  stages := fun _ _ hs => nomatch List.eq_of_mem_replicate hs
  loaded := fun _ hk => absurd rfl hk
  fatal_idle := fun hf => nomatch hf
  running := fun hr => nomatch hr
  idle := fun _ => ⟨rfl, rfl, rfl⟩
  rpos_le := Nat.le_refl 32
  rbuf_full := fun _ hb => nomatch hb
  seeded_rbuf := fun hs => nomatch hs
  key_bytes := fun _ hk => nomatch hk
  prime_lt := primeTable_pos hp
  tuple_lt := cycleTuples_pos hp
  status_lt := show (0 : BitVec 4).toNat < 5 by decide

/-- The fixture meets the constraints of spec/00_scope.md R9. -/
theorem fixtureParams_wf : fixtureParams.wf = true := by decide +kernel

/-- Settles O57, for the fixture as for any parameters, by `inv_resetWith`. -/
theorem resetKeepsInvariant : Obligations.reset_keeps_invariant :=
  ⟨inv_resetWith fixtureParams_wf, fun _ => inv_resetWith⟩

/-! ### The host's side of the block -/

/-- The invariant says nothing of the ports, the command in progress, the host's later commands and the
agenda. -/
theorem Inv.withHost {s : State} (h : Inv s) (port : Command) (busy : Bool) (commands : List Command)
    (agenda : List Agent) :
    Inv { s with port := port, inProgress := busy, commands := commands, agenda := agenda } :=
  { h with
    running := fun hr => ⟨(h.running hr).mode_set, (h.running hr).queues_length,
      (h.running hr).alive_all, (h.running hr).blocks, (h.running hr).inflight_counts⟩ }

theorem Inv.inProgress {s : State} (h : Inv s) (busy : Bool) : Inv { s with inProgress := busy } :=
  h.withHost s.port busy s.commands s.agenda

theorem Inv.agenda {s : State} (h : Inv s) (agenda : List Agent) : Inv { s with agenda := agenda } :=
  h.withHost s.port s.inProgress s.commands agenda

theorem Inv.sampleCommand {s : State} (h : Inv s) (c : Command) (rest : List Command) :
    Inv (sampleCommand c rest s) :=
  h.withHost c s.inProgress rest s.agenda

/-- A reset in a sound state leaves a sound state: that of reset, but for the host's side and the counter
of free values (spec/70_reset_and_hazards.md R330, log 21). -/
theorem Inv.resetEvent {s : State} (h : Inv s) : Inv (resetEvent s) :=
  ((inv_resetWith h.params_wf).withHost s.port false s.commands s.agenda).freeCount s.freeCount

/-! ### A command -/

/-- A command keeps the invariant: it completes as its rule ends (`rule_ends`), or an illegal encoding
raises the non-fatal `IllegalCommand` (spec/60_exceptions.md R304, R308). -/
theorem exec_keeps_inv {i : Instr} {s t : State} (h : Inv s) (ht : exec i s = .next t) : Inv t := by
  obtain ⟨hf, ⟨-, rfl⟩ | ⟨he, hl, hc⟩⟩ := exec_eq_next ht
  · exact h.raiseException (x := .illegalCommand) fun hx => nomatch hx
  · have ends := rule_ends h ⟨hf, he⟩ hl
    rcases complete_eq_next.mp hc with ⟨ret, u, hr, rfl⟩ | ⟨x, u, hr, rfl⟩
    · rw [hr] at ends
      cases ends with
      | done _ _ _ hu _ => exact hu.completeOk ret
    · rw [hr] at ends
      cases ends with
      | raised _ _ _ hu _ _ _ => exact hu

/-- All a word that is no command can do (spec/60_exceptions.md R304, R305). -/
theorem illegalWord_eq_next {s t : State} :
    illegalWord s = .next t ↔ s.fatal = false ∧ t = raiseException .illegalCommand s := by
  cases hf : s.fatal <;> simp [illegalWord, hf, eq_comm]

/-- All the word on the port can do: the command it decodes to, or an illegal word's exception
(spec/30_encoding.md R90, R98). -/
theorem runPort_eq_next {s t : State} (h : runPort s = .next t) :
    (∃ i, exec i s = .next t) ∨ t = raiseException .illegalCommand s := by
  unfold runPort at h
  split at h
  · exact .inl ⟨_, h⟩
  · exact .inr (illegalWord_eq_next.mp h).2

theorem runPort_keeps_inv {s t : State} (h : Inv s) (ht : runPort s = .next t) : Inv t := by
  rcases runPort_eq_next ht with ⟨i, hi⟩ | rfl
  · exact exec_keeps_inv h hi
  · exact h.raiseException (x := .illegalCommand) fun hx => nomatch hx

/-! ### A worker's turn -/

/-- A worker has a step only while the pipeline runs: outside Running there are no liveness bits
(spec/10_state.md R31). -/
theorem Inv.running_of_enabled {s : State} (h : Inv s) {j : Nat} (he : workerEnabled s j = true) :
    s.fsm = .running := by
  by_contra hr
  have alive := (workerEnabled_iff.mp he).1
  rw [(h.idle hr).2.1] at alive
  cases alive

/-- All a worker's turn can do in a sound state: nothing, or the enabled step of a running pipeline; it
raises no exception (spec/44_cascade.md R232). -/
theorem workerTurn_eq_next {j : Nat} {s t : State} (h : Inv s) (ht : workerTurn j s = .next t) :
    t = s ∨ s.fsm = .running ∧ workerEnabled s j = true ∧ workerStep j s = .ok () t := by
  by_cases he : workerEnabled s j = true
  · have hr := h.running_of_enabled he
    obtain ⟨_, o, -, -, -, -, -, hw⟩ := workerStep_spec (h.live hr) he
    rw [workerTurn, hw] at ht
    cases ht
    exact .inr ⟨hr, he, hw⟩
  · rw [workerTurn, workerStep, if_neg he] at ht
    cases ht
    exact .inl rfl

theorem workerTurn_keeps_inv {j : Nat} {s t : State} (h : Inv s) (ht : workerTurn j s = .next t) :
    Inv t := by
  rcases workerTurn_eq_next h ht with rfl | ⟨hr, he, hw⟩
  · exact h
  · have hv := h.live hr
    have moves : Workers s t := .step he hw (.refl t)
    have frame : t = onPipeline s t := by rw [moves.frame hv]; rfl
    exact frame ▸ inv_onPipeline h hr (frame ▸ moves.live hv)

/-! ### A turn of the host, and one step -/

/-- A command that is accepted keeps the invariant, held back by a reset to come or not. -/
theorem acceptCommand_keeps_inv {s t : State} (h : Inv s) (ht : acceptCommand s = .next t) : Inv t := by
  rcases acceptCommand_eq_next.mp ht with hp | ⟨-, -, rfl⟩
  · exact runPort_keeps_inv (h.inProgress false) hp
  · exact h.inProgress true

/-- A command that is started keeps the invariant, left waiting or accepted. -/
theorem startCommand_keeps_inv {s t : State} (h : Inv s) (ht : startCommand s = .next t) : Inv t := by
  rcases startCommand_eq_next.mp ht with ⟨-, rfl⟩ | ⟨-, ha⟩
  · exact h.inProgress true
  · exact acceptCommand_keeps_inv h ha

/-- What the host does with its command keeps the invariant, whether it takes up the one in progress or
samples the next. -/
theorem withCommand_keeps_inv {act : State → Host.Outcome State Fault Refusal}
    (hact : ∀ {s t : State}, Inv s → act s = .next t → Inv t) {s t : State} (h : Inv s)
    (ht : withCommand act s = .next t) : Inv t := by
  rcases withCommand_eq_next.mp ht with ⟨-, ha⟩ | ⟨-, -, rfl⟩ | ⟨c, rest, -, -, ha⟩
  · exact hact h ha
  · exact h
  · exact hact (h.sampleCommand c rest) ha

theorem hostTurn_keeps_inv {s t : State} (h : Inv s) (ht : hostTurn s = .next t) : Inv t :=
  withCommand_keeps_inv acceptCommand_keeps_inv h ht

theorem issueTurn_keeps_inv {s t : State} (h : Inv s) (ht : issueTurn s = .next t) : Inv t :=
  withCommand_keeps_inv startCommand_keeps_inv h ht

theorem freeTurn_keeps_inv {s t : State} (h : Inv s) (ht : freeTurn s = .next t) : Inv t := by
  rcases freeTurn_eq_next.mp ht with ⟨-, hh⟩ | ⟨-, -, ⟨-, rfl⟩ | ⟨j, -, hw⟩⟩
  · exact hostTurn_keeps_inv h hh
  · exact h
  · exact workerTurn_keeps_inv h hw

/-- Settles O58, by the agent that moves: the host, a worker or the reset line. -/
theorem stepKeepsInvariant : Obligations.step_keeps_invariant := by
  intro s t h ht
  rcases step_eq_next.mp ht with
    ⟨-, hn⟩ | ⟨rest, ⟨-, hh⟩ | ⟨-, hi⟩ | ⟨j, -, hw⟩ | ⟨-, rfl⟩⟩
  · exact freeTurn_keeps_inv h hn
  · exact hostTurn_keeps_inv (h.agenda rest) hh
  · exact issueTurn_keeps_inv (h.agenda rest) hi
  · exact workerTurn_keeps_inv (h.agenda rest) hw
  · exact (h.agenda rest).resetEvent

end Sys2Proof.Machine
end

section
/-! SUPPORT. How bytes and blocks lie in memory (spec/20_memory.md): a buffer's bytes by their bits, a block
at a port (R64), and a rotor window at any bit offset (R65). Both obligations compare buffers bit by bit,
through the bit order of R61. -/

namespace Sys2Proof.Machine

/-! ### A buffer's bytes by their bits -/

/-- Bit `i` of byte `m` is bit index `8m + i` of the buffer (spec/20_memory.md R61). -/
theorem bitGet_byte {buf : List Byte} {m i : Nat} {b : Byte} (hb : buf[m]? = some b) (hi : i < 8) :
    bitGet buf (8 * m + i) = some (b.getLsbD i) := by
  have hd : (8 * m + i) / 8 = m := by omega
  have hm : (8 * m + i) % 8 = i := by omega
  rw [bitGet, hd, hm, hb, Option.map_some]

/-- A byte of a buffer is known from its eight bits. -/
theorem getElem?_eq_some_of_bitGet {buf : List Byte} {m : Nat} {b : Byte}
    (h : ∀ i < 8, bitGet buf (8 * m + i) = some (b.getLsbD i)) : buf[m]? = some b := by
  have hlt : 8 * m + 0 < 8 * buf.length :=
    (bitGet_isSome_iff buf _).mp (by rw [h 0 (by decide), Option.isSome_some])
  have hm : m < buf.length := by omega
  have hget := List.getElem?_eq_getElem hm
  rw [hget, Option.some.injEq]
  exact BitVec.eq_of_getLsbD_eq fun i hi =>
    Option.some.inj ((bitGet_byte hget hi).symm.trans (h i hi))

theorem bitGet_cons_of_lt (b : Byte) (bs : List Byte) {i : Nat} (hi : i < 8) :
    bitGet (b :: bs) i = some (b.getLsbD i) := by
  simpa using bitGet_byte (buf := b :: bs) (m := 0) rfl hi

theorem bitGet_cons_of_le (b : Byte) (bs : List Byte) {i : Nat} (hi : 8 ≤ i) :
    bitGet (b :: bs) i = bitGet bs (i - 8) := by
  obtain ⟨j, rfl⟩ := Nat.exists_eq_add_of_le' hi
  have hd : (j + 8) / 8 = j / 8 + 1 := by omega
  rw [bitGet, bitGet, hd, List.getElem?_cons_succ, Nat.add_mod_right, Nat.add_sub_cancel]

/-! ### A block at a port -/

/-- Port bit `i` of a block of any length is its bit index `i`, and zero where the block has no such bit
(spec/20_memory.md R64). -/
theorem blockPort_getLsbD (b : Block) {i : Nat} (hi : i < 256) :
    (blockPort b).getLsbD i = (bitGet b i == some true) := by
  induction b generalizing i with
  | nil => simp [blockPort, bitGet]
  | cons b bs ih =>
    rw [blockPort, BitVec.getLsbD_or, BitVec.getLsbD_shiftLeft]
    by_cases h8 : i < 8
    · simp [bitGet_cons_of_lt b bs h8, h8, hi]
    · have hb : b.getLsbD i = false := BitVec.getLsbD_of_ge b i (by omega)
      rw [bitGet_cons_of_le b bs (by omega), ← ih (by omega)]
      simp [hb, h8, hi]

/-- A block of up to 32 bytes put on a port reads back as itself (spec/20_memory.md R64). -/
theorem portBlock_blockPort {b : Block} (hb : b.length ≤ 32) :
    portBlock (blockPort b) b.length = b := by
  refine bitGet_ext (portBlock_length _ _) fun k hk => ?_
  rw [portBlock_length] at hk
  obtain ⟨v, hv⟩ := bitGet_of_lt hk
  rw [portBlock_get _ _ hk, blockPort_getLsbD b (by omega), hv]
  cases v <;> rfl

/-- Settles O14: input by `portBlock_get`, output by `blockPort_getLsbD` and `portBlock_blockPort`. -/
theorem portLayout : Obligations.port_layout :=
  ⟨fun d n _ => ⟨portBlock_length d n, fun _ hi => portBlock_get d n hi⟩,
    fun b hb => ⟨fun _ hi => blockPort_getLsbD b hi, portBlock_blockPort hb⟩⟩

/-! ### A rotor window at any bit offset -/

/-- A window of up to 32 bytes is the buffer read bit by bit from `current` on, into the extension where it
runs past `size` (spec/20_memory.md R65). -/
theorem rotorWindow_bits {r : Rotor} (h : RotorOk r) {n : Nat} (hn : n ≤ 32) {w : Block}
    (hw : rotorWindow r n = some w) {j : Nat} (hj : j < 8 * n) :
    bitGet w j = bitGet r.buffer (r.current + j) := by
  have hlen : r.size + 256 ≤ 8 * r.buffer.length := h.buffer_length ▸ bytesFor_le _
  have hcur := h.current_lt
  obtain ⟨w', hw', -, bits⟩ := copyBits_spec r.buffer r.current (zeroBytes n) (8 * n) (by omega)
    (by simp) fun _ hk => bitGet_zeroBytes hk
  obtain rfl : w' = w := Option.some.inj (hw'.symm.trans hw)
  rw [bits j, if_pos hj]

/-- The merged byte has the bits of `lo` from bit `s` on, then those of `hi` from bit 0 on. -/
theorem getLsbD_shift_merge (lo hi : Byte) {s i : Nat} (hs : s ≤ 8) (hi8 : i < 8) :
    ((lo >>> s) ||| (hi <<< (8 - s))).getLsbD i =
      if s + i < 8 then lo.getLsbD (s + i) else hi.getLsbD (s + i - 8) := by
  rw [BitVec.getLsbD_or, BitVec.getLsbD_ushiftRight, BitVec.getLsbD_shiftLeft]
  by_cases h : s + i < 8
  · have below : i < 8 - s := by omega
    simp [h, below]
  · have above : ¬ i < 8 - s := by omega
    have hlo : lo.getLsbD (s + i) = false := BitVec.getLsbD_of_ge lo _ (by omega)
    have hsub : i - (8 - s) = s + i - 8 := by omega
    simp [h, above, hlo, hsub, hi8]

/-- The eight bits from bit `s` of byte `m` on are the shift-merge of that byte and the next. -/
theorem bitGet_shift_merge {buf : List Byte} {m s i : Nat} {lo hi : Byte} (hlo : buf[m]? = some lo)
    (hhi : buf[m + 1]? = some hi) (hs : s ≤ 8) (hi8 : i < 8) :
    bitGet buf (8 * m + (s + i)) = some (((lo >>> s) ||| (hi <<< (8 - s))).getLsbD i) := by
  rw [getLsbD_shift_merge lo hi hs hi8]
  by_cases h : s + i < 8
  · rw [if_pos h, bitGet_byte hlo h]
  · have next_byte : 8 * m + (s + i) = 8 * (m + 1) + (s + i - 8) := by omega
    rw [if_neg h, next_byte, bitGet_byte hhi (by omega)]

/-- Settles O26: byte `k` of the window is the eight buffer bits from `8(b + k) + s` on, where `b` and `s` are
the quotient and the remainder of `current` by 8. They are one byte where `s = 0` and are shared by two
otherwise. -/
theorem windowShiftMerge : Obligations.window_shift_merge := by
  intro r n w hr hn hw k hk lo hi
  have bits : ∀ i < 8, bitGet w (8 * k + i) =
      bitGet r.buffer (8 * (r.current / 8 + k) + (r.current % 8 + i)) := fun i hi8 => by
    have bit_split : r.current + (8 * k + i) = 8 * (r.current / 8 + k) + (r.current % 8 + i) := by omega
    rw [rotorWindow_bits hr hn hw (by omega), bit_split]
  constructor
  · intro aligned hlo
    refine getElem?_eq_some_of_bitGet fun i hi8 => ?_
    rw [bits i hi8, aligned, Nat.zero_add, bitGet_byte hlo hi8]
  · intro _ hlo hhi
    refine getElem?_eq_some_of_bitGet fun i hi8 => ?_
    rw [bits i hi8, bitGet_shift_merge hlo hhi (by omega) hi8]

end Sys2Proof.Machine
end

section
/-! SUPPORT. The command words (spec/30_encoding.md): a word is its three fields (R91), decoding and encoding
are each other's inverse (R95), and a word that is no command, whatever the layout and the ports, is one of
the cases of R98 that name its fields alone. -/

namespace Sys2Proof

open Machine

/-! ### A command word and its three fields -/

@[simp] theorem unitField_commandWord (unit op : BitVec 4) (arg : BitVec 8) :
    unitField (commandWord unit op arg) = unit :=
  (BitVec.extractLsb'_append_eq_of_le (xhi := unit ++ op) (by decide)).trans
    BitVec.extractLsb'_append_eq_left

@[simp] theorem opField_commandWord (unit op : BitVec 4) (arg : BitVec 8) :
    opField (commandWord unit op arg) = op :=
  (BitVec.extractLsb'_append_eq_of_le (xhi := unit ++ op) (by decide)).trans
    BitVec.extractLsb'_append_eq_right

@[simp] theorem argField_commandWord (unit op : BitVec 4) (arg : BitVec 8) :
    argField (commandWord unit op arg) = arg :=
  BitVec.extractLsb'_append_eq_right (a := unit ++ op)

/-- The three fields leave out no bit of the word (spec/30_encoding.md R91). -/
theorem commandWord_fields (w : CmdWord) :
    commandWord (unitField w) (opField w) (argField w) = w := by
  have high : unitField w ++ opField w = w.extractLsb' 8 8 :=
    BitVec.extractLsb'_append_extractLsb'_eq_extractLsb' rfl
  rw [commandWord, high]
  exact (BitVec.extractLsb'_append_extractLsb'_eq_extractLsb' rfl).trans BitVec.extractLsb'_eq_self

/-- The decoder's tables, read at the fields (spec/30_encoding.md R95). -/
def decodeFields (unit op : BitVec 4) (arg : BitVec 8) : Except DecodeError Instr :=
  match unit.toNat with
  | 0 => decodeCmb op arg
  | 1 => decodeRot op arg
  | 2 => decodePrm op arg
  | 3 => decodeCtr op arg
  | 4 => decodeCas op arg
  | 5 => decodeRng op arg
  | _ => .error .reservedUnit

theorem decode_eq_decodeFields (w : CmdWord) :
    decode w = decodeFields (unitField w) (opField w) (argField w) :=
  rfl

theorem decode_commandWord (unit op : BitVec 4) (arg : BitVec 8) :
    decode (commandWord unit op arg) = decodeFields unit op arg := by
  rw [decode_eq_decodeFields, unitField_commandWord, opField_commandWord, argField_commandWord]

/-! ### Decoding and encoding -/

/-- Settles O1: the fields of a command's word are the ones its row of the decoder's tables names. -/
theorem decodeOfEncode : Obligations.decode_of_encode := by
  intro i
  cases i <;> exact decode_commandWord _ _ _

theorem commandWord_congr_op {unit op op' : BitVec 4} {arg : BitVec 8} (hop : op.toNat = op'.toNat) :
    commandWord unit op' arg = commandWord unit op arg := by
  rw [BitVec.eq_of_toNat_eq hop]

/-- What decoding the word `w` may answer: the command that has this word, or an error, and that only where
the word is illegal. -/
def AnswersFor (w : CmdWord) (illegal : Prop) : Except DecodeError Instr → Prop
  | .ok i => encode i = w
  | .error _ => illegal

/-- A row whose `ARG` must be 0 (spec/30_encoding.md R95). -/
theorem plainRow_answers {unit op op' : BitVec 4} {arg : BitVec 8} {i : Instr} {illegal : Prop}
    (hop : op.toNat = op'.toNat) (hi : encode i = commandWord unit op' 0)
    (hz : arg.toNat ≠ 0 → illegal) :
    AnswersFor (commandWord unit op arg) illegal (plainRow arg i) := by
  unfold plainRow
  split
  · rename_i ha
    rw [ha]
    exact hi.trans (commandWord_congr_op hop)
  · rename_i ha
    exact hz fun h0 => ha (BitVec.eq_of_toNat_eq h0)

theorem decodeCmb_answers (op : BitVec 4) (arg : BitVec 8) :
    AnswersFor (commandWord 0 op arg) (3 ≤ op.toNat ∨ arg.toNat ≠ 0) (decodeCmb op arg) := by
  unfold decodeCmb
  split
  case h_4 => exact .inl (by grind)
  all_goals exact plainRow_answers ‹_› rfl .inr

theorem decodeRot_answers (op : BitVec 4) (arg : BitVec 8) :
    AnswersFor (commandWord 1 op arg) (6 ≤ op.toNat) (decodeRot op arg) := by
  unfold decodeRot
  split
  case h_7 =>
    show 6 ≤ op.toNat
    grind
  all_goals exact commandWord_congr_op ‹_›

theorem decodePrm_answers (op : BitVec 4) (arg : BitVec 8) :
    AnswersFor (commandWord 2 op arg) (6 ≤ op.toNat) (decodePrm op arg) := by
  unfold decodePrm
  split
  case h_7 =>
    show 6 ≤ op.toNat
    grind
  all_goals exact commandWord_congr_op ‹_›

theorem decodeCtr_answers (op : BitVec 4) (arg : BitVec 8) :
    AnswersFor (commandWord 3 op arg) (6 ≤ op.toNat) (decodeCtr op arg) := by
  unfold decodeCtr
  split
  case h_7 =>
    show 6 ≤ op.toNat
    grind
  all_goals exact commandWord_congr_op ‹_›

theorem decodeCas_answers (op : BitVec 4) (arg : BitVec 8) :
    AnswersFor (commandWord 4 op arg) (9 ≤ op.toNat ∨ op.toNat ≠ 2 ∧ arg.toNat ≠ 0)
      (decodeCas op arg) := by
  unfold decodeCas
  split
  case h_10 => exact .inl (by grind)
  case h_3 => exact commandWord_congr_op ‹_›
  all_goals exact plainRow_answers ‹_› rfl fun hz => .inr ⟨by omega, hz⟩

theorem decodeRng_answers (op : BitVec 4) (arg : BitVec 8) :
    AnswersFor (commandWord 5 op arg) (4 ≤ op.toNat ∨ arg.toNat ≠ 0) (decodeRng op arg) := by
  unfold decodeRng
  split
  case h_5 => exact .inl (by grind)
  all_goals exact plainRow_answers ‹_› rfl .inr

/-- The cases of spec/30_encoding.md R98 that the three fields decide: `UNIT` reserved, `OP` not listed for
it, or `ARG` not 0 in a row whose mask is `0xFFFF`. -/
abbrev NoCommand (unit op arg : Nat) : Prop :=
  6 ≤ unit ∨ (unit = 0 ∧ 3 ≤ op) ∨ ((unit = 1 ∨ unit = 2 ∨ unit = 3) ∧ 6 ≤ op) ∨
    (unit = 4 ∧ 9 ≤ op) ∨ (unit = 5 ∧ 4 ≤ op) ∨
    ((unit = 0 ∨ unit = 5 ∨ (unit = 4 ∧ op ≠ 2)) ∧ arg ≠ 0)

theorem AnswersFor.of_unit {unit unit' op : BitVec 4} {arg : BitVec 8} {r : Except DecodeError Instr}
    {illegal : Prop} (h : AnswersFor (commandWord unit' op arg) illegal r)
    (hu : unit.toNat = unit'.toNat) (hn : illegal → NoCommand unit.toNat op.toNat arg.toNat) :
    AnswersFor (commandWord unit op arg) (NoCommand unit.toNat op.toNat arg.toNat) r := by
  obtain rfl := BitVec.eq_of_toNat_eq hu
  cases r with
  | ok i => exact h
  | error e => exact hn h

/-- The decoder answers a command with its own word, and rejects the words that are no commands only. -/
theorem decodeFields_answers (unit op : BitVec 4) (arg : BitVec 8) :
    AnswersFor (commandWord unit op arg) (NoCommand unit.toNat op.toNat arg.toNat)
      (decodeFields unit op arg) := by
  unfold decodeFields
  split
  case h_1 hu => exact (decodeCmb_answers op arg).of_unit hu (by omega)
  case h_2 hu => exact (decodeRot_answers op arg).of_unit hu (by omega)
  case h_3 hu => exact (decodePrm_answers op arg).of_unit hu (by omega)
  case h_4 hu => exact (decodeCtr_answers op arg).of_unit hu (by omega)
  case h_5 hu => exact (decodeCas_answers op arg).of_unit hu (by omega)
  case h_6 hu => exact (decodeRng_answers op arg).of_unit hu (by omega)
  case h_7 => exact .inl (by grind)

theorem decode_answers (w : CmdWord) :
    AnswersFor w (NoCommand (unitField w).toNat (opField w).toNat (argField w).toNat) (decode w) := by
  have answers := decodeFields_answers (unitField w) (opField w) (argField w)
  rwa [commandWord_fields, ← decode_eq_decodeFields] at answers

/-- Settles O2: the command decoded has the word's three fields, and they are the whole word. -/
theorem encodeOfDecode : Obligations.encode_of_decode := by
  intro w i h
  have answers := decode_answers w
  rwa [h] at answers

theorem exists_decode_of_not_noCommand {w : CmdWord}
    (h : ¬ NoCommand (unitField w).toNat (opField w).toNat (argField w).toNat) :
    ∃ i, decode w = .ok i := by
  have answers := decode_answers w
  cases hd : decode w with
  | ok i => exact ⟨i, rfl⟩
  | error e =>
    rw [hd] at answers
    exact absurd answers h

/-! ### The rows of the command map -/

/-- Every row's mask keeps `UNIT` and `OP` (spec/30_encoding.md R91, R95). -/
abbrev KeepsUnitOp (mask : CmdWord) : Prop := mask = 0xFFFF ∨ mask = 0xFF00

theorem unitField_and {w mask : CmdWord} (h : KeepsUnitOp mask) :
    unitField (w &&& mask) = unitField w := by
  have ones : unitField mask = BitVec.allOnes 4 := by rcases h with rfl | rfl <;> rfl
  exact BitVec.extractLsb'_and.trans ((congrArg _ ones).trans BitVec.and_allOnes)

theorem opField_and {w mask : CmdWord} (h : KeepsUnitOp mask) :
    opField (w &&& mask) = opField w := by
  have ones : opField mask = BitVec.allOnes 4 := by rcases h with rfl | rfl <;> rfl
  exact BitVec.extractLsb'_and.trans ((congrArg _ ones).trans BitVec.and_allOnes)

section
open Laws.TableRow

/-- Every command's word matches its row of the table, by the command's own lemma of Laws/PerInstr.lean. -/
theorem encode_matches_row (i : Instr) : Statement i := by
  cases i
  exacts [cmbAdd, cmbSub, cmbXor,
    rotNew _, rotUpdate _, rotApplyf _, rotApplyi _, rotSeek _, rotIndex _,
    prmNew _, prmUpdate _, prmApplyf _, prmApplyi _, prmSeek _, prmIndex _,
    ctrNew _, ctrUpdate _, ctrApplyf _, ctrApplyi _, ctrSeek _, ctrIndex _,
    casInit, casLoad, casSetmode _, casBuild, casSeek, casIndex, casClose, casPush, casPull,
    rngSeed, rngRead, rngUniform, rngPerm]

end

/-- No row names a word that is no command: one with mask `0xFFFF` its own word, one with mask `0xFF00` a word
with any `ARG`, so that of `ARG` 1 too. -/
theorem opcodeRows_listed : ∀ row ∈ opcodeRows,
    (row.2 = 0xFFFF ∧
        ¬ NoCommand (unitField row.1).toNat (opField row.1).toNat (argField row.1).toNat) ∨
      row.2 = 0xFF00 ∧ ¬ NoCommand (unitField row.1).toNat (opField row.1).toNat 1 := by
  simp [opcodeRows, unitField, opField, argField]

theorem opcodeRows_mask {row : CmdWord × CmdWord} (hr : row ∈ opcodeRows) : KeepsUnitOp row.2 :=
  (opcodeRows_listed row hr).imp And.left And.left

/-- No two rows have the same `UNIT` and `OP`. -/
theorem opcodeRows_distinct : opcodeRows.Pairwise fun a b =>
    ¬ (unitField a.1 = unitField b.1 ∧ opField a.1 = opField b.1) := by
  decide +kernel

theorem unitField_of_matches {row : CmdWord × CmdWord} {w : CmdWord} (hr : row ∈ opcodeRows)
    (hm : w &&& row.2 = row.1) : unitField row.1 = unitField w := by
  rw [← hm, unitField_and (opcodeRows_mask hr)]

theorem opField_of_matches {row : CmdWord × CmdWord} {w : CmdWord} (hr : row ∈ opcodeRows)
    (hm : w &&& row.2 = row.1) : opField row.1 = opField w := by
  rw [← hm, opField_and (opcodeRows_mask hr)]

theorem not_noCommand_of_matches {row : CmdWord × CmdWord} {w : CmdWord} (hr : row ∈ opcodeRows)
    (hm : w &&& row.2 = row.1) :
    ¬ NoCommand (unitField w).toNat (opField w).toNat (argField w).toNat := by
  rcases opcodeRows_listed row hr with ⟨hmask, hl⟩ | ⟨-, hl⟩
  · have hw : w = row.1 := by rw [← hm, hmask]; exact BitVec.and_allOnes.symm
    rwa [hw]
  · rw [unitField_of_matches hr hm, opField_of_matches hr hm] at hl
    omega

/-- A list of which no two are related, though all are, holds one at most. -/
theorem length_le_one_of_pairwise_not {α : Type} {R : α → α → Prop} {l : List α}
    (distinct : l.Pairwise fun a b => ¬ R a b) (related : ∀ a ∈ l, ∀ b ∈ l, R a b) :
    l.length ≤ 1 := by
  match l with
  | [] => exact Nat.zero_le 1
  | [_] => exact Nat.le_refl 1
  | a :: b :: _ =>
    exact absurd (related a (by simp) b (by simp))
      (List.rel_of_pairwise_cons distinct List.mem_cons_self)

/-- Two rows that a word matches have its `UNIT` and its `OP`, so they are one row. -/
theorem matching_rows_le_one (w : CmdWord) :
    (opcodeRows.filter fun row => w &&& row.2 = row.1).length ≤ 1 := by
  refine length_le_one_of_pairwise_not (opcodeRows_distinct.filter _) fun a ha b hb => ?_
  obtain ⟨ha, hwa⟩ := List.mem_filter.mp ha
  obtain ⟨hb, hwb⟩ := List.mem_filter.mp hb
  have hwa := of_decide_eq_true hwa
  have hwb := of_decide_eq_true hwb
  exact ⟨(unitField_of_matches ha hwa).trans (unitField_of_matches hb hwb).symm,
    (opField_of_matches ha hwa).trans (opField_of_matches hb hwb).symm⟩

/-- Settles O4: a decoded command's row is matched by its word, which is the one decoded (O2), and a word that
matches a row is none of the words the decoder rejects. -/
theorem decodesIffRowMatches : Obligations.decodes_iff_row_matches := by
  intro w
  refine ⟨⟨?_, ?_⟩, matching_rows_le_one w⟩
  · rintro ⟨i, hi⟩
    obtain ⟨mem, matched⟩ := encode_matches_row i
    rw [encodeOfDecode w i hi] at matched
    exact ⟨_, mem, matched⟩
  · rintro ⟨row, mem, matched⟩
    exact exists_decode_of_not_noCommand (not_noCommand_of_matches mem matched)

/-! ### Legal encodings -/

theorem illegalEncoding_of_noCommand {w : CmdWord}
    (h : NoCommand (unitField w).toNat (opField w).toNat (argField w).toNat) (layout : List Kind)
    (len : BitVec 6) : IllegalEncoding layout w len := by
  rcases h with unit_reserved | cmb_op | stage_op | cas_op | rng_op | arg_not_zero
  · exact .inl unit_reserved
  · exact .inr (.inl cmb_op)
  · exact .inr (.inr (.inl stage_op))
  · exact .inr (.inr (.inr (.inl cas_op)))
  · exact .inr (.inr (.inr (.inr (.inl rng_op))))
  · exact .inr (.inr (.inr (.inr (.inr (.inl arg_not_zero)))))

@[simp] theorem slotHasKind_eq_false {layout : List Kind} {k : Kind} {slot : BitVec 8} :
    slotHasKind layout k slot = false ↔ layout[slot.toNat]? ≠ some k := by
  simp [slotHasKind]

@[simp] theorem slotIsCounter_eq_false {layout : List Kind} {slot : BitVec 8} :
    slotIsCounter layout slot = false ↔ slot.toNat ≠ layout.length := by
  simp [slotIsCounter]

@[simp] theorem lenCombiner_eq_false {len : BitVec 6} : lenCombiner len = false ↔ 32 < len.toNat := by
  simp [lenCombiner]

@[simp] theorem lenStage_eq_false {len : BitVec 6} :
    lenStage len = false ↔ len.toNat = 0 ∨ 32 < len.toNat := by
  simp only [lenStage, Bool.and_eq_false_iff, decide_eq_false_iff_not]
  omega

@[simp] theorem lenFull_eq_false {len : BitVec 6} : lenFull len = false ↔ len.toNat ≠ 32 := by
  simp [lenFull]

/-- The fields of a command's word leave, of the cases of spec/30_encoding.md R98, those where its `ARG` or
its `LEN` is out of range. -/
theorem illegalEncoding_encode (i : Instr) (layout : List Kind) (len : BitVec 6) :
    IllegalEncoding layout (encode i) len ↔ i.wf layout = false ∨ lenLegal len i = false := by
  cases i <;> simp [IllegalEncoding, encode, Instr.wf, lenLegal]

theorem not_illegalEncoding_encode {i : Instr} {s : State} :
    ¬ IllegalEncoding s.params.layout (encode i) s.port.len ↔ encodingLegal i s = true := by
  rw [illegalEncoding_encode, encodingLegal, ← Bool.and_eq_false_iff, Bool.not_eq_false]

/-- Settles O7. A word that is not illegal is one the decoder takes, so it is its command's word (O2); and for
a command's word the case list is the negation of `encodingLegal`. -/
theorem illegalOrCommand : Obligations.illegal_or_command := by
  rintro s c rfl
  constructor
  · intro legal
    obtain ⟨i, hi⟩ := exists_decode_of_not_noCommand
      fun h => legal (illegalEncoding_of_noCommand h s.params.layout s.port.len)
    rw [← encodeOfDecode _ i hi] at legal
    exact ⟨i, hi, not_illegalEncoding_encode.mp legal⟩
  · rintro ⟨i, hi, legal⟩
    rw [← encodeOfDecode _ i hi]
    exact not_illegalEncoding_encode.mpr legal

/-- Settles O3, word by word. -/
theorem sampleWordsDecode : Obligations.sample_words_decode :=
  ⟨rfl, rfl, rfl, rfl, rfl, rfl, rfl, rfl, rfl, rfl⟩

end Sys2Proof
end

section
/-! SUPPORT. A turn of the host runs the command its word decodes to (spec/30_encoding.md R90). -/

namespace Sys2Proof.Machine

/-- A command whose rule does not wait is never stuck (spec/60_exceptions.md R310). -/
theorem exec_ne_fault {i : Instr} (h : ¬ MayWait i) (s : State) (f : Fault) : exec i s ≠ .fault f :=
  fun hf => ruleOf_ne_stuck h s f (exec_eq_fault.mp hf).2.2

/-- A command that is accepted runs what its word decodes to, or is held back for a reset to come. -/
theorem acceptCommand_issued {i : Instr} {s : State} (h : decode s.port.cmd = .ok i) :
    Issued i { s with inProgress := false } (acceptCommand s) := by
  have run : runPort { s with inProgress := false } = exec i { s with inProgress := false } :=
    runPort_decode h
  refine ⟨fun free => ?_, fun stuck reset => ?_⟩
  · rw [← run] at free ⊢
    exact acceptCommand_eq_runPort free
  · rw [← run] at stuck
    exact acceptCommand_eq_next.mpr (.inr ⟨stuck, reset, rfl⟩)

/-- A command whose rule does not wait does not wait at issue either: it runs at once (log 11). -/
theorem startCommand_eq_exec {i : Instr} {s : State} (h : decode s.port.cmd = .ok i) (hi : ¬ MayWait i) :
    startCommand s = exec i { s with inProgress := false } := by
  have no_wait : ¬ mustWait s = true := fun hw => by
    obtain ⟨f, hf⟩ := mustWait_iff.mp hw
    rw [runPort_decode (s := haltWorkers { s with inProgress := false }) h] at hf
    exact exec_ne_fault hi _ f hf
  rw [startCommand, if_neg no_wait]
  exact (acceptCommand_issued h).1 (.inl (exec_ne_fault hi _))

/-- With no command in progress the host samples the next of its commands. -/
theorem withCommand_sample (act : State → Host.Outcome State Fault Refusal) {s : State} {c : Command}
    {rest : List Command} (hp : s.inProgress = false) (hc : s.commands = c :: rest) :
    withCommand act s = act { s with port := c, commands := rest } := by
  simp [withCommand, hp, hc, sampleCommand]

/-- The host takes up the command in progress. -/
theorem withCommand_resume (act : State → Host.Outcome State Fault Refusal) {s : State}
    (hp : s.inProgress = true) : withCommand act s = act s := by
  simp [withCommand, hp]

theorem inProgress_false_eq {s : State} (hp : s.inProgress = false) : { s with inProgress := false } = s := by
  rw [← hp]

/-- A host's turn that samples a command issues it. -/
theorem hostTurn_issued {i : Instr} {s : State} {c : Command} {rest : List Command}
    (h : decode c.cmd = .ok i) (hp : s.inProgress = false) (hc : s.commands = c :: rest) :
    Issued i { s with port := c, commands := rest } (hostTurn s) := by
  have issued := acceptCommand_issued (s := { s with port := c, commands := rest }) h
  rw [inProgress_false_eq (s := { s with port := c, commands := rest }) hp] at issued
  rwa [hostTurn, withCommand_sample _ hp hc]

/-- A host's turn with a command in progress issues that command, in the state of then. -/
theorem hostTurn_resumed {i : Instr} {s : State} (h : decode s.port.cmd = .ok i)
    (hp : s.inProgress = true) : Issued i { s with inProgress := false } (hostTurn s) := by
  rw [hostTurn, withCommand_resume _ hp]
  exact acceptCommand_issued h

/-- A turn that only issues runs a command whose rule does not wait, whole. -/
theorem issueTurn_eq_exec {i : Instr} {s : State} {c : Command} {rest : List Command}
    (h : decode c.cmd = .ok i) (hp : s.inProgress = false) (hc : s.commands = c :: rest)
    (hi : ¬ MayWait i) : issueTurn s = exec i { s with port := c, commands := rest } := by
  have runs := startCommand_eq_exec (s := { s with port := c, commands := rest }) h hi
  rw [inProgress_false_eq (s := { s with port := c, commands := rest }) hp] at runs
  rw [issueTurn, withCommand_sample _ hp hc, runs]

/-- `withFetchWord` gives the host a word that fits its bits, with the operands on the port. -/
theorem fetchCommand_toNat (s : State) {w : CmdWord} {nbits : Nat} (h : w.toNat < 2 ^ nbits) :
    fetchCommand s nbits w.toNat = { s.port with cmd := w } := by
  rw [fetchCommand, Nat.mod_eq_of_lt h, BitVec.ofNat_toNat, BitVec.setWidth_eq]

/-- Settles O5, by the agent that moves: the host with nothing scheduled, the host on the agenda with a new
command, the same as a turn that only issues, the host with a command in progress, and the host after
`withFetchWord`. -/
theorem stepRunsDecodedCommand : Obligations.step_runs_decoded_command := by
  intro s c rest i h
  refine ⟨fun ha hp hc => ?free, fun more ha hp hc => ?host, fun more ha hp hc hi => ?issue,
    fun more ha hp hport => ?resume, fun nbits hw => ?fetch⟩
  case free =>
    have turn : step s = hostTurn s := by simp [step, ha, freeTurn, hc]
    rw [turn]
    exact (hostTurn_issued h hp hc).1 (.inr (by simp [ha]))
  case host =>
    rw [step, ha]
    exact hostTurn_issued (s := { s with agenda := more }) h hp hc
  case issue =>
    rw [step, ha]
    exact issueTurn_eq_exec (s := { s with agenda := more }) h hp hc hi
  case resume =>
    subst hport
    rw [step, ha]
    exact hostTurn_resumed (s := { s with agenda := more }) h hp
  case fetch =>
    have word : decode (fetchCommand s nbits c.cmd.toNat).cmd = .ok i := by
      rw [fetchCommand_toNat s hw, h]
    have turn : step (s.withFetchWord nbits c.cmd.toNat) =
        hostTurn { s.withFetchWord nbits c.cmd.toNat with agenda := s.agenda } := rfl
    rw [← fetchCommand_toNat s hw, turn]
    exact hostTurn_issued (s := { s.withFetchWord nbits c.cmd.toNat with agenda := s.agenda }) word rfl rfl

end Sys2Proof.Machine
end

section
/-! SUPPORT. The bit utilities and the Block Combiner (spec/40_bits_and_combiner.md). A combiner command
completes with its function of the two operands, and what that function computes is in Laws/Combiner.lean. -/

namespace Sys2Proof.Machine

/-! ### Bit utilities -/

/-- `BitSet` outside the buffer (spec/40_bits_and_combiner.md R121). -/
theorem bitSet_eq_none {buf : List Byte} {i : Nat} (h : buf.length ≤ i / 8) : bitSet buf i = none :=
  if_neg (Nat.not_lt.mpr h)

/-- `BitClr` outside the buffer (spec/40_bits_and_combiner.md R122). -/
theorem bitClr_eq_none {buf : List Byte} {i : Nat} (h : buf.length ≤ i / 8) : bitClr buf i = none :=
  if_neg (Nat.not_lt.mpr h)

/-- Taking `BitIndexRange` sets its code and `FATAL` (spec/60_exceptions.md R300). -/
theorem raiseException_bitIndexRange (s : State) :
    raiseException .bitIndexRange s = { s with status := 3, fatal := true, returned := .nothing } := by
  simp [raiseException, exnCode, exnFatal]

/-- A rule that accesses a bit outside its buffer completes there, whatever would come after. -/
theorem complete_bitIndexRange {α : Type} {a : Option α} (h : a = none) (s : State)
    (k : α → State → Res Returned) :
    complete ((orBitIndexRange a s).bind k) =
      .next { s with status := 3, fatal := true, returned := .nothing } := by
  have raised : orBitIndexRange a s = .raise .bitIndexRange s :=
    orBitIndexRange_eq_raise.mpr ⟨h, rfl, rfl⟩
  rw [bind_of_raise raised, complete, raiseException_bitIndexRange]

/-- Settles O13: inside the buffer by `bitSet_spec` and `bitClr_spec`, outside by the three failures. -/
theorem bitUtilities : Obligations.bit_utilities := by
  intro buf i
  constructor
  case left =>
    intro b hb
    obtain ⟨hlt, -⟩ := List.getElem?_eq_some_iff.mp hb
    have inside : i < 8 * buf.length := (div8_lt_iff i buf.length).mp hlt
    exact ⟨by rw [bitGet, hb, Option.map_some], bitSet_spec inside, bitClr_spec inside⟩
  case right =>
    intro outside
    have get_none : bitGet buf i = none := (bitGet_eq_none_iff buf i).mpr (by omega)
    exact ⟨get_none, bitSet_eq_none outside, bitClr_eq_none outside, complete_bitIndexRange get_none⟩

/-! ### The laws of the combiner -/

/-- Subtracting undoes adding: `(a + b) mod M - b` is `a` modulo `M`, and `a` is below `M`. -/
theorem subBlock_addBlock {a b : Block} (h : a.length = b.length) :
    subBlock (addBlock a b) b = a := by
  have sum_length := addBlock_length h
  refine valBe_inj ((subBlock_length (sum_length.trans h)).trans sum_length) (Int.ofNat_inj.mp ?_)
  have below : (valBe a : Int) < (256 ^ a.length : Nat) := Int.ofNat_lt.mpr (valBe_lt a)
  calc (valBe (subBlock (addBlock a b) b) : Int)
      = ((valBe (addBlock a b) : Int) - valBe b) % (256 ^ a.length : Nat) := by
        rw [subBlock_valBe (sum_length.trans h), sum_length]
    _ = (((valBe a : Int) + valBe b) % (256 ^ a.length : Nat) - valBe b) % (256 ^ a.length : Nat) := by
        rw [addBlock_valBe h, Int.natCast_emod, Int.natCast_add]
    _ = (valBe a : Int) % (256 ^ a.length : Nat) := by rw [Int.emod_sub_emod, Int.add_sub_cancel]
    _ = valBe a := Int.emod_eq_of_lt (Int.natCast_nonneg _) below

/-- Adding undoes subtracting: `(a - b) mod M + b` is `a` modulo `M`, and `a` is below `M`. -/
theorem addBlock_subBlock {a b : Block} (h : a.length = b.length) :
    addBlock (subBlock a b) b = a := by
  have difference_length := subBlock_length h
  refine valBe_inj ((addBlock_length (difference_length.trans h)).trans difference_length)
    (Int.ofNat_inj.mp ?_)
  have below : (valBe a : Int) < (256 ^ a.length : Nat) := Int.ofNat_lt.mpr (valBe_lt a)
  calc (valBe (addBlock (subBlock a b) b) : Int)
      = ((valBe (subBlock a b) : Int) + valBe b) % (256 ^ a.length : Nat) := by
        rw [addBlock_valBe (difference_length.trans h), difference_length, Int.natCast_emod,
          Int.natCast_add]
    _ = (((valBe a : Int) - valBe b) % (256 ^ a.length : Nat) + valBe b) % (256 ^ a.length : Nat) := by
        rw [subBlock_valBe h]
    _ = (valBe a : Int) % (256 ^ a.length : Nat) := by rw [Int.emod_add_emod, Int.sub_add_cancel]
    _ = valBe a := Int.emod_eq_of_lt (Int.natCast_nonneg _) below

/-- Settles O18. -/
theorem combinerLaws : Obligations.combiner_laws :=
  fun _ _ h => ⟨subBlock_addBlock h, addBlock_subBlock h⟩

/-! ### The combiner commands -/

theorem operands_length_eq (s : State) : (operandA s).length = (operandB s).length :=
  (operandA_length s).trans (operandB_length s).symm

/-- A combiner command is legal in every state of the cascade, and its encoding is legal up to a `LEN` of
32 (spec/30_encoding.md R98); it then completes with its function of the operands and writes nothing but
`STATUS`. -/
theorem exec_combine {i : Instr} {f : Block → Block → Block} {s : State}
    (legal : legalOf i = alwaysLegal) (rule : ruleOf i = combine f)
    (encoding : encodingLegal i s = lenCombiner s.port.len) (hf : s.fatal = false)
    (hlen : s.port.len.toNat ≤ 32) :
    exec i s =
      .next { s with status := 0, returned := returnBlock (f (operandA s) (operandB s)) } := by
  have admitted : Admitted i s := ⟨hf, encoding.trans (decide_eq_true hlen)⟩
  exact exec_ok admitted (congrFun legal s) (congrFun rule s)

/-- Settles O15: `addBlock` is the sum modulo `256^n` by `addBlock_valBe`. -/
theorem combinerAdd : Obligations.combiner_add := by
  intro s hf hlen
  have same := operands_length_eq s
  refine ⟨addBlock (operandA s) (operandB s), ?length, ?value, exec_combine rfl rfl rfl hf hlen⟩
  case length => rw [addBlock_length same, operandA_length]
  case value => rw [addBlock_valBe same, operandA_length]

/-- Settles O16: `subBlock` is the difference modulo `256^n` by `subBlock_valBe`. -/
theorem combinerSub : Obligations.combiner_sub := by
  intro s hf hlen
  have same := operands_length_eq s
  refine ⟨subBlock (operandA s) (operandB s), ?length, ?value, exec_combine rfl rfl rfl hf hlen⟩
  case length => rw [subBlock_length same, operandA_length]
  case value => rw [subBlock_valBe same, operandA_length]

/-- Byte `k` of the exclusive or (spec/40_bits_and_combiner.md R125). -/
theorem xorBlock_getElem? {a b : Block} {k : Nat} {x y : Byte} (hx : a[k]? = some x)
    (hy : b[k]? = some y) : (xorBlock a b)[k]? = some (x ^^^ y) :=
  List.getElem?_zipWith_eq_some.mpr ⟨x, y, hx, hy, rfl⟩

/-- Settles O17, byte by byte. -/
theorem combinerXor : Obligations.combiner_xor := by
  intro s hf hlen
  refine ⟨xorBlock (operandA s) (operandB s), ?length, ?bytes, exec_combine rfl rfl rfl hf hlen⟩
  case length => rw [xorBlock_length (operands_length_eq s), operandA_length]
  case bytes => exact fun k _ a b ha hb => xorBlock_getElem? ha hb

end Sys2Proof.Machine
end

section
/-! SUPPORT. The Rotor (spec/41_rotor.md), and with its round trip the Permutator's
(spec/42_permutator.md R181). What the operations compute is in Laws/Rotor.lean and Laws/Permutator.lean;
here a command that reads a loaded slot is said once to run on what the slot holds. A theorem that settles an
obligation with the name of a definition of the model has `Command` after it. -/

namespace Sys2Proof.Machine

/-! ### Reading a loaded slot -/

/-- A rule that reads a rotor slot goes on with the rotor the slot holds (spec/41_rotor.md R140). -/
theorem orNoValue_rotorAt {n : Nat} {s : State} {r : Rotor} (hslot : s.slots[n]? = some (some (.rotor r))) :
    orNoValue (rotorAt n s) s = .ok r s :=
  orNoValue_eq_ok.mpr ⟨rotorAt_eq_some.mpr hslot, rfl⟩

/-- A rule that reads a permutator slot goes on with the permutator the slot holds
(spec/42_permutator.md R170). -/
theorem orNoValue_permutatorAt {n : Nat} {s : State} {p : Permutator}
    (hslot : s.slots[n]? = some (some (.permutator p))) : orNoValue (permutatorAt n s) s = .ok p s :=
  orNoValue_eq_ok.mpr ⟨permutatorAt_eq_some.mpr hslot, rfl⟩

/-! ### `ROT.NEW` -/

/-- The checks of `ROT.NEW` are the ranges of spec/41_rotor.md R141. -/
theorem rotorParamsOk_iff {p : Params} {size start step : Nat} {data : List Byte} :
    rotorParamsOk p size start step data = true ↔
      256 ≤ size ∧ size ≤ p.maxRotorBits ∧ start < size ∧ step ≠ 0 ∧ step < size ∧
        (size + 7) / 8 ≤ data.length := by
  simp only [rotorParamsOk, Bool.and_eq_true, decide_eq_true_eq, and_assoc, Nat.pos_iff_ne_zero]
  rfl

/-- Taking `ConfigError` sets its code and `FATAL` (spec/60_exceptions.md R300). -/
theorem raiseException_configError (s : State) :
    raiseException .configError s = { s with status := 2, fatal := true, returned := .nothing } := by
  simp [raiseException, exnCode, exnFatal]

/-- Settles O19: the rotor is the one of `rotorNew_ok`, and where the checks fail `rotorNew_bad` raises
before the slot is written. -/
theorem rotorNewCommand : Obligations.rotor_new := by
  intro slot s ha hr q
  have legal : legalOf (.rotNew slot) s = none := legalOutsideRunning_eq_none.mpr hr
  constructor
  case left =>
    intro inRange
    obtain ⟨⟨size, start, step, current, buf⟩, run, ok, rfl, rfl, rfl, rfl, bits⟩ :=
      rotorNew_ok (n := slot.toNat) (rotorParamsOk_iff.mpr inRange)
    exact ⟨buf, ok.buffer_length, bits, ok.extended, exec_ok ha legal (bind_of_ok run _)⟩
  case right =>
    intro outOfRange
    have bad : rotorParamsOk s.params q.size q.start q.step q.data = false :=
      Bool.eq_false_iff.mpr fun hok => outOfRange (rotorParamsOk_iff.mp hok)
    rw [exec_raise ha legal (bind_of_raise (rotorNew_bad bad) _), raiseException_configError]

/-! ### `ROT.APPLYF` and `ROT.APPLYI` -/

/-- A rotor command whose rule is a transform completes with the transform of the block at the port, the
rotor one `step` further, and writes nothing else but `STATUS` (spec/41_rotor.md R143 to R145). -/
theorem exec_rotorApply {i : Instr} {d : Direction} {slot : BitVec 8} {s : State} {r : Rotor}
    (legal : legalOf i = legalOutsideRunning)
    (rule : ruleOf i s =
      (rotorApplyAt d slot.toNat (operandA s) s).bind fun o s => .ok (returnBlock o) s)
    (ha : Admitted i s) (hr : s.fsm ≠ .running) (hslot : s.slots[slot.toNat]? = some (some (.rotor r)))
    (ok : RotorOk r) (hlen : s.port.len.toNat ≤ 32) :
    ∃ out, RotorStep d r (operandA s) out (rotorAdvance r) ∧
      exec i s = .next { s with
        slots := s.slots.set slot.toNat (some (.rotor (rotorAdvance r))),
        status := 0, returned := returnBlock out } := by
  obtain ⟨out, applied, rotor_step⟩ := rotorApply_step ok d ((operandA_length s).trans_le hlen)
  have run := rotorApplyAt_eq_ok.mpr ⟨r, hslot, applied, rfl⟩
  have legal_here : legalOf i s = none := legal ▸ legalOutsideRunning_eq_none.mpr hr
  exact ⟨out, rotor_step, exec_ok ha legal_here (rule.trans (bind_of_ok run _))⟩

/-- Settles O20: the forward case of `RotorStep`, at a block of `LEN` bytes. -/
theorem rotorApplyForward : Obligations.rotor_apply_forward := by
  intro slot s r ha hr hslot ok
  obtain ⟨out, ⟨⟨w, w_length, ring, out_length, value⟩, -⟩, completes⟩ :=
    exec_rotorApply (d := .forward) rfl rfl ha hr hslot ok (len_stage ha rfl).2
  rw [operandA_length] at w_length out_length value
  exact ⟨w, out, w_length, ring, out_length, value, completes⟩

/-- Settles O21: the inverse case of `RotorStep`, at a block of `LEN` bytes. -/
theorem rotorApplyInverse : Obligations.rotor_apply_inverse := by
  intro slot s r ha hr hslot ok
  obtain ⟨out, ⟨⟨w, w_length, ring, out_length, value⟩, -⟩, completes⟩ :=
    exec_rotorApply (d := .inverse) rfl rfl ha hr hslot ok (len_stage ha rfl).2
  rw [operandA_length] at w_length out_length value
  exact ⟨w, out, w_length, ring, out_length, value, completes⟩

/-! ### `ROT.SEEK`, `ROT.INDEX` and `PRM.INDEX` -/

/-- Settles O22: the rule reads the slot and writes `rotorSeek` of it back. -/
theorem rotorSeekCommand : Obligations.rotor_seek := fun _ _ _ ha hr hslot =>
  exec_ok ha (legalOutsideRunning_eq_none.mpr hr) (bind_of_ok (orNoValue_rotorAt hslot) _)

/-- Settles O23: past the read of the slot both rules are `notTracked`. -/
theorem stageIndexNotTracked : Obligations.stage_index_not_tracked := by
  intro slot s hr
  have legal := legalOutsideRunning_eq_none.mpr hr
  constructor
  case left =>
    exact fun r ha hslot =>
      ⟨Config.freeIdxOut s.freeCount, exec_ok ha legal (bind_of_ok (orNoValue_rotorAt hslot) _)⟩
  case right =>
    exact fun p ha hslot =>
      ⟨Config.freeIdxOut s.freeCount, exec_ok ha legal (bind_of_ok (orNoValue_permutatorAt hslot) _)⟩

/-! ### Seek equals stepping -/

/-- From index `i`, each block takes the rotor one index further, whatever its length and the direction
(spec/41_rotor.md R148). -/
theorem rotorApply_foldlM_rotorSeek {r : Rotor} (ok : RotorOk r) (d : Direction) (blocks : List Block)
    (short : ∀ b ∈ blocks, b.length ≤ 32) (i : Nat) :
    blocks.foldlM (fun r b => (rotorApply d r b).map Prod.snd) (rotorSeek i r) =
      some (rotorSeek (i + blocks.length) r) := by
  induction blocks generalizing i with
  | nil => rfl
  | cons b blocks ih =>
    obtain ⟨hb, hblocks⟩ := List.forall_mem_cons.mp short
    obtain ⟨out, applied, -⟩ := rotorApply_spec (rotorSeek_ok ok i) d hb
    have one_step : (rotorApply d (rotorSeek i r) b).map Prod.snd = some (rotorSeek (i + 1) r) := by
      rw [applied, Option.map_some, rotorAdvance_rotorSeek]
    calc (b :: blocks).foldlM (fun r b => (rotorApply d r b).map Prod.snd) (rotorSeek i r)
        = blocks.foldlM (fun r b => (rotorApply d r b).map Prod.snd) (rotorSeek (i + 1) r) := by
          rw [List.foldlM_cons, one_step]; rfl
      _ = some (rotorSeek (i + 1 + blocks.length) r) := ih hblocks (i + 1)
      _ = some (rotorSeek (i + (b :: blocks).length) r) := by
          rw [List.length_cons, Nat.add_right_comm, Nat.add_assoc]

/-- Settles O24: `rotorApply_foldlM_rotorSeek` from index 0. -/
theorem rotorSeekIsStepping : Obligations.rotor_seek_is_stepping := fun _ d blocks ok short => by
  rw [rotorApply_foldlM_rotorSeek ok d blocks short 0, Nat.zero_add]

/-! ### Round trip -/

/-- The forward transform adds the window (spec/41_rotor.md R144). -/
theorem rotorApply_forward {r : Rotor} {b w : Block} (window : rotorWindow r b.length = some w) :
    rotorApply .forward r b = some (addBlock b w, rotorAdvance r) := by
  rw [rotorApply, window, Option.map_some]

/-- The inverse transform subtracts the window (spec/41_rotor.md R145). -/
theorem rotorApply_inverse {r : Rotor} {b w : Block} (window : rotorWindow r b.length = some w) :
    rotorApply .inverse r b = some (subBlock b w, rotorAdvance r) := by
  rw [rotorApply, window, Option.map_some]

/-- A rotor gives the block back: both transforms meet the same window, as it depends on the position and
the length only, and subtracting it undoes adding it (spec/41_rotor.md R149). -/
theorem rotorApply_round_trip {r : Rotor} (ok : RotorOk r) {b : Block} (hb : b.length ≤ 32) :
    ∃ o r', rotorApply .forward r b = some (o, r') ∧ rotorApply .inverse r o = some (b, r') := by
  obtain ⟨w, window, w_length, -⟩ := rotorWindow_spec ok hb
  have same_window : rotorWindow r (addBlock b w).length = some w := by
    rw [addBlock_length w_length.symm, window]
  refine ⟨addBlock b w, rotorAdvance r, rotorApply_forward window, ?inverse⟩
  case inverse => rw [rotorApply_inverse same_window, subBlock_addBlock w_length.symm]

/-- A permutator gives the block back: the gather takes bit `i` from where the scatter put it, and a partial
block passes both times (spec/42_permutator.md R181). -/
theorem permutatorApply_round_trip {p : Permutator} (ok : PermutatorOk p) {b : Block}
    (hb : b.length ≤ 32) :
    ∃ o p', permutatorApply .forward p b = some (o, p') ∧ permutatorApply .inverse p o = some (b, p') := by
  obtain ⟨o, forward, o_length, scattered, o_partial, -⟩ := permutatorApply_step ok .forward (b := b)
  obtain ⟨c, inverse, c_length, gathered, c_partial, -⟩ := permutatorApply_step ok .inverse (b := o)
  suffices back : c = b from ⟨o, permutatorAdvance p, forward, back ▸ inverse⟩
  rcases Nat.lt_or_eq_of_le hb with short | full
  · rw [c_partial (o_length.trans_lt short), o_partial short]
  · refine bitGet_ext (c_length.trans o_length) fun i hi => ?_
    obtain ⟨v, entry⟩ := table_get ok.table_length (i := i) (by omega)
    exact (gathered (o_length.trans full) i v entry).trans (scattered full i v entry)

/-- Settles O25. -/
theorem stageRoundTrip : Obligations.stage_round_trip := fun _ hb =>
  ⟨fun _ ok => rotorApply_round_trip ok hb, fun _ ok => permutatorApply_round_trip ok hb⟩

/-! ### `ROT.UPDATE` -/

/-- Settles O55: the draws always go through (`rotorUpdate_spec`), and the rotor made of them is written to
the slots as the draws leave them. -/
theorem rotorUpdateCommand : Obligations.rotor_update := by
  intro slot s inv ha canDraw
  obtain ⟨r, pre, data, u, size, ok, atStart, data_length, bits, drawn, -, frame, run⟩ :=
    rotorUpdate_spec inv canDraw slot.toNat
  exact ⟨r, pre, data, u, size, ok, atStart, data_length, bits, drawn, frame,
    exec_ok ha (legalDraw_eq_none.mpr canDraw) (bind_of_ok run _)⟩

end Sys2Proof.Machine
end

section
/-! SUPPORT. The Permutator (spec/42_permutator.md). What the operations compute is in
Laws/Permutator.lean, and that a loaded slot is read is said with the Rotor; here the checks and the cycles
of `PRM.NEW`, the commands, and that seeking is stepping. A theorem that settles an obligation with the name
of a definition of the model has `Command`, or `MicroOperation`, after it. -/

namespace Sys2Proof.Machine

/-! ### `PRM.NEW` -/

/-- A table is a bijection when it has 256 entries and every byte among them (spec/10_state.md R29 (e)). -/
theorem isBijection_iff {t : List Byte} : isBijection t = true ↔ t.length = 256 ∧ ∀ v : Byte, v ∈ t :=
  ⟨fun h => ⟨isBijection_length h, isBijection_mem h⟩, fun ⟨hl, h⟩ => isBijection_of_mem hl h⟩

/-- The checks of `PRM.NEW` are the ranges of spec/42_permutator.md R171. -/
theorem permutatorParamsOk_iff {p : Params} {lengths : List Nat} {table : List Byte} :
    permutatorParamsOk p lengths table = true ↔
      lengths ≠ [] ∧ lengths.length ≤ p.ncycMax ∧ 0 ∉ lengths ∧ lengths.sum = 256 ∧
        table.length = 256 ∧ ∀ v : Byte, v ∈ table := by
  have nonzero : (∀ n ∈ lengths, n ≠ 0) ↔ 0 ∉ lengths :=
    ⟨fun h hmem => h 0 hmem rfl, fun h n hmem hn => h (hn ▸ hmem)⟩
  simp only [permutatorParamsOk, Bool.and_eq_true, decide_eq_true_eq, List.all_eq_true, bne_iff_ne,
    beq_iff_eq, isBijection_iff, nonzero, Nat.one_le_iff_ne_zero, ne_eq, List.length_eq_zero_iff,
    and_assoc]

theorem cyclesFrom_length (acc : Nat) (ns : List Nat) : (cyclesFrom acc ns).length = ns.length := by
  rw [← List.length_map (f := Cycle.length), cyclesFrom_lengths]

/-- Cycle `k` starts where the first `k` lengths end, has length `k` of the list, and stands at 0
(spec/42_permutator.md R171). -/
theorem cyclesFrom_getElem? {ns : List Nat} {c : Cycle} (acc k : Nat)
    (hc : (cyclesFrom acc ns)[k]? = some c) :
    c.start = acc + (ns.take k).sum ∧ ns[k]? = some c.length ∧ c.current = 0 := by
  induction ns generalizing acc k with
  | nil => simp [cyclesFrom] at hc
  | cons n ns ih =>
    cases k with
    | zero =>
      obtain rfl : { start := acc, length := n, current := 0 } = c := Option.some.inj hc
      exact ⟨rfl, rfl, rfl⟩
    | succ k =>
      obtain ⟨start, length, current⟩ := ih (acc + n) k hc
      exact ⟨by rw [start, List.take_succ_cons, List.sum_cons, Nat.add_assoc], length, current⟩

/-- Settles O27: the permutator is `permutatorBuild` of the port's lists, its cycles are those of
`cyclesFrom` from 0, and where the checks fail `permutatorNew_bad` raises before the slot is written. -/
theorem permutatorNewCommand : Obligations.permutator_new := by
  intro slot s ha hr lengths table ParametersOk
  have legal : legalOf (.prmNew slot) s = none := legalOutsideRunning_eq_none.mpr hr
  constructor
  case left =>
    intro inRange
    have ok : permutatorParamsOk s.params lengths table = true := permutatorParamsOk_iff.mpr inRange
    have cycles (k : Nat) (c : Cycle) (hc : (cyclesFrom 0 lengths)[k]? = some c) :
        c.start = (lengths.take k).sum ∧ lengths[k]? = some c.length ∧ c.current = 0 := by
      simpa only [Nat.zero_add] using cyclesFrom_getElem? 0 k hc
    exact ⟨permutatorBuild lengths table, rfl, rfl, rfl, (permutatorBuild_spec ok).2,
      cyclesFrom_length 0 lengths, cycles, exec_ok ha legal (bind_of_ok (permutatorNew_ok ok) _)⟩
  case right =>
    intro outOfRange
    have bad : permutatorParamsOk s.params lengths table = false :=
      Bool.eq_false_iff.mpr fun hok => outOfRange (permutatorParamsOk_iff.mp hok)
    rw [exec_raise ha legal (bind_of_raise (permutatorNew_bad bad) _), raiseException_configError]

/-! ### `PRM.APPLYF` and `PRM.APPLYI` -/

/-- A permutator command whose rule is a transform completes with the transform of the block at the port,
the permutator advanced, and writes nothing else but `STATUS` (spec/42_permutator.md R173 to R176). -/
theorem exec_permutatorApply {i : Instr} {d : Direction} {slot : BitVec 8} {s : State} {p : Permutator}
    (legal : legalOf i = legalOutsideRunning)
    (rule : ruleOf i s =
      (permutatorApplyAt d slot.toNat (operandA s) s).bind fun o s => .ok (returnBlock o) s)
    (ha : Admitted i s) (hr : s.fsm ≠ .running)
    (hslot : s.slots[slot.toNat]? = some (some (.permutator p))) (ok : PermutatorOk p) :
    ∃ out, PermutatorStep d p (operandA s) out (permutatorAdvance p) ∧
      exec i s = .next { s with
        slots := s.slots.set slot.toNat (some (.permutator (permutatorAdvance p))),
        status := 0, returned := returnBlock out } := by
  obtain ⟨out, applied, permutator_step⟩ := permutatorApply_step ok d (b := operandA s)
  have run := permutatorApplyAt_eq_ok.mpr ⟨p, hslot, applied, rfl⟩
  have legal_here : legalOf i s = none := legal ▸ legalOutsideRunning_eq_none.mpr hr
  exact ⟨out, permutator_step, exec_ok ha legal_here (rule.trans (bind_of_ok run _))⟩

/-- Settles O28: the forward case of `PermutatorStep`, at a block of `LEN` bytes. -/
theorem permutatorApplyForward : Obligations.permutator_apply_forward := by
  intro slot s p ha hr hslot ok
  obtain ⟨out, ⟨out_length, scattered, passed, advanced, rebuilt⟩, completes⟩ :=
    exec_permutatorApply (d := .forward) rfl rfl ha hr hslot ok
  rw [operandA_length] at out_length scattered passed
  exact ⟨out, permutatorAdvance p, out_length, scattered, passed, advanced, rebuilt, completes⟩

/-- Settles O29: the inverse case of `PermutatorStep`, at a block of `LEN` bytes. -/
theorem permutatorApplyInverse : Obligations.permutator_apply_inverse := by
  intro slot s p ha hr hslot ok
  obtain ⟨out, ⟨out_length, gathered, passed, advanced, rebuilt⟩, completes⟩ :=
    exec_permutatorApply (d := .inverse) rfl rfl ha hr hslot ok
  rw [operandA_length] at out_length gathered passed
  exact ⟨out, permutatorAdvance p, out_length, gathered, passed, advanced, rebuilt, completes⟩

/-! ### `PRM.SEEK` and `PRM.REBUILD` -/

/-- Settles O30: the rule reads the slot and writes `permutatorSeek` of it back. -/
theorem permutatorSeekCommand : Obligations.permutator_seek := fun _ s p ha hr hslot ok =>
  ⟨permutatorSeek s.port.idx p, rfl, (permutatorSeek_ok ok s.port.idx).rebuilt,
    exec_ok ha (legalOutsideRunning_eq_none.mpr hr) (bind_of_ok (orNoValue_permutatorAt hslot) _)⟩

/-- Settles O31: turning the cycles leaves them consecutive and of the same lengths, which is all a rebuild
asks of them. -/
theorem permutatorRebuildMicroOperation : Obligations.permutator_rebuild := by
  intro p offset ok q
  have consecutive : Consecutive 0 q.cycles := (consecutive_map offset).mpr ok.consecutive
  have sum : (q.cycles.map Cycle.length).sum = 256 := by rw [lengths_map]; exact ok.lengths_sum
  exact ⟨permutatorRebuild_rebuilt consecutive sum (isBijection_length ok.source) ok.table_length, rfl⟩

/-! ### Seek equals stepping -/

/-- Where a step takes each index to the next, a list of inputs takes an index on by its length. -/
theorem foldlM_step_from_index {α β : Type} {step : α → β → Option α} {at_index : Nat → α}
    (one_step : ∀ i b, step (at_index i) b = some (at_index (i + 1))) (inputs : List β) (i : Nat) :
    inputs.foldlM step (at_index i) = some (at_index (i + inputs.length)) := by
  induction inputs generalizing i with
  | nil => rfl
  | cons b inputs ih =>
    calc (b :: inputs).foldlM step (at_index i)
        = inputs.foldlM step (at_index (i + 1)) := by rw [List.foldlM_cons, one_step]; rfl
      _ = some (at_index (i + 1 + inputs.length)) := ih (i + 1)
      _ = some (at_index (i + (b :: inputs).length)) := by
          rw [List.length_cons, Nat.add_right_comm, Nat.add_assoc]

/-- From index `i`, a block of any length in either direction takes the permutator to index `i + 1`
(spec/42_permutator.md R173, R177). -/
theorem permutatorApply_permutatorSeek {p : Permutator} (ok : PermutatorOk p) (d : Direction) (i : Nat)
    (b : Block) :
    (permutatorApply d (permutatorSeek i p) b).map Prod.snd = some (permutatorSeek (i + 1) p) := by
  obtain ⟨out, applied, -⟩ := permutatorApply_spec (permutatorSeek_ok ok i) d (b := b)
  rw [applied, Option.map_some, permutatorAdvance_permutatorSeek ok]

/-- Settles O32: each block takes the index one further, from 0. -/
theorem permutatorSeekIsStepping : Obligations.permutator_seek_is_stepping := fun p d blocks ok _ => by
  rw [foldlM_step_from_index (at_index := (permutatorSeek · p)) (permutatorApply_permutatorSeek ok d)
    blocks 0, Nat.zero_add]

/-! ### `PRM.UPDATE` -/

/-- Settles O56: the draws always go through (`permutatorUpdate_spec`), and the permutator made of them is
written to the slots as the draws leave them. -/
theorem permutatorUpdateCommand : Obligations.permutator_update := by
  intro slot s inv ha canDraw
  obtain ⟨p, tuple, bs, u, next_tuple, reordered, ok, atZero, table, drawn, -, frame, run⟩ :=
    permutatorUpdate_spec inv canDraw slot.toNat
  exact ⟨p, tuple, bs, u, next_tuple, reordered, ok, atZero, table, drawn, frame,
    exec_ok ha (legalDraw_eq_none.mpr canDraw) (bind_of_ok run _)⟩

end Sys2Proof.Machine
end

section
/-! SUPPORT. The Counter and the lockstep of the stages (spec/43_counter_and_stage.md). That a seek aligns the
cascade and a passing block moves every stage one on is in Laws/Alignment.lean; here it is said of `CAS.SEEK`
and of the cascade as a function in the direction of the mode. -/

namespace Sys2Proof.Machine

/-! ### The Counter's commands -/

/-- The block at the port passes through the Counter, which counts it (spec/43_counter_and_stage.md R202,
R203). -/
theorem counterApply_returnBlock (s : State) :
    ((counterApply (operandA s) s).bind fun o s => .ok (returnBlock o) s) =
      .ok (returnBlock (operandA s)) { s with counter := s.counter + 1 } := rfl

/-- Settles O33, command by command: each rule goes straight to its end, with the Counter written or kept. -/
theorem counterCommands : Obligations.counter_commands := by
  intro slot s hr
  have legal : legalOutsideRunning s = none := legalOutsideRunning_eq_none.mpr hr
  refine ⟨?new, ?seek, ?update, ?applyf, ?applyi⟩
  case new => exact fun ha => exec_ok (t := counterSeek 0 s) ha legal rfl
  case seek => exact fun ha => exec_ok (t := counterSeek s.port.idx s) ha legal rfl
  case update => exact fun ha => exec_ok (t := s) ha legal rfl
  case applyf => exact fun ha => exec_ok ha legal (counterApply_returnBlock s)
  case applyi => exact fun ha => exec_ok ha legal (counterApply_returnBlock s)

/-- A command whose rule reports the Counter completes with the index, tracked, and writes nothing but
`STATUS`. -/
theorem exec_reportCounter {i : Instr} {s : State} (rule : ruleOf i = reportCounter) (ha : Admitted i s)
    (legal : legalOf i s = none) :
    exec i s = .next { s with status := 0, returned := .index true s.counter } :=
  exec_ok ha legal (congrFun rule s)

/-- Settles O34: `CTR.INDEX` and `CAS.INDEX` have the one rule, and differ in where they are legal
(spec/44_cascade.md R221). -/
theorem indexReportsCounter : Obligations.index_reports_counter := fun _ _ =>
  ⟨fun ha hr => exec_reportCounter rfl ha (legalOutsideRunning_eq_none.mpr hr),
    fun ha hl => exec_reportCounter rfl ha (legalIndex_eq_none.mpr hl)⟩

/-! ### Lockstep -/

/-- Where `CAS.SEEK` is legal the cascade is keyed, so every slot holds a stage (spec/44_cascade.md R221). -/
theorem loaded_of_legalSeek {s : State} (inv : Inv s) (hf : s.fatal = false) (legal : legalSeek s = none) :
    Loaded s := by
  refine inv.full hf fun unkeyed => ?_
  rcases legalSeek_eq_none.mp legal with keyed | ⟨running, -⟩
  · cases unkeyed.symm.trans keyed
  · cases unkeyed.symm.trans running

/-- Where it is legal, `CAS.SEEK` completes with every stage and the Counter at the index on the port
(spec/44_cascade.md R227). -/
theorem exec_casSeek {s : State} (inv : Inv s) (ha : Admitted .casSeek s) (legal : legalSeek s = none) :
    exec .casSeek s = .next (completeOk .nothing (soughtTo s.port.idx s)) :=
  have sought := (seekAll_spec (loaded_of_legalSeek inv ha.1 legal) s.port.idx).1
  exec_ok ha legal (bind_of_ok sought _)

/-- An admitted `CAS.SEEK` that completes was legal, and leaves the cascade aligned. -/
theorem casSeek_aligns {s t : State} (inv : Inv s) (ha : Admitted .casSeek s)
    (completes : exec .casSeek s = .next t) : Aligned s.port.idx t := by
  obtain ⟨-, ⟨illegal, -⟩ | ⟨-, legal, -⟩⟩ := exec_eq_next completes
  case inl => cases illegal.symm.trans ha.2
  case inr =>
    rw [exec_casSeek inv ha legal] at completes
    obtain rfl := Host.Outcome.next.inj completes
    exact aligned_soughtTo (loaded_of_legalSeek inv ha.1 legal) s.port.idx

/-- A block of up to 32 bytes passes an aligned cascade in either direction, keeps its length and leaves it
aligned one further. -/
theorem cipher_aligned {s : State} {i : Nat} {b : Block} (loaded : Loaded s) (aligned : Aligned i s)
    (hb : b.length ≤ 32) :
    ∃ o t, cipher b s = .ok o t ∧ o.length = b.length ∧ Aligned (i + 1) t := by
  obtain ⟨o, passed, o_length⟩ := cipher_spec loaded hb
  exact ⟨o, advanceAll (order s) s, passed, o_length, aligned_advanceAll loaded aligned⟩

/-- Settles O46: the seek by `casSeek_aligns`, the passing block by `cipher_aligned`. -/
theorem lockstep : Obligations.lockstep :=
  ⟨fun _ _ => casSeek_aligns,
    fun _ _ _ inv hf keyed aligned _ hb => cipher_aligned (inv.full hf keyed) aligned hb⟩

end Sys2Proof.Machine
end

section
/-! SUPPORT. The commands of the Cascade Engine but `CAS.INIT` and `CAS.INDEX` (spec/44_cascade.md R224 to
R231). What the pipeline does while a command waits is in Laws/Workers.lean; here each command is its
legality (R221) and its rule's end under `exec_ok`. -/

namespace Sys2Proof.Machine

/-! ### `CAS.LOAD` and `CAS.SEEK` -/

/-- Slots that hold stages of the layout's kinds are loaded (spec/44_cascade.md R224). -/
theorem everySlotLoaded_of_stages {s : State} {stages : List Stage} (slots : s.slots = stages.map some)
    (kinds : stages.map stageKind = s.params.layout) : everySlotLoaded s = true := by
  rw [everySlotLoaded, beq_iff_eq, slots, ← kinds, List.map_map, List.map_map]
  rfl

/-- `maximal_states` of slots that all hold a stage is the product of the stages' counts
(spec/44_cascade.md R224). -/
theorem cascadeMax_of_stages {s : State} {stages : List Stage} (slots : s.slots = stages.map some) :
    cascadeMax s = (stages.map stageMax).prod := by
  rw [cascadeMax, slots, List.map_map]
  rfl

/-- The rule of `CAS.LOAD` on slots that all hold a stage: the seek to 0 goes through
(spec/44_cascade.md R224). -/
theorem loadCascade_some {s : State} {stages : List Stage} (slots : s.slots = stages.map some) :
    loadCascade s = .ok () { s with
      slots := stages.map fun st => some (stageSeek 0 st)
      counter := 0
      maximalStates := some (stages.map stageMax).prod
      fsm := .keyed } := by
  rw [← cascadeMax_of_stages slots]
  exact bind_of_ok (seekAll_some (s := { s with maximalStates := some (cascadeMax s) }) slots 0) _

/-- Settles O35, by `loadCascade_some`. -/
theorem cascadeLoad : Obligations.cascade_load := fun _ _ ha hr slots kinds =>
  exec_ok ha (legalLoad_eq_none.mpr ⟨hr, everySlotLoaded_of_stages slots kinds⟩)
    (bind_of_ok (loadCascade_some slots) _)

/-- Settles O38. -/
theorem cascadeSeek : Obligations.cascade_seek := fun s _ ha legal slots =>
  exec_ok ha (legalSeek_eq_none.mpr legal) (bind_of_ok (seekAll_some slots s.port.idx) _)

/-! ### `CAS.SETMODE` and `CAS.BUILD` -/

/-- A mode code that is recognized is set (spec/44_cascade.md R225). -/
theorem setMode_recognized {code : BitVec 8} {m : Mode} (h : modeOfCode code = some m) (s : State) :
    setMode code s = .ok .nothing { s with mode := m } := by
  rw [setMode, h]

/-- A mode code that is not recognized is `ConfigError` (spec/30_encoding.md R99). -/
theorem setMode_unrecognized {code : BitVec 8} (h : modeOfCode code = none) (s : State) :
    setMode code s = .raise .configError s := by
  rw [setMode, h]

/-- Settles O36, by the mode code. -/
theorem cascadeSetmode : Obligations.cascade_setmode := by
  intro code s ha keyedOrClosed
  have legal : legalOf (.casSetmode code) s = none := legalKeyedOrClosed_eq_none.mpr keyedOrClosed
  refine ⟨?encrypt, ?decrypt, ?unrecognized⟩
  case encrypt => rintro rfl; exact exec_ok ha legal (setMode_recognized (code := 0) rfl s)
  case decrypt => rintro rfl; exact exec_ok ha legal (setMode_recognized (code := 1) rfl s)
  case unrecognized =>
    intro code_eq
    have unknown : modeOfCode code = none := by rcases code_eq with rfl | rfl <;> rfl
    rw [exec_raise ha legal (setMode_unrecognized unknown s), raiseException_configError]

/-- Settles O37: the rule is `buildPipeline`, which keeps slots and Counter. -/
theorem cascadeBuild : Obligations.cascade_build := fun s ha keyedOrClosed mode_set =>
  exec_ok (t := buildPipeline s) ha (legalBuild_eq_none.mpr ⟨keyedOrClosed, mode_set⟩) rfl

/-! ### `CAS.CLOSE`, `CAS.PUSH` and `CAS.PULL` -/

/-- Settles O39: the sentinel meets no block and passes every worker (`closePipeline_spec`). -/
theorem cascadeClose : Obligations.cascade_close := fun _ inv ha running idle =>
  exec_ok ha (legalClose_eq_none.mpr ⟨running, idle⟩)
    (bind_of_ok (closePipeline_spec (inv.live running) idle) _)

/-- Settles O40: the workers make room (`pushBlock_spec`), and their steps keep the number in flight. -/
theorem cascadePush : Obligations.cascade_push := by
  intro s inv ha running free
  have live := inv.live running
  obtain ⟨u, steps, room, pushed⟩ := pushBlock_spec live free (operandA s)
  refine ⟨u, steps, steps.frame live, room, ?completes⟩
  case completes =>
    rw [← steps.inflight live]
    exact exec_ok ha (legalRunning_eq_none.mpr running) (bind_of_ok pushed _)

/-- Settles O41: the workers bring a block to the output endpoint (`pullBlock_spec`), and their steps keep
the number in flight and the layout. -/
theorem cascadePull : Obligations.cascade_pull := by
  intro s inv ha running inFlight
  have live := inv.live running
  obtain ⟨u, b, steps, block, pulled⟩ := pullBlock_spec live inFlight
  have slots_eq : u.params.layout.length = s.params.layout.length := steps.numSlots_eq live
  refine ⟨u, b, steps, steps.frame live, block, ?completes⟩
  case completes =>
    rw [← steps.inflight live, ← slots_eq]
    exact exec_ok ha (legalRunning_eq_none.mpr running) (bind_of_ok pulled _)

end Sys2Proof.Machine
end

section
/-! SUPPORT. The laws of the cascade as a function: the round trip (spec/44_cascade.md R234), the seeking
equivalence (R235) and the period (R236). A block that passes moves every stage one on whatever the block is
(`cipher_spec`), so each law is about the outputs only. The round trip undoes the stages in the reverse order
of the one they were met in; a stage further on does not see that an earlier one has moved. -/

namespace Sys2Proof.Machine

/-! ### A list of blocks -/

/-- A list of blocks passes when its first block does and then the rest (spec/44_cascade.md R233). -/
theorem cipherAll_cons {b o : Block} {bs os : List Block} {s s' t : State} (first : cipher b s = .ok o s')
    (rest : cipherAll bs s' = .ok os t) : cipherAll (b :: bs) s = .ok (o :: os) t := by
  rw [cipherAll, first, bind_ok, rest, bind_ok]

/-- What a list of blocks did, its first block and then the rest did. -/
theorem cipherAll_cons_eq_ok {b : Block} {bs outs : List Block} {s t : State}
    (h : cipherAll (b :: bs) s = .ok outs t) :
    ∃ o os s', outs = o :: os ∧ cipher b s = .ok o s' ∧ cipherAll bs s' = .ok os t := by
  obtain ⟨o, s', first, h⟩ := bind_eq_ok.mp h
  obtain ⟨os, t', rest, h⟩ := bind_eq_ok.mp h
  obtain ⟨rfl, rfl⟩ := Res.ok.inj h
  exact ⟨o, os, s', rfl, first, rest⟩

@[simp] theorem advanceAll_mode (ns : List Nat) (s : State) : (advanceAll ns s).mode = s.mode := by
  rw [advanceAll_onPipeline]

/-! ### Round trip -/

theorem throughStages_append (d : Direction) (ns ms : List Nat) (b : Block) (s : State) :
    throughStages d (ns ++ ms) b s = (throughStages d ns b s).bind (throughStages d ms) := by
  induction ns generalizing b s with
  | nil => rfl
  | cons n ns ih =>
    rw [List.cons_append, throughStages, throughStages]
    cases stageApply d n b s with
    | ok o t => exact ih o t
    | raise x t => rfl
    | refuse r => rfl
    | stuck f => rfl

/-- A stage that has not moved gives back the block it made (spec/43_counter_and_stage.md R203,
spec/41_rotor.md R149, spec/42_permutator.md R181). -/
theorem stageOut_round_trip {s : State} (loaded : Loaded s) {n : Nat} (hn : n ≤ numSlots s) {b o : Block}
    (hb : b.length ≤ 32) (made : stageOut .forward n b s.params s.slots = some o) :
    stageOut .inverse n o s.params s.slots = some b := by
  by_cases counter : n = s.params.nSlots
  · rw [stageOut, if_pos counter] at made ⊢
    exact made.symm
  · have slot : n < s.params.layout.length := lt_of_le_of_ne hn counter
    obtain ⟨st, held, kind, ok⟩ := loaded.full n _ (List.getElem?_eq_getElem slot)
    rw [stageOut, if_neg counter, List.getElem?_eq_getElem slot, ← kind, held] at made ⊢
    cases st with
    | rotor r =>
      obtain ⟨c, r', forward, inverse⟩ := rotorApply_round_trip ok.1 hb
      simp only [stageKind, forward, Option.map_some, Option.some.injEq] at made
      simp [stageKind, ← made, inverse]
    | permutator p =>
      obtain ⟨c, p', forward, inverse⟩ := permutatorApply_round_trip ok.1 hb
      simp only [stageKind, forward, Option.map_some, Option.some.injEq] at made
      simp [stageKind, ← made, inverse]

/-- What a stage of a loaded cascade makes is as long as the block. -/
theorem stageOut_length {s : State} (loaded : Loaded s) {d : Direction} {n : Nat} (hn : n ≤ numSlots s)
    {b o : Block} (hb : b.length ≤ 32) (made : stageOut d n b s.params s.slots = some o) :
    o.length = b.length := by
  obtain ⟨o', made', o_length⟩ := stageOut_spec loaded d hn hb
  obtain rfl : o' = o := Option.some.inj (made'.symm.trans made)
  exact o_length

/-- What a run through stages of a loaded cascade makes is as long as the block. -/
theorem throughStages_length {s t : State} (loaded : Loaded s) {d : Direction} {ns : List Nat}
    (hn : ∀ n ∈ ns, n ≤ numSlots s) {b o : Block} (hb : b.length ≤ 32)
    (made : throughStages d ns b s = .ok o t) : o.length = b.length := by
  obtain ⟨o', made', o_length⟩ := throughStages_spec loaded d hn hb
  obtain rfl : o' = o := (Res.ok.inj (made'.symm.trans made)).1
  exact o_length

/-- What stages make after another one has moved on they make before it has. -/
theorem throughStages_unmoved {s t : State} (loaded : Loaded s) {d : Direction} {n : Nat} {ns : List Nat}
    (fresh : n ∉ ns) (hn : ∀ m ∈ ns, m ≤ numSlots s) {b o : Block} (hb : b.length ≤ 32)
    (made : throughStages d ns b (advanceAt n s) = .ok o t) :
    throughStages d ns b s = .ok o (advanceAll ns s) := by
  obtain ⟨o', run, -⟩ := throughStages_spec loaded d hn hb
  obtain rfl : o' = o := (Res.ok.inj ((throughStages_advanceAt fresh run).symm.trans made)).1
  exact run

/-- Different stages, met in one order forward and in the other order back from the same positions, give the
block back. -/
theorem throughStages_round_trip {s t : State} (loaded : Loaded s) {ns : List Nat} (distinct : ns.Nodup)
    (hn : ∀ n ∈ ns, n ≤ numSlots s) {b o : Block} (hb : b.length ≤ 32)
    (made : throughStages .forward ns b s = .ok o t) :
    throughStages .inverse ns.reverse o s = .ok b (advanceAll ns.reverse s) := by
  induction ns generalizing b s with
  | nil => obtain ⟨rfl, rfl⟩ := Res.ok.inj made; rfl
  | cons n ns ih =>
    obtain ⟨fresh, distinct⟩ := List.nodup_cons.mp distinct
    obtain ⟨n_le, ns_le⟩ := List.forall_mem_cons.mp hn
    obtain ⟨c, s', first, rest⟩ := bind_eq_ok.mp made
    obtain ⟨out, rfl⟩ := stageApply_eq_ok.mp first
    have moved : Loaded (advanceAt n s) := advanceAt_loaded loaded n
    have ns_le_moved : ∀ m ∈ ns, m ≤ numSlots (advanceAt n s) := by simpa using ns_le
    have hc : c.length ≤ 32 := (stageOut_length loaded n_le hb out).trans_le hb
    have ho : o.length ≤ 32 := (throughStages_length moved ns_le_moved hc rest).trans_le hc
    have fresh_back : n ∉ ns.reverse := mt List.mem_reverse.mp fresh
    have back : throughStages .inverse ns.reverse o s = .ok c (advanceAll ns.reverse s) :=
      throughStages_unmoved loaded fresh_back (fun m hm => ns_le m (List.mem_reverse.mp hm)) ho
        (ih moved distinct ns_le_moved hc rest)
    have out_back : stageOut .inverse n c (advanceAll ns.reverse s).params (advanceAll ns.reverse s).slots =
        some b := by
      have unmoved := stageOut_round_trip loaded n_le hb out
      rw [stageOut] at unmoved ⊢
      rwa [advanceAll_params, advanceAll_slot_ne fresh_back]
    calc throughStages .inverse (n :: ns).reverse o s
        = (throughStages .inverse ns.reverse o s).bind (throughStages .inverse [n]) := by
          rw [List.reverse_cons, throughStages_append]
      _ = .ok b (advanceAt n (advanceAll ns.reverse s)) := by
          rw [back, bind_ok, throughStages, stageApply_eq_ok.mpr ⟨out_back, rfl⟩]; rfl
      _ = .ok b (advanceAll (n :: ns).reverse s) := by
          rw [List.reverse_cons, advanceAll, advanceAll, List.foldl_append]; rfl

/-- Two cascades with the same parameters, in the same positions. -/
structure SameStages (a b : State) : Prop where
  params : a.params = b.params
  slots : a.slots = b.slots
  counter : a.counter = b.counter

/-- A block that passes each of two cascades, in whatever order of the stages, leaves the positions the
same. -/
theorem SameStages.advanceAll_order {a b : State} (same : SameStages a b) (loaded_a : Loaded a)
    (loaded_b : Loaded b) : SameStages (advanceAll (order a) a) (advanceAll (order b) b) := by
  obtain ⟨slots_a, counter_a⟩ := Machine.advanceAll_order loaded_a
  obtain ⟨slots_b, counter_b⟩ := Machine.advanceAll_order loaded_b
  exact ⟨by simp [same.params], by rw [slots_a, slots_b, same.slots],
    by rw [counter_a, counter_b, same.counter]⟩

/-- What is done to the slots is done to the stages they hold. -/
theorem map_slots_congr {slots : List (Option Stage)} {f g : Stage → Stage}
    (h : ∀ st, some st ∈ slots → f st = g st) : slots.map (Option.map f) = slots.map (Option.map g) := by
  refine List.map_congr_left fun q hq => ?_
  cases q with
  | none => rfl
  | some st => exact congrArg some (h st hq)

/-- A seek to where an aligned cascade is changes no slot (spec/43_counter_and_stage.md R207). -/
theorem Aligned.map_slots {s : State} {i : Nat} (aligned : Aligned i s) :
    s.slots.map (Option.map (stageSeek i)) = s.slots := by
  rw [map_slots_congr (g := id) fun st held => (aligned.2 st held).symm, Option.map_id, List.map_id]

/-- Aligned at one index, cascades with the same stage parameters are in the same positions
(spec/43_counter_and_stage.md R207). -/
theorem SameStages.of_aligned {a b : State} {i : Nat} (loaded_a : Loaded a) (loaded_b : Loaded b)
    (params : a.params = b.params)
    (stages : a.slots.map (Option.map (stageSeek 0)) = b.slots.map (Option.map (stageSeek 0)))
    (aligned_a : Aligned i a) (aligned_b : Aligned i b) : SameStages a b := by
  have resought {s : State} (loaded : Loaded s) (aligned : Aligned i s) :
      (s.slots.map (Option.map (stageSeek 0))).map (Option.map (stageSeek i)) = s.slots := by
    rw [List.map_map, Option.map_comp_map]
    exact (map_slots_congr fun st held => stageSeek_stageSeek (loaded.slots_sound.2.1 st held) i 0).trans
      aligned.map_slots
  exact ⟨params, by rw [← resought loaded_a aligned_a, stages, resought loaded_b aligned_b],
    aligned_a.1.trans aligned_b.1.symm⟩

/-- One block: what a cascade encrypts, a cascade in the same positions decrypts
(spec/44_cascade.md R222, R223). -/
theorem cipher_round_trip {a b a' : State} (same : SameStages a b) (loaded_b : Loaded b)
    (encrypts : a.mode = .encrypt) (decrypts : b.mode = .decrypt) {x y : Block} (hx : x.length ≤ 32)
    (made : cipher x a = .ok y a') : cipher y b = .ok x (advanceAll (order b) b) := by
  have not_encrypt : b.mode ≠ .encrypt := by rw [decrypts]; nofun
  have n_slots : numSlots a = numSlots b := congrArg Params.nSlots same.params
  have positions : withStages b a = b := by rw [withStages, same.slots, same.counter]
  rw [cipher_eq, order_encrypt encrypts, n_slots, modeDirection, if_pos encrypts] at made
  have made_b := throughStages_withStages same.params.symm made
  rw [positions] at made_b
  rw [cipher_eq, order_decrypt not_encrypt, modeDirection, if_neg not_encrypt]
  exact throughStages_round_trip loaded_b List.nodup_range
    (fun n hn => Nat.le_of_lt_succ (List.mem_range.mp hn)) hx made_b

/-- A list of blocks: what a cascade encrypts, a cascade in the same positions decrypts. -/
theorem cipherAll_round_trip {a b : State} {i : Nat} (loaded_a : Loaded a) (loaded_b : Loaded b)
    (same : SameStages a b) (encrypts : a.mode = .encrypt) (decrypts : b.mode = .decrypt)
    (aligned_a : Aligned i a) (aligned_b : Aligned i b) {xs : List Block} (hxs : ∀ x ∈ xs, x.length ≤ 32) :
    ∃ (ys : List Block) (a' b' : State), cipherAll xs a = .ok ys a' ∧ cipherAll ys b = .ok xs b' ∧
      Aligned (i + xs.length) a' ∧ Aligned (i + xs.length) b' := by
  induction xs generalizing a b i with
  | nil => exact ⟨[], a, b, rfl, rfl, aligned_a, aligned_b⟩
  | cons x xs ih =>
    obtain ⟨hx, hxs⟩ := List.forall_mem_cons.mp hxs
    obtain ⟨y, encrypted, -⟩ := cipher_spec loaded_a hx
    have decrypted := cipher_round_trip same loaded_b encrypts decrypts hx encrypted
    obtain ⟨ys, a', b', encrypted_rest, decrypted_rest, aligned_a', aligned_b'⟩ :=
      ih (advanceAll_loaded loaded_a _) (advanceAll_loaded loaded_b _)
        (same.advanceAll_order loaded_a loaded_b) (by rwa [advanceAll_mode]) (by rwa [advanceAll_mode])
        (aligned_advanceAll loaded_a aligned_a) (aligned_advanceAll loaded_b aligned_b) hxs
    have index : i + (x :: xs).length = i + 1 + xs.length := by rw [List.length_cons]; omega
    rw [index]
    exact ⟨y :: ys, a', b', cipherAll_cons encrypted encrypted_rest,
      cipherAll_cons decrypted decrypted_rest, aligned_a', aligned_b'⟩

/-- Settles O47: the two cascades are in the same positions (`SameStages.of_aligned`). -/
theorem cascadeRoundTrip : Obligations.cascade_round_trip := by
  intro a b i xs inv_a inv_b clear_a clear_b keyed_a keyed_b params stages aligned_a aligned_b encrypts
    decrypts hxs
  have loaded_a := inv_a.full clear_a keyed_a
  have loaded_b := inv_b.full clear_b keyed_b
  exact cipherAll_round_trip loaded_a loaded_b
    (.of_aligned loaded_a loaded_b params stages aligned_a aligned_b) encrypts decrypts aligned_a aligned_b
    fun x hx => (hxs x hx).2

/-! ### Seeking equivalence -/

/-- Where the stages stand is nothing to a seek: after a block has passed, a cascade seeks to the same place
(spec/44_cascade.md R227). -/
theorem soughtTo_advanceAll {s : State} {i : Nat} (loaded : Loaded s) (aligned : Aligned i s) (k : Nat) :
    soughtTo k (advanceAll (order s) s) = soughtTo k s := by
  have slots : (advanceAll (order s) s).slots.map (Option.map (stageSeek k)) =
      s.slots.map (Option.map (stageSeek k)) := by
    rw [(advanceAll_order loaded).1, List.map_map, Option.map_comp_map]
    refine map_slots_congr fun st held => ?_
    have ok := loaded.slots_sound.2.1 st held
    calc stageSeek k (stageAdvance st)
        = stageSeek k (stageAdvance (stageSeek i st)) := by rw [← aligned.2 st held]
      _ = stageSeek k (stageSeek (i + 1) st) := by rw [stageAdvance_stageSeek ok]
      _ = stageSeek k st := stageSeek_stageSeek ok k (i + 1)
  rw [soughtTo, slots, advanceAll_onPipeline, soughtTo]

/-- A cascade aligned at `i` is where a seek to `i` takes it (spec/43_counter_and_stage.md R207). -/
theorem soughtTo_of_aligned {s : State} {i : Nat} (aligned : Aligned i s) : soughtTo i s = s := by
  rw [soughtTo, aligned.map_slots, ← aligned.1]

/-- Block `k` of a list that passes a cascade aligned at `i` is what the cascade makes of it once sought to
`i + k`. -/
theorem cipherAll_getElem? {s t : State} {i : Nat} (loaded : Loaded s) (aligned : Aligned i s)
    {xs ys : List Block} (hxs : ∀ x ∈ xs, x.length ≤ 32) (passed : cipherAll xs s = .ok ys t) {k : Nat}
    {x : Block} (hx : xs[k]? = some x) :
    ∃ y v, cipher x (soughtTo (i + k) s) = .ok y v ∧ ys[k]? = some y := by
  induction xs generalizing s i ys k with
  | nil => cases hx
  | cons b xs ih =>
    obtain ⟨hb, hxs⟩ := List.forall_mem_cons.mp hxs
    obtain ⟨o, os, s', rfl, first, rest⟩ := cipherAll_cons_eq_ok passed
    cases k with
    | zero =>
      obtain rfl : b = x := Option.some.inj hx
      exact ⟨o, s', by rwa [Nat.add_zero, soughtTo_of_aligned aligned], rfl⟩
    | succ k =>
      obtain ⟨o', moved, -⟩ := cipher_spec loaded hb
      obtain ⟨rfl, rfl⟩ := Res.ok.inj (moved.symm.trans first)
      have at_k := ih (advanceAll_loaded loaded _) (aligned_advanceAll loaded aligned) hxs rest hx
      rwa [soughtTo_advanceAll loaded aligned, Nat.add_right_comm, Nat.add_assoc] at at_k

/-- Settles O48: `cipherAll_getElem?` from index 0. -/
theorem seekingEquivalence : Obligations.seeking_equivalence := by
  intro s t u xs ys k x inv clear keyed _ aligned hxs passed hx sought
  have loaded := inv.full clear keyed
  obtain ⟨-, rfl⟩ := Res.ok.inj ((seekAll_spec loaded k).1.symm.trans sought)
  have at_k := cipherAll_getElem? loaded aligned (fun x hx => (hxs x hx).2) passed hx
  rwa [Nat.zero_add] at at_k

/-! ### Period -/

/-- A stage is the same any multiple of its count of states further (spec/41_rotor.md R146,
spec/42_permutator.md R177). -/
theorem stageSeek_add {st : Stage} {m : Nat} (multiple : stageMax st ∣ m) (i : Nat) :
    stageSeek (i + m) st = stageSeek i st := by
  obtain ⟨k, rfl⟩ := multiple
  cases st with
  | rotor r =>
    have turns : (i + r.size * k) * r.step + r.start = i * r.step + r.start + r.size * (k * r.step) := by
      ring
    simp only [stageSeek, stageMax, rotorSeek, turns, Nat.add_mul_mod_self_left]
  | permutator p => simp only [stageSeek, stageMax, permutatorSeek, Nat.add_mul_mod_self_left]

/-- `maximal_states` is a multiple of every stage's count (spec/44_cascade.md R224). -/
theorem stageMax_dvd_cascadeMax {s : State} {st : Stage} (held : some st ∈ s.slots) :
    stageMax st ∣ cascadeMax s :=
  List.dvd_prod (List.mem_map.mpr ⟨some st, held, rfl⟩)

/-- `maximal_states` indices further every stage is where it was (spec/44_cascade.md R236). -/
theorem soughtTo_add_cascadeMax (i : Nat) (s : State) :
    soughtTo (i + cascadeMax s) s = { soughtTo i s with counter := i + cascadeMax s } := by
  rw [soughtTo, map_slots_congr fun st held => stageSeek_add (stageMax_dvd_cascadeMax held) i, soughtTo]

/-- The Counter counts and is otherwise not seen: with another Counter a run through stages makes the same
block and leaves the same slots (spec/43_counter_and_stage.md R202, R203). -/
theorem throughStages_counter {d : Direction} {ns : List Nat} {b o : Block} {s t : State}
    (h : throughStages d ns b s = .ok o t) (c : Nat) :
    ∃ t', throughStages d ns b { s with counter := c } = .ok o t' ∧ t'.slots = t.slots := by
  induction ns generalizing b s c with
  | nil => obtain ⟨rfl, rfl⟩ := Res.ok.inj h; exact ⟨_, rfl, rfl⟩
  | cons n ns ih =>
    obtain ⟨b1, s1, first, rest⟩ := bind_eq_ok.mp h
    obtain ⟨out, rfl⟩ := stageApply_eq_ok.mp first
    have first_c : stageApply d n b { s with counter := c } = _ := stageApply_eq_ok.mpr ⟨out, rfl⟩
    have moved : advanceAt n { s with counter := c } =
        { advanceAt n s with counter := (advanceAt n { s with counter := c }).counter } := by
      unfold advanceAt numSlots; split <;> rfl
    rw [moved] at first_c
    obtain ⟨t', run, slots⟩ := ih rest (advanceAt n { s with counter := c }).counter
    exact ⟨t', bind_eq_ok.mpr ⟨b1, _, first_c, run⟩, slots⟩

/-- Settles O49: the seeks are `soughtTo`, and a cascade makes the same of a block whatever its Counter. -/
theorem cascadePeriod : Obligations.cascade_period := by
  intro s u v i inv clear keyed sought further
  have loaded := inv.full clear keyed
  obtain ⟨-, rfl⟩ := Res.ok.inj ((seekAll_spec loaded i).1.symm.trans sought)
  obtain ⟨-, rfl⟩ := Res.ok.inj ((seekAll_spec loaded (i + cascadeMax s)).1.symm.trans further)
  refine ⟨soughtTo_add_cascadeMax i s, fun b o w passed => ?_⟩
  rw [cipher_eq] at passed
  rw [soughtTo_add_cascadeMax, cipher_eq]
  exact throughStages_counter passed (i + cascadeMax s)

end Sys2Proof.Machine
end

section
/-! SUPPORT. Pipeline equals composition (spec/44_cascade.md R233). What no schedule of the workers changes is
in Laws/Composition.lean (`Flush`); here a run of pushes, pulls and worker turns is held, move by move, against
the cascade as a function of the blocks pushed so far. -/

namespace Sys2Proof.Machine

/-! ### The blocks in flight -/

/-- A drain gives one block for every block in the queues. -/
theorem drain_length {d : Direction} {qs : List (Option Block)} {ns : List Nat} {os : List Block}
    {s t : State} (h : drain d qs ns s = .ok os t) : os.length = qs.countP Option.isSome := by
  induction qs generalizing ns os s t with
  | nil => obtain ⟨rfl, -⟩ := Res.ok.inj h; rfl
  | cons q qs ih =>
    cases q with
    | none => simpa using ih h
    | some b =>
      obtain ⟨os1, s1, behind, h⟩ := bind_eq_ok.mp h
      obtain ⟨o, s2, -, h⟩ := bind_eq_ok.mp h
      obtain ⟨rfl, -⟩ := Res.ok.inj h
      simp [ih behind]

theorem Flush.length_eq {s : State} (live : Live s) {os : List Block} {slots : List (Option Stage)}
    {counter : Nat} (h : Flush s os slots counter) : os.length = s.inflight := by
  obtain ⟨t, drained, -, -⟩ := h
  rw [drain_length drained, live.pipe.inflight_counts]

/-- What will come out depends on the parameters, the mode, the stages and the queues only. -/
theorem Flush.of_same {s s' : State} {os : List Block} {sl : List (Option Stage)} {c : Nat}
    (h : Flush s os sl c) (params : s'.params = s.params) (mode : s'.mode = s.mode)
    (slots : s'.slots = s.slots) (counter : s'.counter = s.counter) (queues : s'.queues = s.queues) :
    Flush s' os sl c := by
  obtain ⟨t, drained, at_slots, at_counter⟩ := h
  have drained' := drain_withStages params drained
  have positions : withStages s' s = s' := by rw [withStages, ← slots, ← counter]
  have order_eq : order s' = order s := by
    have stage_of : stageOf s' = stageOf s := by funext j; rw [stageOf, stageOf, mode, numSlots, params]; rfl
    rw [order, order, stage_of, numSlots, params, numSlots]
  rw [positions] at drained'
  exact ⟨withStages s' t, by rw [mode, queues, order_eq, drained'], at_slots, at_counter⟩

/-! ### A run against the cascade as a function -/

/-- The cascade as a function of the blocks pushed so far has come to `g`, and has made `waiting` of those
that are still in flight in `s`. -/
structure Pending (s : State) (waiting : List Block) (g : State) : Prop where
  inv : Inv s
  running : s.fsm = .running
  params : g.params = s.params
  mode : g.mode = s.mode
  loaded : Loaded g
  flush : Flush s waiting g.slots g.counter

theorem Pending.live {s g : State} {waiting : List Block} (h : Pending s waiting g) : Live s :=
  h.inv.live h.running

theorem Pending.clear {s g : State} {waiting : List Block} (h : Pending s waiting g) : s.fatal = false :=
  Bool.eq_false_iff.mpr fun fatal => h.inv.fatal_idle fatal h.running

/-- With nothing in flight the cascade as a function is where the cascade is. -/
theorem pending_idle {s : State} (inv : Inv s) (running : s.fsm = .running) (idle : s.inflight = 0) :
    Pending s [] s :=
  ⟨inv, running, rfl, rfl, (inv.live running).loaded, flush_idle (inv.live running) idle⟩

/-- Operands put on the ports change nothing of it. -/
theorem Pending.port {s g : State} {waiting : List Block} (h : Pending s waiting g) (port : Command) :
    Pending { s with port := port } waiting g :=
  ⟨h.inv.withHost port s.inProgress s.commands s.agenda, h.running, h.params, h.mode, h.loaded,
    h.flush.of_same rfl rfl rfl rfl rfl⟩

/-- A rule that waits for what cannot come is stuck there. -/
theorem bind_of_stuck {α β : Type} {m : Res α} {f : Fault} (h : m = .stuck f) (k : α → State → Res β) :
    m.bind k = .stuck f := by rw [h, bind_stuck]

/-- A push adds what the cascade as a function makes of its block, behind the blocks in flight
(spec/44_cascade.md R230). -/
theorem Pending.push {s g t : State} {waiting : List Block} (h : Pending s waiting g)
    (ha : Admitted .casPush s) (completes : exec .casPush s = .next t) :
    ∃ o g', cipher (operandA s) g = .ok o g' ∧ Pending t (waiting ++ [o]) g' := by
  have legal : legalOf .casPush s = none := legalRunning_eq_none.mpr h.running
  have short : (operandA s).length ≤ 32 := (operandA_length s).trans_le (len_stage ha rfl).2
  have inv_t := exec_keeps_inv h.inv completes
  have room : s.inflight ≤ numSlots s + 1 := by
    by_contra full
    have stuck := pushBlock_full h.live
      (Nat.le_antisymm (inflight_le h.inv h.running) (Nat.lt_of_not_le full)) (operandA s)
    have faults := exec_eq_fault.mpr ⟨ha, legal, bind_of_stuck stuck _⟩
    cases faults.symm.trans completes
  obtain ⟨u, steps, empty, pushed⟩ := pushBlock_spec h.live room (operandA s)
  obtain rfl := Host.Outcome.next.inj ((exec_ok ha legal (bind_of_ok pushed _)).symm.trans completes)
  have frame := steps.frame h.live
  obtain ⟨o, made, -⟩ := cipher_spec h.loaded short
  have params : g.params = u.params := by rw [frame]; exact h.params
  have mode : g.mode = u.mode := by rw [frame]; exact h.mode
  have flush := flush_pushed empty (flush_workers h.live steps h.flush) made params mode rfl rfl rfl rfl
  exact ⟨o, _, made, inv_t, by rw [frame]; exact h.running, by rw [advanceAll_params]; exact params,
    by rw [advanceAll_mode]; exact mode, advanceAll_loaded h.loaded _, flush.of_same rfl rfl rfl rfl rfl⟩

/-- A pull returns the first of the blocks in flight, as the cascade as a function made it
(spec/44_cascade.md R231). -/
theorem Pending.pull {s g t : State} {waiting : List Block} (h : Pending s waiting g)
    (completes : exec .casPull s = .next t) :
    ∃ b rest, waiting = b :: rest ∧ t.returned = returnBlock b ∧ Pending t rest g := by
  have ha : Admitted .casPull s := ⟨h.clear, rfl⟩
  have legal : legalOf .casPull s = none := legalRunning_eq_none.mpr h.running
  have inv_t := exec_keeps_inv h.inv completes
  have inFlight : s.inflight ≠ 0 := by
    intro idle
    have stuck : pullBlock s = .stuck .stuckPull := by rw [pullBlock, if_pos idle]
    have faults := exec_eq_fault.mpr ⟨ha, legal, bind_of_stuck stuck _⟩
    cases faults.symm.trans completes
  obtain ⟨u, b, steps, block, pulled⟩ := pullBlock_spec h.live inFlight
  obtain rfl := Host.Outcome.next.inj ((exec_ok ha legal (bind_of_ok pulled _)).symm.trans completes)
  have frame := steps.frame h.live
  rw [← steps.numSlots_eq h.live] at block
  obtain ⟨rest, first, flush⟩ := flush_pulled (steps.live h.live) block (flush_workers h.live steps h.flush)
  exact ⟨b, rest, first, rfl, inv_t, by rw [frame]; exact h.running, by rw [frame]; exact h.params,
    by rw [frame]; exact h.mode, h.loaded, flush.of_same rfl rfl rfl rfl rfl⟩

/-- A worker's turn changes nothing of it (spec/44_cascade.md R232). -/
theorem Pending.worker {s g t : State} {waiting : List Block} (h : Pending s waiting g) {j : Nat}
    (turn : workerTurn j s = .next t) : Pending t waiting g := by
  rcases workerTurn_eq_next h.inv turn with rfl | ⟨-, enabled, moves⟩
  · exact h
  · have steps : Workers s t := .step enabled moves (.refl t)
    have frame := steps.frame h.live
    exact ⟨workerTurn_keeps_inv h.inv turn, by rw [frame]; exact h.running, by rw [frame]; exact h.params,
      by rw [frame]; exact h.mode, h.loaded, flush_worker h.live enabled moves h.flush⟩

/-- A list of blocks after another passes from where the other leaves the cascade. -/
theorem cipherAll_append {as bs os os' : List Block} {s s' t : State} (first : cipherAll as s = .ok os s')
    (rest : cipherAll bs s' = .ok os' t) : cipherAll (as ++ bs) s = .ok (os ++ os') t := by
  induction as generalizing s os with
  | nil => obtain ⟨rfl, rfl⟩ := Res.ok.inj first; exact rest
  | cons a as ih =>
    obtain ⟨o, os, s1, rfl, head, tail⟩ := cipherAll_cons_eq_ok first
    exact cipherAll_cons head (ih tail)

/-- One move: what it pushes the cascade as a function makes next, and what it returns was made first. -/
theorem Pending.play {s g t : State} {waiting : List Block} (h : Pending s waiting g) {m : Move}
    (lenOk : m.lenOk) (played : m.play s = .next t) :
    ∃ os g' pulled rest, cipherAll m.sent g = .ok os g' ∧ waiting ++ os = pulled ++ rest ∧
      m.output t = pulled.map returnBlock ∧ Pending t rest g' := by
  cases m with
  | push len dinA =>
    have ha : Admitted .casPush { s with port := { s.port with len := len, dinA := dinA } } :=
      ⟨h.clear, by simpa [encodingLegal, Instr.wf, lenLegal, lenStage, Move.lenOk] using lenOk⟩
    obtain ⟨o, g', made, pending⟩ := (h.port _).push ha played
    exact ⟨[o], g', [], waiting ++ [o], cipherAll_cons made rfl, rfl, rfl, pending⟩
  | pull =>
    obtain ⟨b, rest, rfl, returned, pending⟩ := h.pull played
    exact ⟨[], g, [b], rest, rfl, List.append_nil _, congrArg (fun r => [r]) returned, pending⟩
  | worker j => exact ⟨[], g, [], waiting, rfl, List.append_nil _, rfl, h.worker played⟩

/-- Moves in order: the first gives a state that the others start from, and returns first. -/
theorem plays_cons {m : Move} {ms : List Move} {s t : State} {outs : List Returned}
    (played : plays (m :: ms) s = some (outs, t)) :
    ∃ u outs', m.play s = .next u ∧ plays ms u = some (outs', t) ∧ outs = m.output u ++ outs' := by
  rw [plays] at played
  split at played
  · rename_i u first
    obtain ⟨⟨outs', t'⟩, rest, ends⟩ := Option.map_eq_some_iff.mp played
    obtain ⟨rfl, rfl⟩ := Prod.mk.inj ends
    exact ⟨u, outs', first, rest, rfl⟩
  · cases played
  · cases played

/-- A run of moves, by `Pending.play` move by move. -/
theorem Pending.plays {s g t : State} {waiting : List Block} (h : Pending s waiting g) {ms : List Move}
    (lenOk : ∀ m ∈ ms, m.lenOk) {outs : List Returned} (played : plays ms s = some (outs, t)) :
    ∃ os g' pulled rest, cipherAll (ms.flatMap Move.sent) g = .ok os g' ∧
      waiting ++ os = pulled ++ rest ∧ outs = pulled.map returnBlock ∧ Pending t rest g' := by
  induction ms generalizing s g waiting outs with
  | nil =>
    obtain ⟨rfl, rfl⟩ := Prod.mk.inj (Option.some.inj played)
    exact ⟨[], g, [], waiting, rfl, List.append_nil _, rfl, h⟩
  | cons m ms ih =>
    obtain ⟨m_ok, ms_ok⟩ := List.forall_mem_cons.mp lenOk
    obtain ⟨u, outs', first, others, rfl⟩ := plays_cons played
    obtain ⟨os, g', pulled, rest, made, split, output, pending⟩ := h.play m_ok first
    obtain ⟨os', g'', pulled', rest', made', split', rfl, pending'⟩ := ih pending ms_ok others
    refine ⟨os ++ os', g'', pulled ++ pulled', rest', ?made, ?split, ?output, pending'⟩
    case made => rw [List.flatMap_cons]; exact cipherAll_append made made'
    case split => rw [← List.append_assoc, split, List.append_assoc, split', List.append_assoc]
    case output => rw [output, List.map_append]

/-- Settles O45: nothing waits at the start, so what was pulled and what is in flight at the end is all that
the cascade as a function makes (`Pending.plays`). -/
theorem pipelineIsComposition : Obligations.pipeline_is_composition := by
  intro s t ms outs inv running idle lenOk played
  obtain ⟨os, u, pulled, rest, made, all, rfl, pending⟩ := (pending_idle inv running idle).plays lenOk played
  obtain rfl : os = pulled ++ rest := all
  have in_flight := pending.flush.length_eq pending.live
  refine ⟨pulled ++ rest, u, made, ?length, ?outputs, ?stages⟩
  case length => rw [List.length_append, List.length_map, in_flight]
  case outputs => rw [List.length_map, List.take_left]
  case stages =>
    intro empty
    obtain ⟨-, slots, counter⟩ := flush_idle_eq pending.live empty pending.flush
    exact ⟨slots.symm, counter.symm⟩

end Sys2Proof.Machine
end

section
/-! SUPPORT. A worker's turn (spec/44_cascade.md R232): what an enabled step does with the sentinel and with a
data block, what the transform of a slot is by the kind of the slot (spec/43_counter_and_stage.md R200), and
that no worker is starved: agenda, commands and blocks in the queues are used up, in this order, and then no
worker has an enabled step. A theorem that settles an obligation with the name of a definition of the model
has `MicroOperation` after it. -/

namespace Sys2Proof.Machine

/-! ### One step of a worker -/

/-- A turn named on the agenda. -/
theorem step_of_agenda {s : State} {a : Agent} {rest : List Agent} (h : s.agenda = a :: rest) :
    step s = agentTurn a { s with agenda := rest } := by
  rw [step, h]

/-- The sentinel is handed on unchanged and the worker ends (spec/44_cascade.md R232). -/
theorem workerStep_sentinel {s : State} {j : Nat} (enabled : workerEnabled s j = true)
    (sentinel : s.queues[j]? = some (some [])) :
    workerStep j s = .ok () { s with
      alive := s.alive.set j false, queues := (s.queues.set j none).set (j + 1) (some []) } := by
  rw [workerStep, if_pos enabled, queueBlock_eq_some.mpr sentinel]
  rfl

/-- A data block is transformed by the stage the worker owns, in the direction of the mode, and handed on
(spec/44_cascade.md R226, R232). -/
theorem workerStep_data {s : State} (live : Live s) {j : Nat} (enabled : workerEnabled s j = true) {b : Block}
    (block : s.queues[j]? = some (some b)) :
    ∃ o u, stageApply (modeDirection s.mode) (stageOf s j) b s = .ok o u ∧
      workerStep j s = .ok () { s with
        slots := u.slots, counter := u.counter,
        queues := (s.queues.set j none).set (j + 1) (some o) } := by
  obtain ⟨b', o, block', -, -, out, -, moves⟩ := workerStep_spec live enabled
  obtain rfl : b = b' := Option.some.inj (Option.some.inj (block.symm.trans block'))
  rw [moved_eq] at moves
  exact ⟨o, _, stageApply_eq_ok.mpr ⟨out, rfl⟩, moves⟩

/-- A transform does not see the agenda. -/
theorem stageApply_agenda {d : Direction} {n : Nat} {b o : Block} {s u : State} {rest : List Agent}
    (h : stageApply d n b { s with agenda := rest } = .ok o u) :
    ∃ v, stageApply d n b s = .ok o v ∧ v.slots = u.slots ∧ v.counter = u.counter :=
  ⟨withStages s u, stageApply_withStages (g := s) (s := { s with agenda := rest }) rfl h, rfl, rfl⟩

/-! ### The transforms -/

/-- The Counter passes the block on and counts it (spec/43_counter_and_stage.md R202, R203). -/
theorem stageApply_counter (d : Direction) (b : Block) (s : State) :
    stageApply d s.params.layout.length b s = .ok b { s with counter := s.counter + 1 } := by
  rw [stageApply, if_pos (show s.params.layout.length = numSlots s from rfl), counterApply]

/-- A slot of the layout is not the Counter's. -/
theorem slot_ne_counter {s : State} {n : Nat} {k : Kind} (h : s.params.layout[n]? = some k) :
    n ≠ numSlots s :=
  Nat.ne_of_lt (List.getElem?_eq_some_iff.mp h).1

/-- A rotor slot adds or subtracts the rotor's window, and the rotor goes one step on
(spec/41_rotor.md R143 to R145). -/
theorem stageApply_rotor {d : Direction} {n : Nat} {b : Block} {s : State} {r : Rotor} (hb : b.length ≤ 32)
    (kind : s.params.layout[n]? = some .rotor) (held : s.slots[n]? = some (some (.rotor r)))
    (ok : RotorOk r) :
    ∃ o r', RotorStep d r b o r' ∧
      stageApply d n b s = .ok o { s with slots := s.slots.set n (some (.rotor r')) } := by
  obtain ⟨o, applied, rotor_step⟩ := rotorApply_step ok d hb
  refine ⟨o, rotorAdvance r, rotor_step, ?_⟩
  rw [stageApply, if_neg (slot_ne_counter kind), kind]
  exact rotorApplyAt_eq_ok.mpr ⟨r, held, applied, rfl⟩

/-- A permutator slot scatters or gathers a full block and passes a partial one, and the permutator goes one
step on (spec/42_permutator.md R173 to R176). -/
theorem stageApply_permutator {d : Direction} {n : Nat} {b : Block} {s : State} {p : Permutator}
    (kind : s.params.layout[n]? = some .permutator) (held : s.slots[n]? = some (some (.permutator p)))
    (ok : PermutatorOk p) :
    ∃ o p', PermutatorStep d p b o p' ∧
      stageApply d n b s = .ok o { s with slots := s.slots.set n (some (.permutator p')) } := by
  obtain ⟨o, applied, permutator_step⟩ := permutatorApply_step ok d (b := b)
  refine ⟨o, permutatorAdvance p, permutator_step, ?_⟩
  rw [stageApply, if_neg (slot_ne_counter kind), kind]
  exact permutatorApplyAt_eq_ok.mpr ⟨p, held, applied, rfl⟩

/-! ### No worker is starved -/

/-- After some number of steps the machine has stopped or no worker has an enabled step. -/
def ComesToRest (s : State) : Prop :=
  ∃ n, stepMany n s = none ∨ ∃ t, stepMany n s = some t ∧ ∀ j, workerEnabled t j = false

theorem comesToRest_of_quiet {s : State} (quiet : ∀ j, workerEnabled s j = false) : ComesToRest s :=
  ⟨0, .inr ⟨s, rfl, quiet⟩⟩

/-- It is enough that the state after one step comes to rest, if there is one. -/
theorem comesToRest_of_step {s : State} (next : ∀ t, step s = .next t → ComesToRest t) : ComesToRest s := by
  cases h : step s with
  | next t =>
    obtain ⟨n, rests⟩ := next t h
    exact ⟨n + 1, by rwa [stepMany, h]⟩
  | fault f => exact ⟨1, .inl (by rw [stepMany, h])⟩
  | refused r => exact ⟨1, .inl (by rw [stepMany, h])⟩

theorem quiet_of_firstEnabled {s : State} (h : firstEnabled s = none) (j : Nat) :
    workerEnabled s j = false := by
  refine Bool.eq_false_iff.mpr fun enabled => ?_
  have alive := (List.getElem?_eq_some_iff.mp (workerEnabled_iff.mp enabled).1).1
  exact List.find?_eq_none.mp h j (List.mem_range.mpr alive) enabled

/-- No worker touches the host's side of the block. -/
theorem workerTurn_sameHost {j : Nat} {s t : State} (inv : Inv s) (turn : workerTurn j s = .next t) :
    SameHost s t := by
  rcases workerTurn_eq_next inv turn with rfl | ⟨-, -, moves⟩
  · exact SameHost.refl t
  · exact ((steady_workerStep (Steady.refl s) j).ok moves).sameHost

/-- With nothing scheduled and nothing to issue the workers move, each time with one move fewer left to the
blocks in the queues, until none is enabled. -/
theorem comesToRest_workers {s : State} (inv : Inv s) (agenda : s.agenda = [])
    (free : s.inProgress = false) (commands : s.commands = []) : ComesToRest s := by
  generalize left : movesLeft s.queues = m
  induction m using Nat.strong_induction_on generalizing s with
  | _ m ih =>
    subst left
    cases enabled : firstEnabled s with
    | none => exact comesToRest_of_quiet (quiet_of_firstEnabled enabled)
    | some j =>
      refine comesToRest_of_step fun t taken => ?_
      have turn : workerTurn j s = .next t := by
        rw [← taken, step, agenda]
        simp [freeTurn, free, commands, enabled]
      obtain ⟨-, inProgress_t, commands_t, agenda_t⟩ := workerTurn_sameHost inv turn
      have enabled_j := List.find?_some enabled
      have fewer : movesLeft t.queues < movesLeft s.queues := by
        have live := inv.live (inv.running_of_enabled enabled_j)
        obtain ⟨_, o, -, -, -, -, -, moves⟩ := workerStep_spec live enabled_j
        rw [workerTurn, moves] at turn
        obtain rfl := Host.Outcome.next.inj turn
        exact Nat.lt_of_lt_of_eq (Nat.lt_succ_self _) (workerStep_live live enabled_j moves).2
      exact ih _ fewer (workerTurn_keeps_inv inv turn) (agenda_t.trans agenda) (inProgress_t.trans free)
        (commands_t.trans commands) rfl

/-- A word that runs on the port touches nothing on the host's side of the block. -/
theorem runPort_sameHost {s t : State} (h : runPort s = .next t) : SameHost s t := by
  rcases runPort_eq_next h with ⟨i, completes⟩ | rfl
  · exact exec_sameHost completes
  · exact SameHost.refl s

/-- A command that is accepted leaves the host's other commands and the agenda; with no reset to come it is
not left in progress. -/
theorem acceptCommand_host {s t : State} (h : acceptCommand s = .next t) :
    t.commands = s.commands ∧ t.agenda = s.agenda ∧ (.reset ∉ s.agenda → t.inProgress = false) := by
  rcases acceptCommand_eq_next.mp h with runs | ⟨-, reset, rfl⟩
  · obtain ⟨-, inProgress, commands, agenda⟩ := runPort_sameHost runs
    exact ⟨commands, agenda, fun _ => inProgress⟩
  · exact ⟨rfl, rfl, fun none_ahead => absurd reset none_ahead⟩

/-- With nothing scheduled, and so no reset to come, a command that is accepted leaves only the commands
behind it. -/
theorem acceptCommand_noAgenda {s t : State} (inv : Inv s) (agenda : s.agenda = [])
    (accepted : acceptCommand s = .next t) :
    Inv t ∧ t.agenda = [] ∧ t.inProgress = false ∧ t.commands = s.commands := by
  obtain ⟨commands_t, agenda_t, free⟩ := acceptCommand_host accepted
  exact ⟨acceptCommand_keeps_inv inv accepted, agenda_t.trans agenda, free (by simp [agenda]), commands_t⟩

/-- With nothing scheduled and no command in progress the host issues its commands, and then the workers are
alone. -/
theorem comesToRest_commands {s : State} (inv : Inv s) (agenda : s.agenda = [])
    (free : s.inProgress = false) : ComesToRest s := by
  generalize list : s.commands = commands
  induction commands generalizing s with
  | nil => exact comesToRest_workers inv agenda free list
  | cons c rest ih =>
    refine comesToRest_of_step fun t taken => ?_
    have turn : acceptCommand (sampleCommand c rest s) = .next t := by
      rw [← taken, step, agenda]
      simp [freeTurn, hostTurn, withCommand, free, list]
    obtain ⟨inv_t, agenda_t, free_t, commands_t⟩ :=
      acceptCommand_noAgenda (inv.sampleCommand c rest) agenda turn
    exact ih inv_t agenda_t free_t commands_t

/-- With nothing scheduled the host takes up the command in progress, if there is one, and then issues the
others. -/
theorem comesToRest_noAgenda {s : State} (inv : Inv s) (agenda : s.agenda = []) : ComesToRest s := by
  cases busy : s.inProgress with
  | false => exact comesToRest_commands inv agenda busy
  | true =>
    refine comesToRest_of_step fun t taken => ?_
    have turn : acceptCommand s = .next t := by
      rw [← taken, step, agenda]
      simp [freeTurn, hostTurn, withCommand, busy]
    obtain ⟨inv_t, agenda_t, free_t, -⟩ := acceptCommand_noAgenda inv agenda turn
    exact comesToRest_commands inv_t agenda_t free_t

/-- What the host does with its command leaves the agenda. -/
theorem withCommand_agenda {act : State → Host.Outcome State Fault Refusal}
    (leaves : ∀ {s t : State}, act s = .next t → t.agenda = s.agenda) {s t : State}
    (h : withCommand act s = .next t) : t.agenda = s.agenda := by
  rcases withCommand_eq_next.mp h with ⟨-, acts⟩ | ⟨-, -, rfl⟩ | ⟨c, rest, -, -, acts⟩
  · exact leaves acts
  · rfl
  · exact (leaves acts).trans (sampleCommand_agenda s c rest)

/-- No agent adds to the agenda. -/
theorem agentTurn_agenda {a : Agent} {s t : State} (inv : Inv s) (turn : agentTurn a s = .next t) :
    t.agenda = s.agenda := by
  cases a with
  | host => exact withCommand_agenda (fun acts => (acceptCommand_host acts).2.1) turn
  | issue =>
    refine withCommand_agenda (fun acts => ?_) turn
    rcases startCommand_eq_next.mp acts with ⟨-, rfl⟩ | ⟨-, accepted⟩
    · rfl
    · exact (acceptCommand_host accepted).2.1
  | worker j => exact (workerTurn_sameHost inv turn).2.2.2
  | reset => obtain rfl := Host.Outcome.next.inj turn; rfl

/-- Every sound state comes to rest: each step uses up an agent of the agenda, and then
`comesToRest_noAgenda`. -/
theorem comesToRest {s : State} (inv : Inv s) : ComesToRest s := by
  generalize list : s.agenda = agenda
  induction agenda generalizing s with
  | nil => exact comesToRest_noAgenda inv list
  | cons a rest ih =>
    refine comesToRest_of_step fun t taken => ?_
    have turn := (step_of_agenda list).symm.trans taken
    exact ih (stepKeepsInvariant s t inv taken) (agentTurn_agenda (inv.agenda rest) turn)

/-! ### The obligation -/

/-- Settles O43: the turn by what is in the worker's queue, the transform by what the slot holds, and
`comesToRest`. -/
theorem workerStepMicroOperation : Obligations.worker_step := by
  refine ⟨fun s j rest ha => ?turn, fun d b s hb => ?transform, fun s => comesToRest⟩
  case turn =>
    have turn : step s = workerTurn j { s with agenda := rest } := step_of_agenda ha
    refine ⟨fun b alive block room => ?enabled, fun idle => ?idle⟩
    case enabled =>
      have enabled : workerEnabled { s with agenda := rest } j = true :=
        workerEnabled_iff.mpr ⟨alive, ⟨b, block⟩, room⟩
      refine ⟨fun sentinel => ?_, fun _ inv running => ?_⟩
      · subst sentinel
        rw [turn, workerTurn, workerStep_sentinel enabled block]
      · obtain ⟨o, u, applied, moves⟩ := workerStep_data ((inv.agenda rest).live running) enabled block
        obtain ⟨v, applied, slots, counter⟩ := stageApply_agenda applied
        exact ⟨o, v, applied, by rw [turn, workerTurn, moves, slots, counter]⟩
    case idle =>
      have not_enabled : ¬ workerEnabled { s with agenda := rest } j = true := mt workerEnabled_iff.mp idle
      rw [turn, workerTurn, workerStep, if_neg not_enabled]
  case transform =>
    exact ⟨stageApply_counter d b s, fun n =>
      ⟨fun r kind held ok => stageApply_rotor hb kind held ok,
        fun p kind held ok => stageApply_permutator kind held ok⟩⟩

end Sys2Proof.Machine
end

section
/-! SUPPORT. The state machine of the cascade: which command changes `fsm` (spec/44_cascade.md R220), and where
a command is refused (R221, spec/60_exceptions.md R306). Both go by the ways the rule of a command can end in
a sound state (`rule_ends`). -/

namespace Sys2Proof.Machine

/-! ### Transitions -/

/-- The commands that change the state of the cascade (spec/44_cascade.md R220). -/
def ChangesFsm (i : Instr) : Prop := i = .casInit ∨ i = .casLoad ∨ i = .casBuild ∨ i = .casClose

/-- The rule of every other command leaves `fsm` (spec/44_cascade.md R220). -/
theorem ruleOf_keeps_fsm {i : Instr} (h : ¬ ChangesFsm i) (s : State) :
    (ruleOf i s).Leaves fun t => t.fsm = s.fsm := by
  have start := Steady.refl s
  have keep {m : Res Returned} (hm : m.Leaves (Steady s)) : m.Leaves fun t => t.fsm = s.fsm :=
    hm.mono fun steady => steady.2.1
  cases i with
  | casInit => exact absurd (.inl rfl) h
  | casLoad => exact absurd (.inr (.inl rfl)) h
  | casBuild => exact absurd (.inr (.inr (.inl rfl))) h
  | casClose => exact absurd (.inr (.inr (.inr rfl))) h
  | rotNew slot => exact keep ((steady_rotorNew start _ _ _ _ _).bind fun _ _ h => h)
  | rotUpdate slot => exact keep ((steady_rotorUpdate start _).bind fun _ _ h => h)
  | rotApplyf slot => exact keep ((steady_rotorApplyAt start _ _ _).bind fun _ _ h => h)
  | rotApplyi slot => exact keep ((steady_rotorApplyAt start _ _ _).bind fun _ _ h => h)
  | rotSeek slot => exact keep ((leaves_orNoValue start).bind fun _ _ h => h)
  | rotIndex slot => exact keep ((leaves_orNoValue start).bind fun _ _ h => h)
  | prmNew slot => exact keep ((steady_permutatorNew start _ _ _).bind fun _ _ h => h)
  | prmUpdate slot => exact keep ((steady_permutatorUpdate start _).bind fun _ _ h => h)
  | prmApplyf slot => exact keep ((steady_permutatorApplyAt start _ _ _).bind fun _ _ h => h)
  | prmApplyi slot => exact keep ((steady_permutatorApplyAt start _ _ _).bind fun _ _ h => h)
  | prmSeek slot => exact keep ((leaves_orNoValue start).bind fun _ _ h => h)
  | prmIndex slot => exact keep ((leaves_orNoValue start).bind fun _ _ h => h)
  | casSetmode code =>
    show (setMode code s).Leaves _
    unfold setMode
    split <;> exact rfl
  | casSeek => exact keep ((steady_seekAll start _).bind fun _ _ h => h)
  | casPush => exact keep ((steady_pushBlock start _).bind fun _ _ h => h)
  | casPull => exact keep ((steady_pullBlock start).bind fun _ _ h => h)
  | rngRead =>
    show Res.Leaves _ (if _ then _ else _)
    split
    · exact rfl
    · exact keep ((steady_drawBytes start _).bind fun _ _ h => h)
  | rngUniform =>
    show Res.Leaves _ (if _ then _ else _)
    split
    · exact rfl
    · exact keep ((steady_uniformDraw start _).bind fun _ _ h => h)
  | rngPerm =>
    show Res.Leaves _ (if _ then _ else _)
    split
    · exact rfl
    · exact keep ((steady_permutationDraw start _).bind fun _ _ h => h)
  | _ => exact rfl

/-- A `CAS.INIT` whose rule goes to its end leaves the cascade Keyed (spec/45_keysetup_prng.md R270). -/
theorem initCascade_fsm {s t : State} {ret : Returned} (params_wf : s.params.wf = true)
    (done : initCascade s = .ok ret t) : t.fsm = .keyed := by
  cases builds : proformaBuilds s.params s.port.param.proformaSource with
  | true =>
    obtain ⟨stages, key, -, -, -, -, run⟩ := initCascade_ok params_wf builds
    obtain ⟨-, rfl⟩ := Res.ok.inj (run.symm.trans done)
    rfl
  | false => cases (initCascade_bad builds).symm.trans done

/-- A `CAS.LOAD` whose rule goes to its end leaves the cascade Keyed (spec/44_cascade.md R224). -/
theorem loadCascade_fsm {s t : State} (done : loadCascade s = .ok () t) : t.fsm = .keyed := by
  obtain ⟨_, u, -, ends⟩ := bind_eq_ok.mp done
  obtain ⟨-, rfl⟩ := Res.ok.inj ends
  rfl

/-- All a command can do to the cascade's state in a sound state (spec/44_cascade.md R220): keep it, or take
one of the arrows of the table at a completion with `OK`. -/
inductive FsmMove (i : Instr) (s t : State) : Prop
  | keep : t.status ≠ 0 ∨ ¬ ChangesFsm i → t.fsm = s.fsm → FsmMove i s t
  | key : i = .casInit ∨ i = .casLoad → t.status = 0 → s.fsm ≠ .running → t.fsm = .keyed → FsmMove i s t
  | build : i = .casBuild → t.status = 0 → s.fsm = .keyed ∨ s.fsm = .closed → t.fsm = .running →
      FsmMove i s t
  | close : i = .casClose → t.status = 0 → s.fsm = .running → t.fsm = .closed → FsmMove i s t

theorem raiseException_status_ne (x : Exn) (s : State) : (raiseException x s).status ≠ 0 := by
  cases x <;> exact fun h => nomatch h

/-- A rule that goes to its end takes the command's arrow, if it has one. -/
theorem fsmMove_of_done {i : Instr} {s t : State} {ret : Returned} (inv : Inv s) (legal : legalOf i s = none)
    (done : ruleOf i s = .ok ret t) : FsmMove i s (completeOk ret t) := by
  by_cases changes : ChangesFsm i
  · rcases changes with rfl | rfl | rfl | rfl
    · have keyed := initCascade_fsm inv.params_wf done
      exact .key (.inl rfl) rfl (legalOutsideRunning_eq_none.mp legal) keyed
    · obtain ⟨_, u, loads, ends⟩ := bind_eq_ok.mp done
      obtain ⟨-, rfl⟩ := Res.ok.inj ends
      have keyed := loadCascade_fsm loads
      exact .key (.inr rfl) rfl (legalLoad_eq_none.mp legal).1 keyed
    · obtain ⟨-, rfl⟩ := Res.ok.inj done
      exact .build rfl rfl (legalBuild_eq_none.mp legal).1 rfl
    · obtain ⟨running, idle⟩ := legalClose_eq_none.mp legal
      have closes : ruleOf .casClose s = _ := bind_of_ok (closePipeline_spec (inv.live running) idle) _
      obtain ⟨-, rfl⟩ := Res.ok.inj (closes.symm.trans done)
      exact .close rfl rfl running rfl
  · have kept := (ruleOf_keeps_fsm changes s).ok done
    exact .keep (.inr changes) kept

/-- A completing command takes an arrow of the table or keeps the state of the cascade; one that ends in an
exception keeps it. -/
theorem exec_fsmMove {i : Instr} {s t : State} (inv : Inv s) (completes : exec i s = .next t) :
    FsmMove i s t := by
  obtain ⟨clear, ⟨-, rfl⟩ | ⟨encoding, legal, ended⟩⟩ := exec_eq_next completes
  · exact .keep (.inl (raiseException_status_ne _ s)) rfl
  · rcases complete_eq_next.mp ended with ⟨ret, u, done, rfl⟩ | ⟨x, u, raised, rfl⟩
    · exact fsmMove_of_done inv legal done
    · have ends := rule_ends inv ⟨clear, encoding⟩ legal
      rw [raised] at ends
      cases ends with
      | raised _ _ _ _ _ kept _ => exact .keep (.inl (raiseException_status_ne x u)) kept

/-- Settles O59, by the arrow the command takes (`exec_fsmMove`); a worker's step is `Steady`. -/
theorem fsmTransitions : Obligations.fsm_transitions := by
  intro s t inv
  refine ⟨fun i completes => ?command, fun j turn => ?worker⟩
  case command =>
    cases exec_fsmMove inv completes with
    | keep why kept =>
      have arrowless (ok : t.status = 0) (changes : ChangesFsm i) : False :=
        why.elim (absurd ok) (absurd changes)
      exact ⟨fun ok hi => (arrowless ok (hi.imp_right .inl)).elim,
        fun ok hi => (arrowless ok (.inr (.inr (.inl hi)))).elim,
        fun ok hi => (arrowless ok (.inr (.inr (.inr hi)))).elim, fun _ => kept⟩
    | key hi ok source target =>
      rcases hi with rfl | rfl <;> simp [ok, source, target]
    | build hi ok source target => subst hi; simp [ok, source, target]
    | close hi ok source target => subst hi; simp [ok, source, target]
  case worker =>
    rcases workerTurn_eq_next inv turn with rfl | ⟨-, -, moves⟩
    · rfl
    · exact ((steady_workerStep (Steady.refl s) j).ok moves).2.1

/-! ### Refusals -/

/-- The legality the model tests is the table of spec/44_cascade.md R221. -/
theorem legalOf_eq_none_iff {i : Instr} {s : State} (inv : Inv s) (clear : s.fatal = false) :
    legalOf i s = none ↔ LegalIn i s := by
  cases i with
  | cmbAdd => exact iff_of_true rfl trivial
  | cmbSub => exact iff_of_true rfl trivial
  | cmbXor => exact iff_of_true rfl trivial
  | rngSeed => exact iff_of_true rfl trivial
  | rotUpdate slot => exact legalDraw_eq_none
  | prmUpdate slot => exact legalDraw_eq_none
  | rngRead => exact legalDraw_eq_none
  | rngUniform => exact legalDraw_eq_none
  | rngPerm => exact legalDraw_eq_none
  | casLoad => exact legalLoad_eq_none.trans (and_congr_right' (everySlotLoaded_iff inv clear))
  | casSetmode code => exact legalKeyedOrClosed_eq_none
  | casBuild => exact legalBuild_eq_none
  | casSeek => exact legalSeek_eq_none
  | casIndex => exact legalIndex_eq_none
  | casClose => exact legalClose_eq_none
  | casPush => exact legalRunning_eq_none
  | casPull => exact legalRunning_eq_none
  | _ => exact legalOutsideRunning_eq_none

/-- An admitted command in a legal state is refused exactly where its rule is. -/
theorem exec_refused_iff {i : Instr} {s : State} (ha : Admitted i s) (legal : legalOf i s = none) :
    (∃ r, exec i s = .refused r) ↔ ∃ r, ruleOf i s = .refuse r := by
  rw [exec_eq, runCommand_admitted ha legal]
  cases ruleOf i s <;> simp [complete]

/-- An admitted command in a state that is not legal is refused with the reason. -/
theorem exec_refused_of_illegal {i : Instr} {s : State} (ha : Admitted i s) {r : Refusal}
    (illegal : legalOf i s = some r) : exec i s = .refused r := by
  rw [exec_eq, runCommand, if_neg (Bool.eq_false_iff.mp ha.1), if_pos ha.2, illegal]

/-- Where it is legal, a rule is refused exactly where the slot it reads holds no value
(spec/70_reset_and_hazards.md R331). -/
theorem ruleOf_refuses_iff {i : Instr} {s : State} (inv : Inv s) (ha : Admitted i s)
    (legal : legalOf i s = none) : (∃ r, ruleOf i s = .refuse r) ↔ ¬ ReadsValue i s := by
  have ends := rule_ends inv ha legal
  generalize ruleOf i s = m at ends
  cases ends with
  | done ret t reads _ _ => simp [reads]
  | raised x t reads _ _ _ _ => simp [reads]
  | noValue empty => simp [empty]
  | stuckPull hi _ => subst hi; simp [ReadsValue]
  | stuckPush hi _ => subst hi; simp [ReadsValue]

/-- Settles O60: by the table, and in a legal state by what the rule reads. -/
theorem refusedExactly : Obligations.refused_exactly := by
  intro i s inv ha
  rw [← legalOf_eq_none_iff inv ha.1]
  cases legal : legalOf i s with
  | none => simp [exec_refused_iff ha legal, ruleOf_refuses_iff inv ha legal]
  | some r => simp [exec_refused_of_illegal ha legal]

end Sys2Proof.Machine
end

section
/-! SUPPORT. The Self-seeded PRNG's commands (spec/45_keysetup_prng.md R261 to R267). What a draw does to the
stream and the cascade is in Laws/Prng.lean; here each command is its legality (R260), the check of its operand,
and the draw under `exec_ok`. -/

namespace Sys2Proof.Machine

/-! ### `RNG.SEED` -/

/-- A full block on the port is a legal encoding of `RNG.SEED` (spec/30_encoding.md R98). -/
theorem encodingLegal_rngSeed {s : State} (len : s.port.len = 32) : encodingLegal .rngSeed s = true := by
  rw [encodingLegal, len]
  rfl

/-- Settles O50: the rule is `seedPrng`, legal in every state of the cascade. -/
theorem prngSeed : Obligations.prng_seed := fun s clear len =>
  exec_ok (t := seedPrng (operandA s) s) ⟨clear, encodingLegal_rngSeed len⟩ rfl rfl

/-! ### The rules past the check of `N` -/

/-- `RNG.READ` of a count that is not negative is a draw of so many bytes (spec/45_keysetup_prng.md R263). -/
theorem ruleOf_rngRead {s t : State} {bs : List Byte} (count : 0 ≤ operandN s)
    (run : drawBytes (operandN s).toNat s = .ok bs t) :
    ruleOf .rngRead s = .ok (.result (.bytes bs)) t :=
  (if_neg (Int.not_lt.mpr count)).trans (bind_of_ok run _)

/-- `RNG.UNIFORM` of a positive bound is one bounded draw (spec/45_keysetup_prng.md R266). -/
theorem ruleOf_rngUniform {s t : State} {v : Nat} (bound : 0 < operandN s)
    (run : uniformDraw (operandN s).toNat s = .ok v t) :
    ruleOf .rngUniform s = .ok (.result (.value v)) t :=
  (if_neg (Int.not_le.mpr bound)).trans (bind_of_ok run _)

/-- `RNG.PERM` of a size that is not negative is one drawn permutation (spec/45_keysetup_prng.md R267). -/
theorem ruleOf_rngPerm {s t : State} {l : List Nat} (size : 0 ≤ operandN s)
    (run : permutationDraw (operandN s).toNat s = .ok l t) :
    ruleOf .rngPerm s = .ok (.result (.list l)) t :=
  (if_neg (Int.not_lt.mpr size)).trans (bind_of_ok run _)

/-! ### `RNG.READ`, `RNG.UNIFORM` and `RNG.PERM` -/

/-- Settles O51: the draw of `N` bytes always goes through (`drawBytes_spec`). -/
theorem prngRead : Obligations.prng_read := by
  intro s inv ha canDraw count
  obtain ⟨bs, u, run, bs_length, -, -, frame, drawn⟩ := drawBytes_spec (operandN s).toNat inv canDraw
  exact ⟨bs, u, bs_length, drawn, frame,
    exec_ok ha (legalDraw_eq_none.mpr canDraw) (ruleOf_rngRead count run)⟩

/-- A bounded draw consumes a byte, unless the bound is 1 (spec/45_keysetup_prng.md R266). -/
theorem uniformCount_pos {s : State} {n : Nat} (h : n ≠ 1) : 0 < uniformCount s n := by
  rw [uniformCount, if_neg h]
  exact Nat.succ_pos _

/-- Settles O52: the bounded draw always goes through and is in range (`uniformDraw_spec`). -/
theorem prngUniform : Obligations.prng_uniform := by
  intro s inv ha canDraw bound
  obtain ⟨v, u, run, in_range, -, -, frame, bs, bs_length, drawn⟩ :=
    uniformDraw_spec (n := (operandN s).toNat) (Int.pos_iff_toNat_pos.mp bound) inv canDraw
  refine ⟨v, bs, u, in_range, drawn, fun not_one => ?consumes, frame,
    exec_ok ha (legalDraw_eq_none.mpr canDraw) (ruleOf_rngUniform bound run)⟩
  case consumes =>
    have toNat_ne_one : (operandN s).toNat ≠ 1 := fun h => not_one (by unfold operandN at h; omega)
    exact List.ne_nil_of_length_pos (bs_length ▸ uniformCount_pos toNat_ne_one)

/-- A drawn permutation, with the bytes it consumes: of no entries, none (spec/45_keysetup_prng.md R267). -/
theorem permutationDraw_drawn (n : Nat) {s : State} (inv : Inv s) (canDraw : CanDraw s) :
    ∃ l bs u, permutationDraw n s = .ok l u ∧ l.Perm (List.range n) ∧ u = onDraw s u ∧
      Drawn s bs u ∧ (n = 0 → bs = []) := by
  cases n with
  | zero => exact ⟨[], [], s, rfl, .refl _, rfl, .none s, fun _ => rfl⟩
  | succ n =>
    obtain ⟨l, u, run, perm, -, -, frame, bs, drawn⟩ := permutationDraw_spec (n + 1) inv canDraw
    exact ⟨l, bs, u, run, perm, frame, drawn, fun empty => absurd empty n.succ_ne_zero⟩

/-- Settles O53, by `permutationDraw_drawn`. -/
theorem prngPerm : Obligations.prng_perm := by
  intro s inv ha canDraw size
  obtain ⟨l, bs, u, run, perm, frame, drawn, nothing⟩ :=
    permutationDraw_drawn (operandN s).toNat inv canDraw
  exact ⟨l, bs, u, perm, drawn, fun empty => nothing (congrArg Int.toNat empty), frame,
    exec_ok ha (legalDraw_eq_none.mpr canDraw) (ruleOf_rngPerm size run)⟩

end Sys2Proof.Machine
end

section
/-! SUPPORT. Key setup, `CAS.INIT` (spec/45_keysetup_prng.md R270 to R273). What `KEYGEN` makes is in
Laws/Rekey.lean (`initCascade_ok`); here that the tables are used in rotating order gives distinct rotor sizes
in one key setup and another cascade in the next. -/

namespace Sys2Proof.Machine

/-! ### Tables in rotating order -/

/-- Fewer places than a table has entries meet each entry once at most. -/
theorem rotating_inj {α : Type} {table : List α} (nodup : table.Nodup) {first i j : Nat}
    (hi : i < table.length) (hj : j < table.length)
    (same : rotating table first i = rotating table first j) : i = j := by
  have mod_lt := Nat.mod_lt (first + i) (Nat.zero_lt_of_lt hi)
  have congruent : first + i ≡ first + j [MOD table.length] := (List.getElem?_inj mod_lt nodup).mp same
  exact (Nat.ModEq.add_left_cancel' first congruent).eq_of_lt_of_lt hi hj

/-- The rotor sizes of one key setup are pairwise distinct where the table has enough primes
(spec/45_keysetup_prng.md R270). -/
theorem Rotated.sizes_nodup {p : Params} {a : KeygenArgs} {stages : List Stage} (wf : p.wf = true)
    (rotated : Rotated p a stages) (enough : slotsOfKind p .rotor ≤ p.primeTable.length) :
    ((stages.filterMap rotorOf).map Rotor.size).Nodup := by
  have entries : ((List.range (slotsOfKind p .rotor)).map (rotating p.primeTable a.primeRot)).Nodup :=
    List.nodup_range.map_on fun i hi j hj same =>
      rotating_inj (primes_nodup wf) ((List.mem_range.mp hi).trans_le enough)
        ((List.mem_range.mp hj).trans_le enough) same
  have sizes : ((stages.filterMap rotorOf).map fun r => some r.size).Nodup :=
    rotated.1.nodup_iff.mpr entries
  rw [← Function.comp_def some Rotor.size, ← List.map_map] at sizes
  exact sizes.of_map some

/-- With a prime left over, a key setup from the rotation index the one before left takes a prime that one did
not take, so the stages differ (spec/45_keysetup_prng.md R270). -/
theorem Rotated.ne_of_next {p : Params} {a b : KeygenArgs} {stages stages' : List Stage}
    (wf : p.wf = true) (rotated : Rotated p a stages) (rotated' : Rotated p b stages')
    (next : b.primeRot = (a.primeRot + slotsOfKind p .rotor) % p.primeTable.length)
    (some_rotor : 0 < slotsOfKind p .rotor) (left_over : slotsOfKind p .rotor < p.primeTable.length) :
    stages' ≠ stages := by
  rintro rfl
  have first_new : rotating p.primeTable b.primeRot 0 =
      rotating p.primeTable a.primeRot (slotsOfKind p .rotor) := by
    rw [rotating, rotating, next, Nat.add_zero, Nat.mod_mod]
  have taken : rotating p.primeTable b.primeRot 0 ∈
      (List.range (slotsOfKind p .rotor)).map (rotating p.primeTable a.primeRot) :=
    (rotated'.1.symm.trans rotated.1).mem_iff.mp
      (List.mem_map_of_mem (List.mem_range.mpr some_rotor))
  obtain ⟨k, hk, same⟩ := List.mem_map.mp taken
  have k_lt := List.mem_range.mp hk
  exact k_lt.ne (rotating_inj (primes_nodup wf) (k_lt.trans left_over) left_over (same.trans first_new))

/-! ### `CAS.INIT` -/

/-- The state a key setup leaves, from the stages and the key `KEYGEN` made (spec/45_keysetup_prng.md
R270). -/
def keySetUp (stages : List Stage) (key : List Byte) (s : State) : State :=
  { s with
    slots := stages.map some
    counter := 0
    maximalStates := some (stages.map stageMax).prod
    trackingKey := some key
    primeRot := (s.primeRot + slotsOfKind s.params .rotor) % s.params.primeTable.length
    tupleRot := (s.tupleRot + slotsOfKind s.params .permutator) % s.params.cycleTuples.length
    seeded := false
    fsm := .keyed
    status := 0
    returned := .result (.trackingKey key) }

/-- What the contract of `KEYGEN` says of the stages and of the key (spec/45_keysetup_prng.md R270). -/
structure KeygenOk (s : State) (stages : List Stage) (key : List Byte) : Prop where
  kinds : stages.map stageKind = s.params.layout
  sound : ∀ st ∈ stages, StageOk s.params st
  keyed : ∀ st ∈ stages, Keyed s.params st
  at_zero : ∀ st ∈ stages, st = stageSeek 0 st
  rotated : Rotated s.params (keygenArgs s) stages
  key_length : key.length = s.params.tkBytes

/-- `CAS.INIT` completes with `OK` where the proforma cascade can be built. -/
theorem exec_casInit_builds {s : State} (wf : s.params.wf = true) (ha : Admitted .casInit s)
    (hr : s.fsm ≠ .running) (builds : proformaBuilds s.params s.port.param.proformaSource = true) :
    ∃ stages key, KeygenOk s stages key ∧ exec .casInit s = .next (keySetUp stages key s) := by
  obtain ⟨stages, key, kinds, each, rotated, key_length, run⟩ := initCascade_ok wf builds
  exact ⟨stages, key,
    ⟨kinds, fun st hst => (each st hst).1, fun st hst => (each st hst).2.1,
      fun st hst => (each st hst).2.2, rotated, key_length⟩,
    exec_ok ha (legalOutsideRunning_eq_none.mpr hr) run⟩

/-- `CAS.INIT` raises `ConfigError` where it cannot: the slots are open and `FATAL` is set (log 6). -/
theorem exec_casInit_fails {s : State} (ha : Admitted .casInit s) (hr : s.fsm ≠ .running)
    (fails : proformaBuilds s.params s.port.param.proformaSource = false) :
    exec .casInit s =
      .next { freeSlots s with status := 2, fatal := true, returned := .nothing } := by
  rw [exec_raise ha (legalOutsideRunning_eq_none.mpr hr) (initCascade_bad fails),
    raiseException_configError]

/-- A second key setup on the block gives other slots, with a prime left over: had the first one failed, `FATAL`
would refuse the second. -/
theorem casInit_twice_slots_ne {s t u : State} (wf : s.params.wf = true) (ha : Admitted .casInit s)
    (hr : s.fsm ≠ .running) (some_rotor : 0 < slotsOfKind s.params .rotor)
    (left_over : slotsOfKind s.params .rotor < s.params.primeTable.length)
    (first : exec .casInit s = .next t) (second : exec .casInit t = .next u) : u.slots ≠ t.slots := by
  cases builds : proformaBuilds s.params s.port.param.proformaSource with
  | false =>
    rw [exec_casInit_fails ha hr builds] at first
    obtain rfl := Host.Outcome.next.inj first
    exact absurd (exec_eq_next second).1 Bool.noConfusion
  | true =>
    obtain ⟨stages, key, keygen, run⟩ := exec_casInit_builds wf ha hr builds
    obtain rfl := Host.Outcome.next.inj (run.symm.trans first)
    obtain ⟨stages', key', keygen', run'⟩ :=
      exec_casInit_builds (s := keySetUp stages key s) wf ⟨ha.1, rfl⟩ nofun builds
    obtain rfl := Host.Outcome.next.inj (run'.symm.trans second)
    have stages_ne : stages' ≠ stages :=
      keygen.rotated.ne_of_next wf keygen'.rotated rfl some_rotor left_over
    exact fun same => stages_ne (List.map_injective_iff.mpr (Option.some_injective _) same)

/-- Two blocks that give `KEYGEN` the same parameters and arguments end alike (spec/45_keysetup_prng.md R270,
R272). -/
theorem casInit_function {s s' t : State} (wf : s.params.wf = true) (ha : Admitted .casInit s)
    (hr : s.fsm ≠ .running) (ha' : Admitted .casInit s') (hr' : s'.fsm ≠ .running)
    (params : s'.params = s.params) (args : keygenArgs s' = keygenArgs s)
    (completes : exec .casInit s = .next t) :
    ∃ t', exec .casInit s' = .next t' ∧ t'.status = t.status ∧
      (t.status = 0 → t'.slots = t.slots ∧ t'.trackingKey = t.trackingKey ∧
        t'.maximalStates = t.maximalStates ∧ t'.returned = t.returned) := by
  cases builds : proformaBuilds s.params s.port.param.proformaSource with
  | true =>
    obtain ⟨stages, key, -, -, -, -, run⟩ := initCascade_ok wf builds
    rw [exec_ok ha (legalOutsideRunning_eq_none.mpr hr) run] at completes
    obtain rfl := Host.Outcome.next.inj completes
    obtain ⟨u, run', slots, tracking_key, maximal⟩ := initCascade_function params args run
    exact ⟨_, exec_ok ha' (legalOutsideRunning_eq_none.mpr hr') run', rfl,
      fun _ => ⟨slots, tracking_key, maximal, rfl⟩⟩
  | false =>
    rw [exec_casInit_fails ha hr builds] at completes
    obtain rfl := Host.Outcome.next.inj completes
    have source : s'.port.param.proformaSource = s.port.param.proformaSource :=
      congrArg KeygenArgs.proformaSource args
    rw [← params, ← source] at builds
    exact ⟨_, exec_casInit_fails ha' hr' builds, rfl, nofun⟩

/-- The arguments `CAS.INIT` gives `KEYGEN` are the two on the port and the rotation indices
(spec/45_keysetup_prng.md R270). -/
theorem keygenArgs_congr {s s' : State} (prime_rot : s'.primeRot = s.primeRot)
    (tuple_rot : s'.tupleRot = s.tupleRot) (secret : s'.port.param.secret = s.port.param.secret)
    (source : s'.port.param.proformaSource = s.port.param.proformaSource) :
    keygenArgs s' = keygenArgs s := by
  rw [keygenArgs, keygenArgs, prime_rot, tuple_rot, secret, source]

/-- Settles O44: its clauses are `exec_casInit_builds`, `casInit_twice_slots_ne`, `casInit_function` and
`exec_casInit_fails`. -/
theorem cascadeInit : Obligations.cascade_init := by
  intro s inv ha hr primes cycles rotors permutators
  refine ⟨fun builds => ?builds, fun some_rotor left_over t u => ?twice,
    fun s' t _ ha' hr' params prime_rot tuple_rot secret source => ?function, fun fails => ?fails⟩
  case builds =>
    obtain ⟨stages, key, keygen, run⟩ := exec_casInit_builds inv.params_wf ha hr builds
    exact ⟨stages, key, keygen.kinds, keygen.sound, fun _ => keygen.keyed _, fun _ => keygen.keyed _,
      keygen.at_zero, keygen.key_length, keygen.rotated.1, keygen.rotated.sizes_nodup inv.params_wf,
      keygen.rotated.2, run⟩
  case twice => exact casInit_twice_slots_ne inv.params_wf ha hr some_rotor left_over
  case function =>
    exact casInit_function inv.params_wf ha hr ha' hr' params
      (keygenArgs_congr prime_rot tuple_rot secret source)
  case fails => exact ⟨_, exec_casInit_fails ha hr fails⟩

end Sys2Proof.Machine
end

section
/-! SUPPORT. Outcomes and exceptions (spec/60_exceptions.md): the illegal encoding (R304), `FATAL` (R305), the
codes a command completes with (R300, R303), the stuck cases (R310) and the PRNG's bad arguments (R301). Each
goes by the order of the outcomes (R308), as `exec_eq_next` and `exec_eq_fault` say it, and by how the command's
rule can end. -/

namespace Sys2Proof.Machine

/-- Taking an exception that is not fatal leaves `FATAL` (spec/60_exceptions.md R300). -/
theorem raiseException_of_not_fatal {x : Exn} (h : exnFatal x = false) (s : State) :
    raiseException x s = { s with status := exnCode x, returned := .nothing } := by
  rw [raiseException, h, Bool.or_false]

/-! ### Illegal encodings -/

/-- A command whose `ARG` or `LEN` is out of range raises `IllegalCommand` before the state of the cascade is
asked (spec/60_exceptions.md R304, R308). -/
theorem exec_illegal {i : Instr} {s : State} (clear : s.fatal = false) (illegal : encodingLegal i s = false) :
    exec i s = .next (raiseException .illegalCommand s) := by
  rw [exec_eq, runCommand, if_neg (Bool.eq_false_iff.mp clear), if_neg (Bool.eq_false_iff.mp illegal)]

/-- The word on the port raises `IllegalCommand` in every case of spec/30_encoding.md R98, whether it is no
command's word or a command's with an `ARG` or a `LEN` out of range. -/
theorem runPort_illegal {s : State} (clear : s.fatal = false)
    (illegal : IllegalEncoding s.params.layout s.port.cmd s.port.len) :
    runPort s = .next (raiseException .illegalCommand s) := by
  cases word : decode s.port.cmd with
  | error e =>
    rw [runPort, word]
    exact illegalWord_eq_next.mpr ⟨clear, rfl⟩
  | ok i =>
    have not_legal : encodingLegal i s = false := Bool.eq_false_iff.mpr fun legal =>
      (illegalOrCommand s s.port rfl).mpr ⟨i, word, legal⟩ illegal
    rw [runPort_decode word]
    exact exec_illegal clear not_legal

/-- With nothing scheduled the host samples the next of its commands and runs it. -/
theorem step_samples {s : State} {c : Command} {rest : List Command} (agenda : s.agenda = [])
    (free : s.inProgress = false) (commands : s.commands = c :: rest) :
    step s = acceptCommand { s with port := c, commands := rest } := by
  have turn : step s = hostTurn s := by simp [step, agenda, freeTurn, commands]
  rw [turn, hostTurn, withCommand_sample _ free commands]

/-- Settles O6: the host's turn samples the command, which raises `IllegalCommand` (`runPort_illegal`). -/
theorem illegalEncodingCompletes : Obligations.illegal_encoding_completes := by
  intro s c rest agenda free commands clear illegal
  have raised := runPort_illegal (s := { s with port := c, commands := rest }) clear illegal
  rw [raiseException_of_not_fatal rfl,
    ← inProgress_false_eq (s := { s with port := c, commands := rest }) free] at raised
  rw [step_samples agenda free commands, acceptCommand_eq_next.mpr (.inl raised), ← free]
  rfl

/-! ### `FATAL` -/

/-- With `FATAL` set every command is refused (spec/60_exceptions.md R305). -/
theorem exec_fatal {s : State} (fatal : s.fatal = true) (i : Instr) : exec i s = .refused .fatalSet := by
  rw [exec_eq, runCommand, if_pos fatal]

/-- With `FATAL` set whatever word is on the port is refused (spec/60_exceptions.md R305). -/
theorem runPort_fatal {s : State} (fatal : s.fatal = true) : runPort s = .refused .fatalSet := by
  cases word : decode s.port.cmd with
  | ok i => rw [runPort_decode word, exec_fatal fatal]
  | error e => simp [runPort, word, illegalWord, fatal]

theorem Steady.fatal {s t : State} (h : Steady s t) : t.fatal = s.fatal := by
  obtain ⟨-, -, -, -, fatal, -⟩ := h
  exact fatal

theorem acceptCommand_keeps_fatal {s t : State} (fatal : s.fatal = true) (accepted : acceptCommand s = .next t) :
    t.fatal = true := by
  rcases acceptCommand_eq_next.mp accepted with runs | ⟨-, -, rfl⟩
  · cases (runPort_fatal (s := { s with inProgress := false }) fatal).symm.trans runs
  · exact fatal

theorem startCommand_keeps_fatal {s t : State} (fatal : s.fatal = true) (started : startCommand s = .next t) :
    t.fatal = true := by
  rcases startCommand_eq_next.mp started with ⟨-, rfl⟩ | ⟨-, accepted⟩
  · exact fatal
  · exact acceptCommand_keeps_fatal fatal accepted

theorem withCommand_keeps_fatal {act : State → Host.Outcome State Fault Refusal}
    (keeps : ∀ {s t : State}, s.fatal = true → act s = .next t → t.fatal = true) {s t : State}
    (fatal : s.fatal = true) (turn : withCommand act s = .next t) : t.fatal = true := by
  rcases withCommand_eq_next.mp turn with ⟨-, acts⟩ | ⟨-, -, rfl⟩ | ⟨c, rest, -, -, acts⟩
  · exact keeps fatal acts
  · exact fatal
  · exact keeps (s := sampleCommand c rest s) fatal acts

/-- No worker clears `FATAL`, not even one that raises an exception itself in a state that is not sound
(log 17). -/
theorem workerTurn_keeps_fatal {j : Nat} {s t : State} (fatal : s.fatal = true)
    (turn : workerTurn j s = .next t) : t.fatal = true := by
  have steady := steady_workerStep (Steady.refl s) j
  unfold workerTurn at turn
  cases moves : workerStep j s with
  | ok _ u =>
    rw [moves] at turn
    cases turn
    exact (steady.ok moves).fatal.trans fatal
  | raise x u =>
    rw [moves] at turn
    cases turn
    simp [raiseException, (steady.raise moves).fatal, fatal]
  | refuse r => rw [moves] at turn; cases turn
  | stuck f => rw [moves] at turn; cases turn

theorem freeTurn_keeps_fatal {s t : State} (fatal : s.fatal = true) (turn : freeTurn s = .next t) :
    t.fatal = true := by
  rcases freeTurn_eq_next.mp turn with ⟨-, host⟩ | ⟨-, -, ⟨-, rfl⟩ | ⟨j, -, worker⟩⟩
  · exact withCommand_keeps_fatal acceptCommand_keeps_fatal fatal host
  · exact fatal
  · exact workerTurn_keeps_fatal fatal worker

/-- With `FATAL` set a step keeps it, or it is the reset's (spec/60_exceptions.md R305). -/
theorem step_keeps_fatal {s t : State} (fatal : s.fatal = true) (taken : step s = .next t) :
    t.fatal = true ∨ ∃ rest, s.agenda = .reset :: rest := by
  rcases step_eq_next.mp taken with
    ⟨-, free⟩ | ⟨rest, ⟨-, host⟩ | ⟨-, issue⟩ | ⟨j, -, worker⟩ | ⟨reset, -⟩⟩
  · exact .inl (freeTurn_keeps_fatal fatal free)
  · exact .inl (withCommand_keeps_fatal acceptCommand_keeps_fatal (s := { s with agenda := rest }) fatal host)
  · exact .inl (withCommand_keeps_fatal startCommand_keeps_fatal (s := { s with agenda := rest }) fatal issue)
  · exact .inl (workerTurn_keeps_fatal (s := { s with agenda := rest }) fatal worker)
  · exact .inr ⟨rest, reset⟩

/-- Settles O10, by `exec_fatal`, `runPort_fatal` and `step_keeps_fatal`. -/
theorem fatalRefusesUntilReset : Obligations.fatal_refuses_until_reset := fun _ fatal =>
  ⟨exec_fatal fatal, runPort_fatal fatal, fun _ taken cleared =>
    (step_keeps_fatal fatal taken).resolve_left (Bool.eq_false_iff.mp cleared)⟩

/-! ### The codes -/

/-- The rules that do not move the state machine and do not set the mode leave the fields of `Steady`. -/
theorem ruleOf_steady {i : Instr} (fsm : ¬ ChangesFsm i) (mode : ∀ code, i ≠ .casSetmode code) (s : State) :
    (ruleOf i s).Leaves (Steady s) := by
  have start := Steady.refl s
  cases i with
  | casInit => exact absurd (.inl rfl) fsm
  | casLoad => exact absurd (.inr (.inl rfl)) fsm
  | casBuild => exact absurd (.inr (.inr (.inl rfl))) fsm
  | casClose => exact absurd (.inr (.inr (.inr rfl))) fsm
  | casSetmode code => exact absurd rfl (mode code)
  | rotNew slot => exact (steady_rotorNew start _ _ _ _ _).bind fun _ _ h => h
  | rotUpdate slot => exact (steady_rotorUpdate start _).bind fun _ _ h => h
  | rotApplyf slot => exact (steady_rotorApplyAt start _ _ _).bind fun _ _ h => h
  | rotApplyi slot => exact (steady_rotorApplyAt start _ _ _).bind fun _ _ h => h
  | rotSeek slot => exact (leaves_orNoValue start).bind fun _ _ h => h
  | rotIndex slot => exact (leaves_orNoValue start).bind fun _ _ h => h
  | prmNew slot => exact (steady_permutatorNew start _ _ _).bind fun _ _ h => h
  | prmUpdate slot => exact (steady_permutatorUpdate start _).bind fun _ _ h => h
  | prmApplyf slot => exact (steady_permutatorApplyAt start _ _ _).bind fun _ _ h => h
  | prmApplyi slot => exact (steady_permutatorApplyAt start _ _ _).bind fun _ _ h => h
  | prmSeek slot => exact (leaves_orNoValue start).bind fun _ _ h => h
  | prmIndex slot => exact (leaves_orNoValue start).bind fun _ _ h => h
  | casSeek => exact (steady_seekAll start _).bind fun _ _ h => h
  | casPush => exact (steady_pushBlock start _).bind fun _ _ h => h
  | casPull => exact (steady_pullBlock start).bind fun _ _ h => h
  | rngRead =>
    show Res.Leaves _ (if _ then _ else _)
    split
    · exact start
    · exact (steady_drawBytes start _).bind fun _ _ h => h
  | rngUniform =>
    show Res.Leaves _ (if _ then _ else _)
    split
    · exact start
    · exact (steady_uniformDraw start _).bind fun _ _ h => h
  | rngPerm =>
    show Res.Leaves _ (if _ then _ else _)
    split
    · exact start
    · exact (steady_permutationDraw start _).bind fun _ _ h => h
  | _ => exact start

/-- A seek of every stage leaves `FATAL`. -/
theorem seekAll_keeps_fatal (idx : Nat) (s : State) : (seekAll idx s).Leaves fun t => t.fatal = s.fatal :=
  (steady_seekAll (Steady.refl s) idx).mono Steady.fatal

theorem adoptKeys_keeps_fatal (stages : List (Option Stage)) (key : List Byte) (s : State) :
    (adoptKeys stages key s).Leaves fun t => t.fatal = s.fatal :=
  Res.Leaves.bind (seekAll_keeps_fatal 0 { s with slots := stages }) fun _ _ h => h

theorem loadCascade_keeps_fatal (s : State) : (loadCascade s).Leaves fun t => t.fatal = s.fatal :=
  Res.Leaves.bind (seekAll_keeps_fatal 0 { s with maximalStates := some (cascadeMax s) }) fun _ _ h => h

theorem initCascade_keeps_fatal (s : State) : (initCascade s).Leaves fun t => t.fatal = s.fatal := by
  unfold initCascade
  split
  · dsimp only
    split
    · exact (adoptKeys_keeps_fatal _ _ s).bind fun _ _ h => h
    · trivial
  · rfl

theorem closePipeline_keeps_fatal (s : State) : (closePipeline s).Leaves fun t => t.fatal = s.fatal := by
  refine Res.Leaves.bind ((steady_await (Steady.refl s) _ _).mono Steady.fatal) fun _ u room => ?_
  have sentinel := (steady_await (Steady.refl (writeQueue 0 (some []) u))
    (fun s => queueBlock (outQueue s) s == some []) .stuckClose).mono Steady.fatal
  exact Res.Leaves.bind (sentinel.mono fun h => h.trans room) fun _ _ h => h

/-- No rule writes `FATAL`: only taking an exception does (spec/10_state.md R23). -/
theorem ruleOf_keeps_fatal (i : Instr) (s : State) : (ruleOf i s).Leaves fun t => t.fatal = s.fatal := by
  by_cases fsm : ChangesFsm i
  · rcases fsm with rfl | rfl | rfl | rfl
    · exact initCascade_keeps_fatal s
    · exact (loadCascade_keeps_fatal s).bind fun _ _ h => h
    · exact rfl
    · exact (closePipeline_keeps_fatal s).bind fun _ _ h => h
  · by_cases mode : ∃ code, i = .casSetmode code
    · obtain ⟨code, rfl⟩ := mode
      show (setMode code s).Leaves _
      unfold setMode
      split <;> exact rfl
    · exact (ruleOf_steady fsm (not_exists.mp mode) s).mono Steady.fatal

/-- A command that completes does so with `OK` or with an exception, from a state in which `FATAL` is still
clear (spec/60_exceptions.md R300, R308). -/
theorem exec_completes {i : Instr} {s t : State} (completes : exec i s = .next t) :
    ∃ u : State, u.fatal = false ∧ ((∃ ret, t = completeOk ret u) ∨ ∃ x, t = raiseException x u) := by
  obtain ⟨clear, ⟨-, rfl⟩ | ⟨-, -, ended⟩⟩ := exec_eq_next completes
  · exact ⟨s, clear, .inr ⟨_, rfl⟩⟩
  · have keeps := ruleOf_keeps_fatal i s
    rcases complete_eq_next.mp ended with ⟨ret, u, done, rfl⟩ | ⟨x, u, raised, rfl⟩
    · exact ⟨u, (keeps.ok done).trans clear, .inl ⟨ret, rfl⟩⟩
    · exact ⟨u, (keeps.raise raised).trans clear, .inr ⟨x, rfl⟩⟩

/-- Settles O11: `OK` leaves `FATAL` clear, and each exception sets it as the table of
spec/60_exceptions.md R300 has it. -/
theorem outcomeCodes : Obligations.outcome_codes := by
  intro i s t completes
  obtain ⟨u, clear, ⟨ret, rfl⟩ | ⟨x, rfl⟩⟩ := exec_completes completes
  · simp [completeOk, statusOk, clear]
  · cases x <;> simp [raiseException, exnCode, exnFatal, clear]

/-- From a sound state the only exceptions are the three that are not `BitIndexRange`
(spec/60_exceptions.md R303). -/
theorem exec_completes_inv {i : Instr} {s t : State} (inv : Inv s) (completes : exec i s = .next t) :
    (∃ ret u, t = completeOk ret u) ∨ ∃ x u, x ≠ .bitIndexRange ∧ t = raiseException x u := by
  obtain ⟨clear, ⟨-, rfl⟩ | ⟨encoding, legal, ended⟩⟩ := exec_eq_next completes
  · exact .inr ⟨.illegalCommand, s, nofun, rfl⟩
  · rcases complete_eq_next.mp ended with ⟨ret, u, -, rfl⟩ | ⟨x, u, raised, rfl⟩
    · exact .inl ⟨ret, u, rfl⟩
    · have ends := rule_ends inv ⟨clear, encoding⟩ legal
      rw [raised] at ends
      cases ends with
      | raised _ _ _ _ cause _ _ => exact .inr ⟨x, u, by rcases cause with rfl | rfl <;> nofun, rfl⟩

/-- Settles O12, by the exceptions a sound state allows (`exec_completes_inv`) and by what a worker's step
leaves (`steady_workerStep`). -/
theorem bitIndexRangeUnreachable : Obligations.bit_index_range_unreachable := by
  refine fun s inv => ⟨fun i t completes => ?command, fun j t turn => ?worker⟩
  case command =>
    rcases exec_completes_inv inv completes with ⟨ret, u, rfl⟩ | ⟨x, u, cause, rfl⟩
    · exact (nofun : statusOk ≠ 3)
    · cases x with
      | bitIndexRange => exact absurd rfl cause
      | _ => exact fun h => nomatch h
  case worker =>
    rcases workerTurn_eq_next inv turn with rfl | ⟨-, -, moves⟩
    · exact ⟨rfl, rfl⟩
    · obtain ⟨-, -, -, status, fatal, -⟩ := (steady_workerStep (Steady.refl s) j).ok moves
      exact ⟨status, fatal⟩

/-! ### The stuck cases -/

/-- A command that is stuck in a sound state is a pull with nothing in flight or a push with every queue full
(spec/60_exceptions.md R310). -/
theorem exec_fault_cases {i : Instr} {s : State} {f : Fault} (inv : Inv s) (stuck : exec i s = .fault f) :
    (f = .stuckPull ∧ i = .casPull ∧ s.fsm = .running ∧ s.inflight = 0) ∨
      (f = .stuckPush ∧ i = .casPush ∧ s.fsm = .running ∧ s.inflight = numSlots s + 2) := by
  obtain ⟨admitted, legal, waits⟩ := exec_eq_fault.mp stuck
  have ends := rule_ends inv admitted legal
  rw [waits] at ends
  cases ends with
  | stuckPull pull empty =>
    subst pull
    exact .inl ⟨rfl, rfl, legalRunning_eq_none.mp legal, empty⟩
  | stuckPush push full =>
    subst push
    exact .inr ⟨rfl, rfl, legalRunning_eq_none.mp legal, full⟩

/-- A pull with nothing in flight is stuck (spec/44_cascade.md R231). -/
theorem exec_casPull_stuck {s : State} (admitted : Admitted .casPull s) (running : s.fsm = .running)
    (empty : s.inflight = 0) : exec .casPull s = .fault .stuckPull :=
  exec_eq_fault.mpr ⟨admitted, legalRunning_eq_none.mpr running, bind_of_stuck (if_pos empty) _⟩

/-- A push with every queue full is stuck (spec/44_cascade.md R230). -/
theorem exec_casPush_stuck {s : State} (inv : Inv s) (admitted : Admitted .casPush s)
    (running : s.fsm = .running) (full : s.inflight = numSlots s + 2) :
    exec .casPush s = .fault .stuckPush :=
  exec_eq_fault.mpr ⟨admitted, legalRunning_eq_none.mpr running,
    bind_of_stuck (pushBlock_full (inv.live running) full _) _⟩

/-- Settles O42: nothing else is stuck (`exec_fault_cases`), and these two are. -/
theorem stuckCases : Obligations.stuck_cases := by
  refine fun i s inv admitted => ⟨⟨fun stuck => ?onlyPull, ?pull⟩, ⟨fun stuck => ?onlyPush, ?push⟩,
    fun stuck => ?neverClose⟩
  case onlyPull =>
    rcases exec_fault_cases inv stuck with ⟨-, cause⟩ | ⟨push, -⟩
    · exact cause
    · cases push
  case pull =>
    rintro ⟨rfl, running, empty⟩
    exact exec_casPull_stuck admitted running empty
  case onlyPush =>
    rcases exec_fault_cases inv stuck with ⟨pull, -⟩ | ⟨-, cause⟩
    · cases pull
    · exact cause
  case push =>
    rintro ⟨rfl, running, full⟩
    exact exec_casPush_stuck inv admitted running full
  case neverClose =>
    rcases exec_fault_cases inv stuck with ⟨pull, -⟩ | ⟨push, -⟩
    · cases pull
    · cases push

/-! ### `InvalidArgument` -/

/-- A draw whose rule finds its operand out of range completes with `InvalidArgument` and draws nothing
(spec/60_exceptions.md R301). -/
theorem exec_invalidArgument {i : Instr} {s : State} (canDraw : CanDraw s) (admitted : Admitted i s)
    (draws : legalOf i = legalDraw) (bad : ruleOf i s = .raise .invalidArgument s) :
    exec i s = .next { s with status := 1, returned := .nothing } := by
  have legal : legalOf i s = none := by rw [draws, legalDraw_eq_none.mpr canDraw]
  rw [exec_raise admitted legal bad, raiseException_of_not_fatal rfl]
  rfl

/-- Settles O54: each rule tests its operand before it draws. -/
theorem prngInvalidArgument : Obligations.prng_invalid_argument := fun _ canDraw =>
  ⟨fun admitted negative => exec_invalidArgument canDraw admitted rfl (if_pos negative),
    fun admitted not_positive => exec_invalidArgument canDraw admitted rfl (if_pos not_positive),
    fun admitted negative => exec_invalidArgument canDraw admitted rfl (if_pos negative)⟩

end Sys2Proof.Machine
end

section
/-! SUPPORT. The reset event (spec/70_reset_and_hazards.md R330): what a step does when the reset line is next,
and the two ways a command can be in progress when it comes, stuck (spec/60_exceptions.md R310) or blocked
(spec/10_state.md R22). -/

namespace Sys2Proof.Machine

/-- With the reset line next on the agenda the step is the reset event, whatever the state. -/
theorem step_reset {s : State} {rest : List Agent} (agenda : s.agenda = .reset :: rest) :
    step s = .next (resetEvent { s with agenda := rest }) :=
  step_eq_next.mpr (.inr ⟨rest, .inr (.inr (.inr ⟨agenda, rfl⟩))⟩)

/-- A stuck command that the host samples stays in progress where a reset is still to come
(spec/60_exceptions.md R310; log 11). -/
theorem hostTurn_stuck {i : Instr} {s : State} {c : Command} {later : List Command}
    (word : decode c.cmd = .ok i) (free : s.inProgress = false) (commands : s.commands = c :: later)
    (stuck : ∃ f, exec i { s with port := c, commands := later } = .fault f) (reset : .reset ∈ s.agenda) :
    hostTurn s = .next { s with port := c, commands := later, inProgress := true } :=
  (hostTurn_issued word free commands).2 stuck reset

/-- A command that is admitted and blocks does not complete as long as no worker moves: halting the workers
touches neither `FATAL` nor the encoding. -/
theorem exec_halt_of_blocks {i : Instr} {s : State} (inv : Inv s) (running : s.fsm = .running)
    (admitted : Admitted i s) (blocks : Blocks i s) : ∃ f, exec i (haltWorkers s) = .fault f := by
  obtain ⟨legal, f, stuck⟩ := blocks.ruleOf_halt inv running
  have admitted_halt : Admitted i (haltWorkers s) := admitted
  exact ⟨f, exec_eq_fault.mpr ⟨admitted_halt, legal, stuck⟩⟩

/-- A blocked command on the port has to wait (spec/10_state.md R22). -/
theorem mustWait_of_blocks {i : Instr} {s : State} (word : decode s.port.cmd = .ok i)
    (free : s.inProgress = false) (inv : Inv s) (running : s.fsm = .running) (admitted : Admitted i s)
    (blocks : Blocks i s) : mustWait s = true := by
  rw [mustWait_iff, inProgress_false_eq free, runPort_decode (s := haltWorkers s) word]
  exact exec_halt_of_blocks inv running admitted blocks

/-- A turn that only issues leaves a blocked command in progress, with nothing of it done
(spec/10_state.md R22; log 11). -/
theorem issueTurn_of_blocks {i : Instr} {s : State} {c : Command} {later : List Command}
    (word : decode c.cmd = .ok i) (free : s.inProgress = false) (commands : s.commands = c :: later)
    (inv : Inv s) (running : s.fsm = .running)
    (admitted : Admitted i { s with port := c, commands := later })
    (blocks : Blocks i { s with port := c, commands := later }) :
    issueTurn s = .next { s with port := c, commands := later, inProgress := true } := by
  have waits : mustWait { s with port := c, commands := later } = true :=
    mustWait_of_blocks word free (inv.sampleCommand c later) running admitted blocks
  rw [issueTurn, withCommand_sample _ free commands]
  exact startCommand_eq_next.mpr (.inl ⟨waits, rfl⟩)

/-- Settles O9: the first step leaves the command in progress, stuck on a turn of the host or blocked on a turn
that only issues, and the second is the reset's (`step_reset`). -/
theorem resetEventInAnyState : Obligations.reset_event := by
  intro s rest
  refine ⟨step_reset, fun c later i word free commands held => ⟨?inProgress, step_reset rfl⟩⟩
  rcases held with ⟨agenda, stuck⟩ | ⟨agenda, inv, admitted, running, blocks⟩
  · rw [step, agenda]
    exact hostTurn_stuck (s := { s with agenda := .reset :: rest }) word free commands stuck
      List.mem_cons_self
  · rw [step, agenda]
    exact issueTurn_of_blocks (s := { s with agenda := .reset :: rest }) word free commands
      (inv.agenda _) running admitted blocks

end Sys2Proof.Machine
end
